-- ==== Sys2Proof/Word.lean ====
section
/-!
DEFINITION. The data words of the block: the byte of both streams and of a channel, and the pixel of four channels.
-/

namespace Sys2Proof

/-- `u8` of rule R12 (00_scope.md): one byte of a stream, or one channel value. -/
abbrev Byte := BitVec 8

/-- A pixel is a record `(r, g, b, a)` of four `u8` (rule R12); two pixels are equal when all four channels are. -/
structure Pixel where
  r : Byte
  g : Byte
  b : Byte
  a : Byte
deriving DecidableEq, Repr, Inhabited

end Sys2Proof
end

