-- ==== Sys2Proof/Syntax.lean ====
section
/-!
DEFINITION. The instruction set: the seven opcodes of rule R80 and the tagged variant of rule R92 (30_encoding.md), payloads
being raw field values.
-/

namespace Sys2Proof

/-- The seven opcodes, as `classify` names them (rule R81). -/
inductive Opcode where
  | index | run8 | run16 | diff8 | diff16 | diff24 | color
deriving DecidableEq, Repr

/-- One opcode with its payload (rule R92), one constructor per row of opcode_table.json. -/
inductive Instr where
  /-- INDEX: `idx` is a cache index (rule R82). -/
  | index (idx : BitVec 6)
  /-- RUN_8: `n` is the run length minus 1 (rule R83). -/
  | run8 (n : BitVec 5)
  /-- RUN_16: `n` is the run length minus 33 (rule R84). -/
  | run16 (n : BitVec 13)
  /-- DIFF_8: three fields of bias 2 (rule R85). -/
  | diff8 (fr fg fb : BitVec 2)
  /-- DIFF_16: R of bias 16, G and B of bias 8 (rule R86). -/
  | diff16 (fr : BitVec 5) (fg fb : BitVec 4)
  /-- DIFF_24: four fields of bias 16 (rule R87). -/
  | diff24 (fr fg fb fa : BitVec 5)
  /-- COLOR: four presence flags and one literal byte per set flag, in R, G, B, A order (rule R88). -/
  | color (fR fG fB fA : Bool) (lits : List Byte)
deriving DecidableEq, Repr

/-- The opcode of an instruction. -/
def Instr.opcode : Instr → Opcode
  | .index _ => .index
  | .run8 _ => .run8
  | .run16 _ => .run16
  | .diff8 _ _ _ => .diff8
  | .diff16 _ _ _ => .diff16
  | .diff24 _ _ _ _ => .diff24
  | .color _ _ _ _ _ => .color

end Sys2Proof
end

