-- ==== Sys2Proof/WellFormed.lean ====
section
/-!
DEFINITION. Which terms of `Instr` are instructions. The field widths are in the types; what is left to check is that COLOR has
one literal byte per set flag (rule R92: `length = fR+fG+fB+fA`).
-/

namespace Sys2Proof

/-- How many of COLOR's four presence flags are set: the number of literal bytes (rule R88). -/
def flagCount (fR fG fB fA : Bool) : Nat := fR.toNat + fG.toNat + fB.toNat + fA.toNat

/-- The well-formedness check of an instruction (rule R92). -/
def Instr.wf : Instr → Bool
  | .index _ => true
  | .run8 _ => true
  | .run16 _ => true
  | .diff8 _ _ _ => true
  | .diff16 _ _ _ => true
  | .diff24 _ _ _ _ => true
  | .color fR fG fB fA lits => lits.length == flagCount fR fG fB fA

end Sys2Proof
end

