-- ==== Sys2Proof/Decode.lean ====
section
/-!
DEFINITION. From bytes to instructions and back (30_encoding.md): the tag classes of rule R81, the lengths of rule R91, the
decoder of rules R82 to R88 and R163, total on any bytes, and the encoder written from the same patterns. Rule R11's `v[hi:lo]` is
`v.extractLsb' lo n` with n = hi - lo + 1, and `{a, b}` is `a ++ b`.
-/

namespace Sys2Proof

/-- The opcode of a tag byte, by its leading bits (rule R81). -/
def classify (t : Byte) : Opcode :=
  if t.extractLsb' 6 2 = 0b00#2 then .index
  else if t.extractLsb' 5 3 = 0b010#3 then .run8
  else if t.extractLsb' 5 3 = 0b011#3 then .run16
  else if t.extractLsb' 6 2 = 0b10#2 then .diff8
  else if t.extractLsb' 5 3 = 0b110#3 then .diff16
  else if t.extractLsb' 4 4 = 0b1110#4 then .diff24
  else .color

/-- How many operand bytes follow a tag byte (rule R91: the tag alone decides). -/
def operandBytes (t : Byte) : Nat :=
  match classify t with
  | .index => 0
  | .run8 => 0
  | .run16 => 1
  | .diff8 => 0
  | .diff16 => 1
  | .diff24 => 2
  | .color => flagCount t[3] t[2] t[1] t[0]

/-- An opcode's length in bytes, from its tag byte (rule R91). -/
def tagLength (t : Byte) : Nat := 1 + operandBytes t

/-- The instruction of a tag byte and its operand bytes (rules R82 to R88, R163). It is applied to exactly `operandBytes t`
operands; `b1` and `b2` are the first two of them. -/
def buildInstr (t : Byte) (operands : List Byte) : Instr :=
  let b1 := operands.getD 0 0
  let b2 := operands.getD 1 0
  match classify t with
  | .index => .index (t.extractLsb' 0 6)
  | .run8 => .run8 (t.extractLsb' 0 5)
  | .run16 => .run16 (t.extractLsb' 0 5 ++ b1)
  | .diff8 => .diff8 (t.extractLsb' 4 2) (t.extractLsb' 2 2) (t.extractLsb' 0 2)
  | .diff16 => .diff16 (t.extractLsb' 0 5) (b1.extractLsb' 4 4) (b1.extractLsb' 0 4)
  | .diff24 =>
    .diff24 (t.extractLsb' 0 4 ++ b1.extractLsb' 7 1) (b1.extractLsb' 2 5)
      (b1.extractLsb' 0 2 ++ b2.extractLsb' 5 3) (b2.extractLsb' 0 5)
  | .color => .color t[3] t[2] t[1] t[0] operands

/-- Why bytes decode to no instruction. There is no illegal encoding (rule R94): only too few bytes. -/
inductive Reject where
  /-- There is no byte at all. -/
  | noTagByte
  /-- The bytes end before the last operand byte of the opcode. -/
  | missingOperandByte
deriving DecidableEq, Repr

/-- The first instruction of a byte list, and the bytes after it. -/
def decode : List Byte → Except Reject (Instr × List Byte)
  | [] => .error .noTagByte
  | t :: bs =>
    if bs.length < operandBytes t then .error .missingOperandByte
    else .ok (buildInstr t (bs.take (operandBytes t)), bs.drop (operandBytes t))

/-- The bytes of an instruction, from the bit patterns of rules R82 to R88. -/
def encode : Instr → List Byte
  | .index idx => [0b00#2 ++ idx]
  | .run8 n => [0b010#3 ++ n]
  | .run16 n => [0b011#3 ++ n.extractLsb' 8 5, n.extractLsb' 0 8]
  | .diff8 fr fg fb => [0b10#2 ++ fr ++ fg ++ fb]
  | .diff16 fr fg fb => [0b110#3 ++ fr, fg ++ fb]
  | .diff24 fr fg fb fa =>
    [0b1110#4 ++ fr.extractLsb' 1 4, fr.extractLsb' 0 1 ++ fg ++ fb.extractLsb' 3 2, fb.extractLsb' 0 3 ++ fa]
  | .color fR fG fB fA lits =>
    (0b1111#4 ++ BitVec.ofBool fR ++ BitVec.ofBool fG ++ BitVec.ofBool fB ++ BitVec.ofBool fA) :: lits

/-- The longest instruction, in bytes: COLOR with four literals (rule R91). -/
def maxInstrBytes : Nat := 5

/-- The bytes of an instruction given as a number, numbered as opcode_table.json numbers bits: the first byte is bits 7..0,
the next bits 15..8, and so on; every bit from `nbits` up is 0. Assumption log entry 17. -/
def tableBytes (nbits w : Nat) : List Byte :=
  (List.range maxInstrBytes).map fun k => BitVec.ofNat 8 ((w % 2 ^ nbits) >>> (8 * k))

/-- The instruction the decoder reads from the instruction numbered `w`. -/
def decodeTableWord (nbits w : Nat) : Option Instr :=
  match decode (tableBytes nbits w) with
  | .ok (i, _) => some i
  | .error _ => none

end Sys2Proof
end

