-- ==== Sys2Proof/Config.lean ====
section
/-!
DEFINITION. The fixed parameters of rule R7 (00_scope.md), and the free values: opaque constants with no body for what the
spec leaves open, so that nothing can be proved about the value they take.
-/

namespace Sys2Proof.Config

/-- CACHE_ENTRIES (rule R7). -/
abbrev cacheEntries : Nat := 64

/-- RUN8_MAX (rule R7): the longest run that RUN_8 holds. -/
abbrev run8Max : Nat := 32

/-- RUN16_MIN (rule R7): the shortest run that RUN_16 holds. -/
abbrev run16Min : Nat := 33

/-- RUN_MAX (rule R7): the longest run any opcode holds. -/
abbrev runMax : Nat := 8224

/-- PX_INIT (rules R7, R27): opaque black. Not the cache's initial value: the asymmetry is intended (R27, R383). -/
def pxInit : Pixel := ⟨0, 0, 0, 255⟩

/-- CACHE_INIT (rules R7, R29): the all-zero pixel. -/
def cacheInit : Pixel := ⟨0, 0, 0, 0⟩

/-- HEADER_BYTES (rule R7). -/
abbrev headerBytes : Nat := 14

/-- PADDING_BYTES (rule R7), all of them zero (R128). -/
abbrev paddingBytes : Nat := 4

/-- Free value: the draw of `Deliver()` (rule R306), which delivery target a Push chooses. Assumption log entry 6. -/
opaque freeDelivery : Nat → Nat

/-- Free value: IPOS after an operation that raised (rule R336). Assumption log entry 7. -/
opaque freeIpos : Nat → Nat

/-- Free value: OUT after an operation that raised (rule R336). Assumption log entry 7. -/
opaque freeOut : Nat → List Byte

/-- Free value: OPOS after an operation that raised (rule R336). Assumption log entry 7. -/
opaque freeOpos : Nat → Nat

/-- Free value: SENT after an operation that raised (rule R336). Assumption log entry 7. -/
opaque freeSent : Nat → Nat

/-- Free value: COUNT after a pixel is counted while COUNT is already 2^64 - 1 (rule R26 says only that this does not happen).
Assumption log entry 8. -/
opaque freeCount : Nat → BitVec 64

end Sys2Proof.Config
end

