-- ==== Sys2Proof/Machine/Operands.lean ====
section
/-!
DEFINITION. The operand forms and the channel arithmetic: hash and packing of a pixel, biased fields, the decoder's delta adder
and the encoder's delta subtractor (00_scope.md, 30_encoding.md, 44_delta.md), and COLOR's literals (45_color.md).
-/

namespace Sys2Proof

/-- `hash(p)` (rule R16): the low six bits of the exclusive or of the channels. -/
def Pixel.hash (p : Pixel) : BitVec 6 := (p.r ^^^ p.g ^^^ p.b ^^^ p.a).extractLsb' 0 6

/-- A pixel as one 32-bit word (rule R28): `{r, g, b, a}`, r in bits 31:24. -/
def Pixel.pack (p : Pixel) : BitVec 32 := p.r ++ p.g ++ p.b ++ p.a

/-- The pixel of a packed word (rule R28). -/
def Pixel.unpack (w : BitVec 32) : Pixel :=
  ⟨w.extractLsb' 24 8, w.extractLsb' 16 8, w.extractLsb' 8 8, w.extractLsb' 0 8⟩

/-- Where the host places the `k`-th pixel of an image of width `w` (rule R19): `(x, y)`. -/
def pixelPosition (w k : Nat) : Nat × Nat := (k % w, k / w)

/-- `wrap8` (rule R12): an integer modulo 256. -/
def wrap8 (v : Int) : Byte := BitVec.ofInt 8 v

/-- The four channel deltas, as plain integers (rules R89, R221). -/
structure Delta where
  dr : Int
  dg : Int
  db : Int
  da : Int
deriving DecidableEq, Repr

/-- `delta = zext(field) - bias` (rule R89), never sign-extended from the field. -/
def unbias {w : Nat} (bias : Nat) (field : BitVec w) : Int := (field.toNat : Int) - bias

/-- `field = delta + bias` (rule R90), for a delta in the field's range. -/
def biased (w bias : Nat) (delta : Int) : BitVec w := BitVec.ofInt w (delta + bias)

/-- The deltas of DIFF_8's fields (rule R85): bias 2, alpha 0. -/
def diff8Delta (fr fg fb : BitVec 2) : Delta := ⟨unbias 2 fr, unbias 2 fg, unbias 2 fb, 0⟩

/-- The deltas of DIFF_16's fields (rule R86): R of bias 16, G and B of bias 8, alpha 0. -/
def diff16Delta (fr : BitVec 5) (fg fb : BitVec 4) : Delta := ⟨unbias 16 fr, unbias 8 fg, unbias 8 fb, 0⟩

/-- The deltas of DIFF_24's fields (rule R87): bias 16 each. -/
def diff24Delta (fr fg fb fa : BitVec 5) : Delta := ⟨unbias 16 fr, unbias 16 fg, unbias 16 fb, unbias 16 fa⟩

/-- The decoder's delta adder (rule R210): four independent lanes modulo 256. -/
def addDelta (q : Pixel) (d : Delta) : Pixel :=
  ⟨wrap8 (q.r.toNat + d.dr), wrap8 (q.g.toNat + d.dg), wrap8 (q.b.toNat + d.db), wrap8 (q.a.toNat + d.da)⟩

/-- The encoder's delta subtractor (rules R10, R221): plain differences, each in -255..255, not wrapped. -/
def pixelDelta (p prev : Pixel) : Delta :=
  ⟨(p.r.toNat : Int) - prev.r.toNat, (p.g.toNat : Int) - prev.g.toNat,
   (p.b.toNat : Int) - prev.b.toNat, (p.a.toNat : Int) - prev.a.toNat⟩

/-- One channel of COLOR (rule R240): a set flag takes the next literal byte, a clear one keeps the channel. -/
def takeLiteral (flag : Bool) (old : Byte) (lits : List Byte) : Byte × List Byte :=
  match flag, lits with
  | true, v :: rest => (v, rest)
  | _, _ => (old, lits)

/-- COLOR's new pixel (rules R240, R241): the literals go to the set flags in R, G, B, A order. -/
def colorPixel (q : Pixel) (fR fG fB fA : Bool) (lits : List Byte) : Pixel :=
  let (r, lits) := takeLiteral fR q.r lits
  let (g, lits) := takeLiteral fG q.g lits
  let (b, lits) := takeLiteral fB q.b lits
  let (a, _) := takeLiteral fA q.a lits
  ⟨r, g, b, a⟩

end Sys2Proof
end

