-- ==== Sys2Proof/Machine/State.lean ====
section
/-!
DEFINITION. The state of the block (rule R20, 10_state.md) as plain data, the parameters of a pass and the host's side of the
interface (rules R9, R33, R306), the reasons a step can stop, and the state after reset (rule R370).
-/

namespace Sys2Proof.Machine

/-- MODE (rule R22): 1 bit, DECODE = 0, ENCODE = 1. -/
inductive Mode where
  | decode | encode
deriving DecidableEq, Repr

/-- STATUS (rule R23): 2 bits, IDLE = 0, ACTIVE = 1, DONE = 2, ERROR = 3. -/
inductive Status where
  | idle | active | done | error
deriving DecidableEq, Repr

/-- ERR and the error kinds (rules R24, R330): 2 bits, NONE = 0, FORMAT = 1, CHANNEL = 2, STREAM = 3. -/
inductive ErrCode where
  | noError | format | channel | stream
deriving DecidableEq, Repr

/-- The cause a StreamError carries (rule R332). -/
inductive Cause where
  | endOfStream | ioFailure
deriving DecidableEq, Repr

/-- The `info` of a StreamError (rule R332): the cause, and the stream position (IPOS for input, the output index for output). -/
structure ErrInfo where
  cause : Cause
  position : Nat
deriving DecidableEq, Repr

/-- What Start binds beside its arguments: the byte source IN of the pass with its failure position IN_FAIL (rule R33), and the
failure position OUT_FAIL of the pass's sink (rule R9). -/
structure PassIO where
  input : List Byte
  inFail : Option Nat
  outFail : Option Nat
deriving DecidableEq, Repr

/-- The operations a host issues (rule R6). -/
inductive HostOp where
  | reset
  | start (mode : Mode) (width height : BitVec 32) (channels colorspace : Byte) (io : PassIO)
  | pull
  | push (p : Pixel)
  | finish
deriving DecidableEq, Repr

/-- What an operation hands back to the host (rules R160, R260, R280, R335). A sticky error carries no info (R161). -/
inductive Result where
  | pixel (p : Pixel)
  | endOfPass
  | ok
  | error (kind : ErrCode) (info : Option ErrInfo)
deriving DecidableEq, Repr

/-- The machine. The fields from `mode` to `sent` are the block's registers, all of rule R20 and nothing else; then come the
parameters of rules R9 and R33, the sinks, the host's queue and results, and the model's own counter of free values. -/
structure State where
  /-- MODE -/
  mode : Mode
  /-- STATUS -/
  status : Status
  /-- ERR -/
  err : ErrCode
  /-- WIDTH -/
  width : BitVec 32
  /-- HEIGHT -/
  height : BitVec 32
  /-- CHANNELS: latched, never read by a rule (R21). -/
  channels : Byte
  /-- COLORSPACE: latched, never read by a rule (R21). -/
  colorspace : Byte
  /-- TOTAL (R25) -/
  total : BitVec 64
  /-- COUNT (R26) -/
  count : BitVec 64
  /-- PX (R27) -/
  px : Pixel
  /-- CACHE[0..63] (R29) -/
  cache : Vector Pixel 64
  /-- RUN (R30) -/
  run : BitVec 14
  /-- IPOS (R31) -/
  ipos : Nat
  /-- OUT (R32) -/
  out : List Byte
  /-- OPOS (R32) -/
  opos : Nat
  /-- SENT (R32) -/
  sent : Nat
  /-- IN, the byte source of the pass (R33): a parameter. -/
  input : List Byte
  /-- IN_FAIL (R9): a parameter. -/
  inFail : Option Nat
  /-- OUT_FAIL (R9): a parameter. -/
  outFail : Option Nat
  /-- OBUF_BYTES (R9): a parameter; no operation changes it. -/
  obufBytes : Nat
  /-- The bytes the pass's sink has received, in order (R306). -/
  sink : List Byte
  /-- What the sinks of earlier passes hold, newest first (R371). -/
  oldSinks : List (List Byte)
  /-- The operations the host has issued and the block has not yet run, oldest first. -/
  ops : List HostOp
  /-- What operations have returned, oldest first. -/
  results : List Result
  /-- The model's own: how many free values have been drawn. -/
  draws : Nat
deriving DecidableEq, Repr

/-- Why the machine stops in a step. -/
inductive Fault where
  /-- Raised by a Push or a Finish that has to flush a run longer than 8224: such a run has no encoding (rule R384: "A RUN of 8225
  has no encoding"). Safe: no run of the block reaches a state with RUN above 8223, and the model stops there. -/
  | runWithoutEncoding
deriving DecidableEq, Repr

/-- Why a step has no meaning. -/
inductive Refusal where
  /-- Raised by an arm of `exec` whose instruction is not modelled. Safe: the model stops. No arm is left that does so. -/
  | notModelled (mnemonic : String)
  /-- Raised by `execColor` on a term that is no instruction: its literal list is not one byte per set flag (rule R92). Safe: no
  bytes decode to such a term. -/
  | illFormedColor
  /-- Raised by Pull in IDLE or in ENCODE mode (rule R161: "Pull has no step"). Safe: the host may not issue it. -/
  | pullHasNoStep
  /-- Raised by Push in IDLE, in DECODE mode or in DONE (rule R261: "Push has no step"). Safe: the host may not issue it. -/
  | pushHasNoStep
  /-- Raised by Finish in IDLE, in DECODE mode or in DONE (rule R281: "has no step"). Safe: the host may not issue it. -/
  | finishHasNoStep
deriving DecidableEq, Repr

/-- The machine right after reset (rule R370): every register at its "value after Reset" of rule R20, no pass bound, nothing
issued by the host. The parameters' values here are the model's (assumption log entry 3). -/
def State.reset : State where
  mode := .decode
  status := .idle
  err := .noError
  width := 0
  height := 0
  channels := 0
  colorspace := 0
  total := 0
  count := 0
  px := Config.pxInit
  cache := Vector.replicate 64 Config.cacheInit
  run := 0
  ipos := 0
  out := []
  opos := 0
  sent := 0
  input := []
  inFail := none
  outFail := none
  obufBytes := 0
  sink := []
  oldSinks := []
  ops := []
  results := []
  draws := 0

end Sys2Proof.Machine
end

