-- ==== Sys2Proof/Machine/Flags.lean ====
section
/-!
DEFINITION. The block stores no flags (rule R34): the three predicates of the state that stand in for them, the numeric codes of
the control registers (rules R20, R330), and the range comparators of the delta unit (rule R222).
-/

namespace Sys2Proof

/-- `fits8` (rule R222). -/
def Delta.fits8 (d : Delta) : Bool :=
  decide (d.da = 0 ∧ -2 ≤ d.dr ∧ d.dr ≤ 1 ∧ -2 ≤ d.dg ∧ d.dg ≤ 1 ∧ -2 ≤ d.db ∧ d.db ≤ 1)

/-- `fits16` (rule R222). -/
def Delta.fits16 (d : Delta) : Bool :=
  decide (d.da = 0 ∧ -16 ≤ d.dr ∧ d.dr ≤ 15 ∧ -8 ≤ d.dg ∧ d.dg ≤ 7 ∧ -8 ≤ d.db ∧ d.db ≤ 7)

/-- `fits24` (rule R222). -/
def Delta.fits24 (d : Delta) : Bool :=
  decide (-16 ≤ d.dr ∧ d.dr ≤ 15 ∧ -16 ≤ d.dg ∧ d.dg ≤ 15 ∧ -16 ≤ d.db ∧ d.db ≤ 15 ∧ -16 ≤ d.da ∧ d.da ≤ 15)

namespace Machine

/-- `run_active = (RUN > 0)` (rule R34). -/
def State.runActive (s : State) : Bool := decide (0 < s.run.toNat)

/-- `done = (STATUS = DONE)` (rule R34). -/
def State.isDone (s : State) : Bool := decide (s.status = .done)

/-- `failed = (STATUS = ERROR)` (rule R34). -/
def State.failed (s : State) : Bool := decide (s.status = .error)

/-- The 1-bit code of MODE (rule R20). -/
def Mode.code : Mode → BitVec 1
  | .decode => 0
  | .encode => 1

/-- The 2-bit code of STATUS (rule R20). -/
def Status.code : Status → BitVec 2
  | .idle => 0
  | .active => 1
  | .done => 2
  | .error => 3

/-- The 2-bit code of ERR (rules R20, R330). -/
def ErrCode.code : ErrCode → BitVec 2
  | .noError => 0
  | .format => 1
  | .channel => 2
  | .stream => 3

end Machine

end Sys2Proof
end

