-- ==== Sys2Proof/Machine/Ops.lean ====
section
/-!
DEFINITION. The named operations over the state: the cache (41_color_cache.md), the two byte streams (47_stream_adapter.md), the
registers, counting a pixel, and raising an error (60_exceptions.md), which is the block's only exception. There is no return from
an error (rule R338): only Reset and Start leave it.
-/

namespace Sys2Proof.Machine

/-- `PX <- p`. -/
def State.withPx (p : Pixel) (s : State) : State := { s with px := p }

/-- `RUN <- n`. -/
def State.withRun (n : BitVec 14) (s : State) : State := { s with run := n }

/-- `STATUS <- v`. -/
def State.withStatus (v : Status) (s : State) : State := { s with status := v }

/-- IPOS moves past `n` bytes. -/
def State.advance (n : Nat) (s : State) : State := { s with ipos := s.ipos + n }

/-- `SENT <- n`. -/
def State.withSent (n : Nat) (s : State) : State := { s with sent := n }

/-- The host's queue becomes `ops`. -/
def State.withOps (ops : List HostOp) (s : State) : State := { s with ops := ops }

/-- One free value has been drawn. -/
def State.drawn (s : State) : State := { s with draws := s.draws + 1 }

/-- Hands a result to the host. -/
def State.report (r : Result) (s : State) : State := { s with results := s.results ++ [r] }

/-- `lookup(i)` (rule R141): the whole pixel CACHE[i]; no side effect. -/
def State.lookup (i : BitVec 6) (s : State) : Pixel := s.cache[i.toNat]'i.isLt

/-- `store(p)` (rule R142): `CACHE[hash(p)] <- p`, unconditionally. -/
def State.storePixel (p : Pixel) (s : State) : State :=
  { s with cache := s.cache.set p.hash.toNat p p.hash.isLt }

/-- `PX <- p; store(PX)`: how DIFF_8, DIFF_16, DIFF_24 and COLOR end (rules R143, R212, R215, R218, R240). -/
def State.setAndStore (p : Pixel) (s : State) : State := (s.withPx p).storePixel p

/-- `COUNT <- COUNT + 1`. At 2^64 - 1 the spec gives no result (rule R26: "never wraps"): a free value, log entry 8. -/
def State.bumpCount (s : State) : State :=
  if s.count = BitVec.allOnes 64 then { s with count := Config.freeCount s.draws, draws := s.draws + 1 }
  else { s with count := s.count + 1 }

/-- `StreamRead()` (rule R301): the byte at IPOS, or the info of a StreamError; an input failure comes before end of stream. -/
def State.streamRead (s : State) : Except ErrInfo (Byte × State) :=
  if s.inFail = some s.ipos then .error ⟨.ioFailure, s.ipos⟩
  else
    match s.input[s.ipos]? with
    | none => .error ⟨.endOfStream, s.ipos⟩
    | some v => .ok (v, s.advance 1)

/-- `n` bytes by `StreamRead()`, in stream order, up to the first that fails (rule R333). -/
def State.readBytes : Nat → State → Except ErrInfo (List Byte × State)
  | 0, s => .ok ([], s)
  | n + 1, s =>
    match s.streamRead with
    | .error e => .error e
    | .ok (v, s1) =>
      match State.readBytes n s1 with
      | .error e => .error e
      | .ok (vs, s2) => .ok (v :: vs, s2)

/-- `StreamWrite(bytes)` (rule R305): appends to OUT and never fails. -/
def State.streamWrite (bytes : List Byte) (s : State) : State :=
  { s with out := s.out ++ bytes, opos := s.opos + bytes.length }

/-- The bytes OUT[first .. stop-1]. -/
def State.outSlice (first stop : Nat) (s : State) : List Byte := (s.out.drop first).take (stop - first)

/-- The sink receives bytes, in order (rule R306). -/
def State.receive (bytes : List Byte) (s : State) : State := { s with sink := s.sink ++ bytes }

/-- Delivery of the buffer up to output position `target` (rules R306, R307). On a failure it gives the info and the bytes the sink
receives before the failing one. -/
def State.deliverTo (target : Nat) (s : State) : Except (ErrInfo × List Byte) State :=
  match s.outFail with
  | none => .ok ((s.receive (s.outSlice s.sent target)).withSent target)
  | some k =>
    if s.sent ≤ k ∧ k < target then .error (⟨.ioFailure, k⟩, s.outSlice s.sent k)
    else .ok ((s.receive (s.outSlice s.sent target)).withSent target)

/-- The delivery target a draw stands for (rule R306): the draw, moved into `max(SENT, OPOS - OBUF_BYTES) .. OPOS`. Every target in
that range is some draw's, and each is its own (log entry 6). -/
def State.deliveryTarget (draw : Nat) (s : State) : Nat :=
  let least := max s.sent (s.opos - s.obufBytes)
  if s.opos ≤ least then least else max least (min draw s.opos)

/-- `Deliver()` (rule R306), its free choice being `draw`. -/
def State.deliver (draw : Nat) (s : State) : Except (ErrInfo × List Byte) State := s.deliverTo (s.deliveryTarget draw)

/-- `FlushOutput()` (rule R307): delivers the whole buffer. -/
def State.flushOutput (s : State) : Except (ErrInfo × List Byte) State := s.deliverTo s.opos

/-- `raise E(info)` (rules R15, R335, R336), applied to the state before the operation: STATUS and ERR are written and the result is
returned; every other register is as before, but IPOS, OUT, OPOS and SENT, which are unspecified (free values, log entry 7). -/
def State.raise (kind : ErrCode) (info : ErrInfo) (s : State) : State :=
  { s with
    status := .error
    err := kind
    ipos := Config.freeIpos s.draws
    out := Config.freeOut s.draws
    opos := Config.freeOpos s.draws
    sent := Config.freeSent s.draws
    draws := s.draws + 1
    results := s.results ++ [.error kind (some info)] }

/-- Any operation in ERROR (rule R337): it returns `Error(ERR)` and changes nothing. -/
def State.stickyError (s : State) : State := s.report (.error s.err none)

end Sys2Proof.Machine
end

