-- ==== Sys2Proof/Machine/Encoder.lean ====
section
/-!
DEFINITION. ENCODE mode (46_encoder.md): the run-length encoder, opcode selection and emission, and the Push and Finish
operations.
-/

namespace Sys2Proof.Machine

/-- The run opcode of a length (rules R101, R277): RUN_8 up to 32, RUN_16 up to 8224, none for any other length. -/
def runInstr (length : Nat) : Option Instr :=
  if length = 0 then none
  else if length ≤ Config.run8Max then some (.run8 (BitVec.ofNat 5 (length - 1)))
  else if length ≤ Config.runMax then some (.run16 (BitVec.ofNat 13 (length - Config.run16Min)))
  else none

/-- `FlushRun()` (rule R277). A run above 8224 has no encoding (R384): a fault, log entry 9. -/
def State.flushRun (s : State) : Except Fault State :=
  match runInstr s.run.toNat with
  | none => .error .runWithoutEncoding
  | some i => .ok ((s.streamWrite (encode i)).withRun 0)

/-- EmitDIFF8 (rule R270). -/
def emitDiff8 (d : Delta) : Instr := .diff8 (biased 2 2 d.dr) (biased 2 2 d.dg) (biased 2 2 d.db)

/-- EmitDIFF16 (rule R272). -/
def emitDiff16 (d : Delta) : Instr := .diff16 (biased 5 16 d.dr) (biased 4 8 d.dg) (biased 4 8 d.db)

/-- EmitDIFF24 (rule R274). -/
def emitDiff24 (d : Delta) : Instr :=
  .diff24 (biased 5 16 d.dr) (biased 5 16 d.dg) (biased 5 16 d.db) (biased 5 16 d.da)

/-- One literal byte for a channel that changed, none for one that did not (rule R276). -/
def changedLiteral (old new : Byte) : List Byte := if new = old then [] else [new]

/-- EmitCOLOR (rule R276): a flag for exactly each changed channel, and its new value. -/
def emitColor (prev p : Pixel) : Instr :=
  .color (p.r != prev.r) (p.g != prev.g) (p.b != prev.b) (p.a != prev.a)
    (changedLiteral prev.r p.r ++ changedLiteral prev.g p.g ++ changedLiteral prev.b p.b ++ changedLiteral prev.a p.a)

/-- `EncodeDelta(prev, p)` (rule R267): the first form that fits. -/
def encodeDelta (prev p : Pixel) : Instr :=
  let d := pixelDelta p prev
  if d.fits8 then emitDiff8 d
  else if d.fits16 then emitDiff16 d
  else if d.fits24 then emitDiff24 d
  else emitColor prev p

/-- A pushed pixel that differs from PX, once no run is pending (rules R265, R266, R278): INDEX on a cache hit, otherwise the pixel
is stored and its delta from PX is emitted. -/
def State.encodeDistinct (p : Pixel) (s : State) : State :=
  if s.lookup p.hash = p then (s.streamWrite (encode (.index p.hash))).withPx p
  else ((s.storePixel p).streamWrite (encode (encodeDelta s.px p))).withPx p

/-- A pushed pixel equal to PX (rule R263): RUN is incremented, and flushed when it reaches 8224. -/
def State.encodeRunPixel (s : State) : Except Fault State :=
  let n := s.run.toNat + 1
  if n < Config.runMax then .ok (s.withRun (BitVec.ofNat 14 n))
  else (s.withRun (BitVec.ofNat 14 n)).flushRun

/-- What a Push does with its pixel before counting it (rules R260, R263 to R266). -/
def State.encodePixel (p : Pixel) (s : State) : Except Fault State :=
  if p = s.px then s.encodeRunPixel
  else if s.runActive then
    match s.flushRun with
    | .error r => .error r
    | .ok s1 => .ok (s1.encodeDistinct p)
  else .ok (s.encodeDistinct p)

/-- How a Push or a Finish that delivers ends: `before` is the state before the operation, which a failed delivery rolls back to
(rule R336), the sink keeping what it received (R306, R307). -/
def State.afterDelivery (before : State) (result : Except (ErrInfo × List Byte) State) (ok : State → State) : State :=
  match result with
  | .error (info, received) => (before.receive received).raise .stream info
  | .ok s => (ok s).report .ok

/-- A Push in an active encode pass (rule R260), `draw` being the choice of its `Deliver()`: the pixel is encoded, counted, and the
buffer delivered up to the choice. -/
def pushActive (draw : Nat) (p : Pixel) (s : State) : Host.Outcome State Fault Refusal :=
  match s.encodePixel p with
  | .error r => .fault r
  | .ok s1 => .next (s.afterDelivery (s1.bumpCount.deliver draw) id)

/-- `Push(p)` (rules R260, R261) with the choice of its `Deliver()` made. -/
def pushWith (draw : Nat) (p : Pixel) (s : State) : Host.Outcome State Fault Refusal :=
  match s.mode, s.status with
  | .decode, _ => .refused .pushHasNoStep
  | .encode, .idle => .refused .pushHasNoStep
  | .encode, .error => .next s.stickyError
  | .encode, .done => .refused .pushHasNoStep
  | .encode, .active => pushActive draw p s.drawn

/-- `Push(p)` (rule R260): the choice of `Deliver()` is a free value (log entry 6). -/
def push (p : Pixel) (s : State) : Host.Outcome State Fault Refusal := pushWith (Config.freeDelivery s.draws) p s

/-- A Finish in an active encode pass (rule R280): the pending run is flushed, then the output buffer. -/
def finishActive (s : State) : Host.Outcome State Fault Refusal :=
  match (if s.runActive then s.flushRun else .ok s) with
  | .error r => .fault r
  | .ok s1 => .next (s.afterDelivery s1.flushOutput (State.withStatus .done))

/-- `Finish()` (rules R280, R281). -/
def finish (s : State) : Host.Outcome State Fault Refusal :=
  match s.mode, s.status with
  | .decode, _ => .refused .finishHasNoStep
  | .encode, .idle => .refused .finishHasNoStep
  | .encode, .error => .next s.stickyError
  | .encode, .done => .refused .finishHasNoStep
  | .encode, .active => finishActive s

end Sys2Proof.Machine
end

