-- ==== Sys2Proof/Machine/Color.lean ====
section
/-!
DEFINITION. `Execute` of COLOR (45_color.md).
-/

namespace Sys2Proof.Machine

/-- COLOR (rule R240). A term whose literals are not one per set flag is no instruction (rule R92) and is refused by name. -/
def execColor (fR fG fB fA : Bool) (lits : List Byte) (s : State) : Host.Outcome State Fault Refusal :=
  if (Instr.color fR fG fB fA lits).wf then .next (s.setAndStore (colorPixel s.px fR fG fB fA lits))
  else .refused .illFormedColor

end Sys2Proof.Machine
end

