-- ==== Sys2Proof/Machine/Diff.lean ====
section
/-!
DEFINITION. `Execute` of DIFF_8, DIFF_16 and DIFF_24 (44_delta.md).
-/

namespace Sys2Proof.Machine

/-- DIFF_8 (rule R212). -/
def execDiff8 (fr fg fb : BitVec 2) (s : State) : Host.Outcome State Fault Refusal :=
  .next (s.setAndStore (addDelta s.px (diff8Delta fr fg fb)))

/-- DIFF_16 (rule R215). -/
def execDiff16 (fr : BitVec 5) (fg fb : BitVec 4) (s : State) : Host.Outcome State Fault Refusal :=
  .next (s.setAndStore (addDelta s.px (diff16Delta fr fg fb)))

/-- DIFF_24 (rule R218). -/
def execDiff24 (fr fg fb fa : BitVec 5) (s : State) : Host.Outcome State Fault Refusal :=
  .next (s.setAndStore (addDelta s.px (diff24Delta fr fg fb fa)))

end Sys2Proof.Machine
end

