-- ==== Sys2Proof/Machine/IndexRun.lean ====
section
/-!
DEFINITION. `Execute` of INDEX, RUN_8 and RUN_16 (43_index_run.md).
-/

namespace Sys2Proof.Machine

/-- INDEX (rule R190): `PX <- CACHE[idx]`; the cache is not written. -/
def execIndex (idx : BitVec 6) (s : State) : Host.Outcome State Fault Refusal :=
  .next (s.withPx (s.lookup idx))

/-- RUN_8 (rule R194): `RUN <- n`, the run length minus 1. -/
def execRun8 (n : BitVec 5) (s : State) : Host.Outcome State Fault Refusal :=
  .next (s.withRun (n.setWidth 14))

/-- RUN_16 (rule R197): `RUN <- n + 32`, the run length minus 1. -/
def execRun16 (n : BitVec 13) (s : State) : Host.Outcome State Fault Refusal :=
  .next (s.withRun (n.setWidth 14 + 32))

end Sys2Proof.Machine
end

