-- ==== Sys2Proof/Machine/Dispatch.lean ====
section
/-!
DEFINITION. `Execute(op)` (rule R164): one arm per constructor, no wildcard.
-/

namespace Sys2Proof.Machine

def exec (i : Instr) (s : State) : Host.Outcome State Fault Refusal :=
  match i with
  | .index idx => Sys2Proof.Machine.execIndex idx s
  | .run8 n => Sys2Proof.Machine.execRun8 n s
  | .run16 n => Sys2Proof.Machine.execRun16 n s
  | .diff8 fr fg fb => Sys2Proof.Machine.execDiff8 fr fg fb s
  | .diff16 fr fg fb => Sys2Proof.Machine.execDiff16 fr fg fb s
  | .diff24 fr fg fb fa => Sys2Proof.Machine.execDiff24 fr fg fb fa s
  | .color fR fG fB fA lits => Sys2Proof.Machine.execColor fR fG fB fA lits s

end Sys2Proof.Machine
end

