-- ==== Sys2Proof/Machine/Pull.lean ====
section
/-!
DEFINITION. DECODE mode (42_dispatch_decode.md): fetching and dispatching one opcode from IN, and the Pull operation around it.
-/

namespace Sys2Proof.Machine

/-- `Dispatch()` (rule R163): reads the tag byte, then the operand bytes its class needs, and builds the instruction. The info is
that of the first StreamRead that fails (rules R165, R333). -/
def State.dispatch (s : State) : Except ErrInfo (Instr × State) :=
  match s.streamRead with
  | .error e => .error e
  | .ok (t, s1) =>
    match s1.readBytes (operandBytes t) with
    | .error e => .error e
    | .ok (operands, s2) => .ok (buildInstr t operands, s2)

/-- How a Pull ends once PX holds its pixel (rules R160, R166): COUNT is incremented, the pass is DONE when COUNT = TOTAL, and the
pixel is returned. -/
def State.completePull (s : State) : State :=
  let s := s.bumpCount
  let s := if s.count = s.total then s.withStatus .done else s
  s.report (.pixel s.px)

/-- A Pull in an active decode pass (rule R160): a run continuation (R162), or one opcode dispatched and executed (R163, R164), or a
StreamError (R165). -/
def pullActive (s : State) : Host.Outcome State Fault Refusal :=
  if s.runActive then .next (s.withRun (s.run - 1)).completePull
  else
    match s.dispatch with
    | .error info => .next (s.raise .stream info)
    | .ok (i, s1) =>
      match exec i s1 with
      | .next s2 => .next s2.completePull
      | .fault r => .fault r
      | .refused r => .refused r

/-- `Pull()` (rules R160, R161). -/
def pull (s : State) : Host.Outcome State Fault Refusal :=
  match s.mode, s.status with
  | .encode, _ => .refused .pullHasNoStep
  | .decode, .idle => .refused .pullHasNoStep
  | .decode, .error => .next s.stickyError
  | .decode, .done => .next (s.report .endOfPass)
  | .decode, .active => pullActive s

end Sys2Proof.Machine
end

