-- ==== Sys2Proof/Machine/HostOps.lean ====
section
/-!
DEFINITION. Reset and Start (70_reset_and_hazards.md), running one host operation, and placing one instruction in the input.
-/

namespace Sys2Proof.Machine

/-- Reset (rules R370, R371): every register to its reset value. The parameters, the sinks, and the host's queue and results are not
registers of the block and stay: "Bytes already delivered to a sink stay there". -/
def resetOp (s : State) : State :=
  { State.reset with
    input := s.input, inFail := s.inFail, outFail := s.outFail, obufBytes := s.obufBytes
    sink := s.sink, oldSinks := s.oldSinks, ops := s.ops, results := s.results, draws := s.draws }

/-- TOTAL (rule R25): the exact product of the two 32-bit sizes. -/
def pixelTotal (width height : BitVec 32) : BitVec 64 := width.setWidth 64 * height.setWidth 64

/-- Start (rule R372): begins a pass in any state, binds its input and its sink, and latches the descriptor's fields. -/
def startOp (mode : Mode) (width height : BitVec 32) (channels colorspace : Byte) (io : PassIO) (s : State) : State :=
  { s with
    mode := mode
    status := if mode = .decode ∧ pixelTotal width height = 0 then .done else .active
    err := .noError
    width := width
    height := height
    channels := channels
    colorspace := colorspace
    total := pixelTotal width height
    count := 0
    px := Config.pxInit
    cache := Vector.replicate 64 Config.cacheInit
    run := 0
    ipos := 0
    out := []
    opos := 0
    sent := 0
    input := io.input
    inFail := io.inFail
    outFail := io.outFail
    sink := []
    oldSinks := s.sink :: s.oldSinks }

/-- One host operation (rule R6): one atomic step. -/
def runOp (op : HostOp) (s : State) : Host.Outcome State Fault Refusal :=
  match op with
  | .reset => .next (resetOp s)
  | .start mode width height channels colorspace io => .next (startOp mode width height channels colorspace io s)
  | .pull => pull s
  | .push p => push p s
  | .finish => finish s

/-- One step: the oldest operation the host has issued. With none issued the block stays as it is (rule R347: "It moves only when
the host issues an operation"). -/
def nextStep (s : State) : Host.Outcome State Fault Refusal :=
  match s.ops with
  | [] => .next s
  | op :: rest => runOp op (s.withOps rest)

/-- `s` with `bytes` standing in IN from IPOS on, and the machine at the point where its next step is the Pull that dispatches them:
an active decode pass with no run pending and a pixel still to come. Log entry 14. -/
def placeInstr (bytes : List Byte) (s : State) : State :=
  let s := if s.count < s.total then s else { s with width := 1, height := 1, total := 1, count := 0 }
  { s with
    mode := .decode
    status := .active
    err := .noError
    run := 0
    input := (s.input ++ List.replicate s.ipos 0).take s.ipos ++ bytes
    inFail := none
    ops := .pull :: s.ops }

end Sys2Proof.Machine
end

