-- ==== Sys2Proof/Machine/Step.lean ====
section
/-!
DEFINITION. One step of the machine, and where a given instruction has to stand for the next step to run it.
-/

namespace Sys2Proof.Machine

/-- One step: the oldest operation the host has issued runs, as one atomic step (rule R6). -/
def step (s : State) : Host.Outcome State Fault Refusal := nextStep s

/-- `s` with the instruction numbered `w` standing where the next step fetches and runs it (log entry 14). -/
def State.withFetchWord (s : State) (nbits w : Nat) : State := placeInstr (tableBytes nbits w) s

end Sys2Proof.Machine
end

