-- ==== Sys2Proof/Machine/Assembler.lean ====
section
/-!
DEFINITION. The spec's assembly syntax (rules R100, R101): operands are true values, and `RUN L` is the one pseudo-instruction.
-/

namespace Sys2Proof.Machine

/-- One line of assembly (rules R100, R101). A COLOR channel that is not written is `none`. -/
inductive AsmLine where
  | index (i : Nat)
  | run8 (length : Nat)
  | run16 (length : Nat)
  | diff8 (dr dg db : Int)
  | diff16 (dr dg db : Int)
  | diff24 (dr dg db da : Int)
  | color (r g b a : Option Byte)
  | run (length : Nat)
deriving DecidableEq, Repr

/-- The instruction of a line, or none where an operand is out of the range rule R100 gives it. -/
def AsmLine.instr : AsmLine → Option Instr
  | .index i => if i < Config.cacheEntries then some (.index (BitVec.ofNat 6 i)) else none
  | .run8 l => if 1 ≤ l ∧ l ≤ Config.run8Max then some (.run8 (BitVec.ofNat 5 (l - 1))) else none
  | .run16 l =>
    if Config.run16Min ≤ l ∧ l ≤ Config.runMax then some (.run16 (BitVec.ofNat 13 (l - Config.run16Min))) else none
  | .diff8 dr dg db => if (Delta.mk dr dg db 0).fits8 then some (emitDiff8 ⟨dr, dg, db, 0⟩) else none
  | .diff16 dr dg db => if (Delta.mk dr dg db 0).fits16 then some (emitDiff16 ⟨dr, dg, db, 0⟩) else none
  | .diff24 dr dg db da => if (Delta.mk dr dg db da).fits24 then some (emitDiff24 ⟨dr, dg, db, da⟩) else none
  | .color r g b a => some (.color r.isSome g.isSome b.isSome a.isSome (r.toList ++ g.toList ++ b.toList ++ a.toList))
  | .run l => runInstr l

/-- One written channel of a COLOR line. -/
def channelText (name : String) (v : Option Byte) : List String :=
  match v with
  | none => []
  | some x => [name ++ "=" ++ toString x.toNat]

/-- A line as rule R100 writes it, numbers in decimal. -/
def AsmLine.text : AsmLine → String
  | .index i => "INDEX " ++ toString i
  | .run8 l => "RUN_8 " ++ toString l
  | .run16 l => "RUN_16 " ++ toString l
  | .diff8 dr dg db => "DIFF_8 " ++ ", ".intercalate [toString dr, toString dg, toString db]
  | .diff16 dr dg db => "DIFF_16 " ++ ", ".intercalate [toString dr, toString dg, toString db]
  | .diff24 dr dg db da => "DIFF_24 " ++ ", ".intercalate [toString dr, toString dg, toString db, toString da]
  | .color r g b a =>
    let parts := channelText "r" r ++ channelText "g" g ++ channelText "b" b ++ channelText "a" a
    if parts.isEmpty then "COLOR" else "COLOR " ++ ", ".intercalate parts
  | .run l => "RUN " ++ toString l

end Sys2Proof.Machine
end

