-- ==== Sys2Proof/Machine/Container.lean ====
section
/-!
DEFINITION. The descriptor codec's contract and the two compositions over it (40_descriptor_interface.md). They are outside the
block (rule R5): no step of the machine runs them.
-/

namespace Sys2Proof.Machine

/-- The magic "qoif" (rule R120). -/
def magic : List Byte := [0x71, 0x6F, 0x69, 0x66]

/-- A 32-bit field, most significant byte first (rule R56). -/
def bigEndian (v : BitVec 32) : List Byte :=
  [v.extractLsb' 24 8, v.extractLsb' 16 8, v.extractLsb' 8 8, v.extractLsb' 0 8]

/-- The descriptor's four fields. -/
structure Descriptor where
  width : BitVec 32
  height : BitVec 32
  channels : Byte
  colorspace : Byte
deriving DecidableEq, Repr

/-- `writeHeader` (rule R120): 14 bytes. -/
def writeHeader (d : Descriptor) : List Byte :=
  magic ++ bigEndian d.width ++ bigEndian d.height ++ [d.channels, d.colorspace]

/-- `readHeader` (rules R121, R122): too short, then bad magic, then bad channel byte. It gives the fields and the bytes after the
header. -/
def readHeader (bytes : List Byte) : Except ErrCode (Descriptor × List Byte) :=
  let hdr := fun i => bytes.getD i 0
  if bytes.length < Config.headerBytes then .error .stream
  else if bytes.take 4 ≠ magic then .error .format
  else if hdr 12 ≠ 3 ∧ hdr 12 ≠ 4 then .error .channel
  else .ok (⟨hdr 4 ++ hdr 5 ++ hdr 6 ++ hdr 7, hdr 8 ++ hdr 9 ++ hdr 10 ++ hdr 11, hdr 12, hdr 13⟩,
    bytes.drop Config.headerBytes)

/-- `decodeHeader` (rule R123): readHeader without the channel and colorspace results. -/
def decodeHeader (bytes : List Byte) : Except ErrCode (BitVec 32 × BitVec 32) :=
  match readHeader bytes with
  | .error e => .error e
  | .ok (d, _) => .ok (d.width, d.height)

/-- How a composition ends: without error, with an error kind and the info the block returned (none for a header error), or because
the block took no step (a fault or a refusal of the model). -/
inductive Ending where
  | complete
  | failed (kind : ErrCode) (info : Option ErrInfo)
  | stopped
deriving DecidableEq, Repr

/-- `n` Pulls of decodeImage (rule R125): the pixels returned up to the first that returns no pixel, and how it ended. -/
def pullPixels : Nat → State → List Pixel × Ending
  | 0, _ => ([], .complete)
  | n + 1, s =>
    match pull s with
    | .next t =>
      match t.results.getLast? with
      | some (.pixel p) => let (ps, e) := pullPixels n t; (p :: ps, e)
      | some (.error kind info) => ([], .failed kind info)
      | _ => ([], .stopped)
    | _ => ([], .stopped)

/-- `decodeImage` (rule R125) on a container, with the block in state `s`, the input failure IN_FAIL being a position of the opcode
stream: the pixels in row-major order (rule R19). A header error starts no pass. -/
def decodeImage (container : List Byte) (inFail : Option Nat) (s : State) : List Pixel × Ending :=
  match readHeader container with
  | .error kind => ([], .failed kind none)
  | .ok (d, rest) =>
    let t := startOp .decode d.width d.height d.channels d.colorspace ⟨rest, inFail, none⟩ s
    pullPixels t.total.toNat t

/-- ENC_CHANNELS (rules R9, R126): 3 or 4, "so that readHeader accepts the stream". -/
inductive EncChannels where
  | three | four
deriving DecidableEq, Repr

/-- The channel byte that encodeImage writes into the header and passes to Start. -/
def EncChannels.byte : EncChannels → Byte
  | .three => 3
  | .four => 4

/-- The pixel buffer of encodeImage (rule R126): the image's two sizes, and the pixel at each (x, y). -/
structure PixelBuffer where
  width : BitVec 32
  height : BitVec 32
  pixelAt : Nat → Nat → Pixel

/-- "for y in 0..h-1, for x in 0..w-1: pixel at (x, y)" (rules R19, R126). -/
def PixelBuffer.rowMajor (b : PixelBuffer) : List Pixel :=
  (List.range b.height.toNat).flatMap fun y => (List.range b.width.toNat).map fun x => b.pixelAt x y

/-- The descriptor encodeImage writes and passes to Start: the buffer's sizes, ENC_CHANNELS and ENC_COLORSPACE. -/
def PixelBuffer.descriptor (b : PixelBuffer) (channels : EncChannels) (colorspace : Byte) : Descriptor :=
  ⟨b.width, b.height, channels.byte, colorspace⟩

/-- How a Push or a Finish issued in `before` was answered: the state it left and, by the result it handed back, how it ended. -/
def answered (before : State) (o : Host.Outcome State Fault Refusal) : State × Ending :=
  match o with
  | .next t =>
    match t.results.getLast? with
    | some .ok => (t, .complete)
    | some (.error kind info) => (t, .failed kind info)
    | _ => (t, .stopped)
  | _ => (before, .stopped)

/-- The Pushes of encodeImage (rule R126), one per pixel; "any Error ends the pass". -/
def pushPixels : List Pixel → State → State × Ending
  | [], s => (s, .complete)
  | p :: ps, s =>
    match answered s (push p s) with
    | (t, .complete) => pushPixels ps t
    | (t, ending) => (t, ending)

/-- The encode pass of encodeImage (rule R126): Start, the Pushes and Finish, up to the first Error. -/
def encodePass (d : Descriptor) (pixels : List Pixel) (outFail : Option Nat) (s : State) : State × Ending :=
  match pushPixels pixels (startOp .encode d.width d.height d.channels d.colorspace ⟨[], none, outFail⟩ s) with
  | (t, .complete) => answered t (finish t)
  | (t, ending) => (t, ending)

/-- `encodeImage` (rule R126): what its byte stream has received when it returns, and how it ended. The header comes first, then what
the block delivered to its sink, which stays there on an Error too (rule R306), then, after a successful Finish only, the padding (rule
R128). OUT_FAIL is a position of the opcode stream: log entry 19. -/
def encodeImage (channels : EncChannels) (colorspace : Byte) (buffer : PixelBuffer) (outFail : Option Nat) (s : State) :
    List Byte × Ending :=
  let d := buffer.descriptor channels colorspace
  match encodePass d buffer.rowMajor outFail s with
  | (t, .complete) => (writeHeader d ++ t.sink ++ List.replicate Config.paddingBytes 0, .complete)
  | (t, ending) => (writeHeader d ++ t.sink, ending)

end Sys2Proof.Machine
end

