-- ==== Sys2Proof/Machine/Registers.lean ====
section
/-!
DEFINITION. What a wrapper can read of the control and status state (rules R20, R28, R34, R344): the registers by name, and the open
parameter REG_MAP of rule R9, a wrapper's choice of bus addresses. The cache is not among them (rule R149).
-/

namespace Sys2Proof.Machine

/-- The registers a wrapper may give an address: those of rule R20 but for the cache, which the host cannot read (R149), and OUT,
which is a stream. -/
inductive RegName where
  | mode | status | err | width | height | channels | colorspace | total | count | px | run | ipos | opos | sent
deriving DecidableEq, Repr

/-- A register's value as a number: the codes of rule R20, PX packed as in rule R28. -/
def State.readReg (r : RegName) (s : State) : Nat :=
  match r with
  | .mode => s.mode.code.toNat
  | .status => s.status.code.toNat
  | .err => s.err.code.toNat
  | .width => s.width.toNat
  | .height => s.height.toNat
  | .channels => s.channels.toNat
  | .colorspace => s.colorspace.toNat
  | .total => s.total.toNat
  | .count => s.count.toNat
  | .px => s.px.pack.toNat
  | .run => s.run.toNat
  | .ipos => s.ipos
  | .opos => s.opos
  | .sent => s.sent

/-- A wrapper's REG_MAP (rule R9): which register each bus address names. -/
abbrev RegMap := List (Nat × RegName)

/-- What a wrapper reads at a bus address, or none where its map has no register. Log entry 20. -/
def State.readAddress (regMap : RegMap) (address : Nat) (s : State) : Option Nat :=
  (regMap.lookup address).map fun r => s.readReg r

end Sys2Proof.Machine
end

