-- ==== Sys2Proof/Safety.lean ====
section
/-!
DEFINITION. What holds of the block between any two operations: the invariant of its registers, each clause under its own name.
-/

namespace Sys2Proof.Machine

/-- ERR is NONE whenever STATUS is not ERROR (rule R24), and holds StreamError in ERROR, the only error the block raises (R331). -/
def State.ErrMatchesStatus (s : State) : Prop :=
  (s.status ≠ .error → s.err = .noError) ∧ (s.status = .error → s.err = .stream)

/-- TOTAL is the exact product of WIDTH and HEIGHT (rule R25). -/
def State.TotalIsProduct (s : State) : Prop := s.total.toNat = s.width.toNat * s.height.toNat

/-- Every entry is all zero, or stands at its own hash (rule R38). -/
def State.CacheHashed (s : State) : Prop := ∀ i : BitVec 6, s.lookup i = Config.cacheInit ∨ (s.lookup i).hash = i

/-- RUN is in 0..8223 between operations, in both modes (rule R30). -/
def State.RunBounded (s : State) : Prop := s.run.toNat ≤ 8223

/-- In DECODE, COUNT is at most TOTAL, and the pass is DONE exactly when they are equal (rule R26). -/
def State.CountBounded (s : State) : Prop :=
  s.mode = .decode →
    (s.status = .active → s.count.toNat < s.total.toNat) ∧ (s.status = .done → s.count = s.total) ∧
    (s.status = .error → s.count.toNat < s.total.toNat)

/-- Outside ERROR, OPOS is the length of OUT, SENT is at most OPOS, the buffer holds at most OBUF_BYTES bytes, and the sink holds the
first SENT bytes of OUT (rules R32, R306; that a pass begins with an empty sink is log entry 5). In IDLE the sink is an abandoned
pass's. -/
def State.OutputConsistent (s : State) : Prop :=
  s.status ≠ .error →
    s.opos = s.out.length ∧ s.sent ≤ s.opos ∧ s.opos - s.sent ≤ s.obufBytes ∧ (s.status ≠ .idle → s.sink = s.out.take s.sent)

/-- Outside ERROR, and outside IDLE where no pass is bound, IPOS is within IN (rules R31, R33). -/
def State.InputConsistent (s : State) : Prop :=
  s.status ≠ .error → s.status ≠ .idle → s.ipos ≤ s.input.length

/-- A finished encode pass has no pending run, and its sink holds exactly OUT (rules R280, R307). -/
def State.FinishedDelivered (s : State) : Prop :=
  s.mode = .encode → s.status = .done → s.run = 0 ∧ s.sink = s.out

/-- In IDLE the registers stand at their reset values (rule R370). -/
def State.IdleAsReset (s : State) : Prop := s.status = .idle → resetOp s = s

/-- The invariant of the block. -/
structure State.Inv (s : State) : Prop where
  errMatchesStatus : s.ErrMatchesStatus
  totalIsProduct : s.TotalIsProduct
  cacheHashed : s.CacheHashed
  runBounded : s.RunBounded
  countBounded : s.CountBounded
  outputConsistent : s.OutputConsistent
  inputConsistent : s.InputConsistent
  finishedDelivered : s.FinishedDelivered
  idleAsReset : s.IdleAsReset

/-- `i` stands in IN at IPOS, and the byte source fails at none of its bytes (rule R301): a Dispatch reads it whole. -/
def State.OpcodeAt (s : State) (i : Instr) : Prop :=
  encode i <+: s.input.drop s.ipos ∧ ∀ k, s.inFail = some k → ¬(s.ipos ≤ k ∧ k < s.ipos + (encode i).length)

/-- The next Pull dispatches `i`: an active decode pass with no run pending and `i` at IPOS (rule R160). -/
def State.ReadyFor (s : State) (i : Instr) : Prop :=
  s.mode = .decode ∧ s.status = .active ∧ s.run = 0 ∧ s.OpcodeAt i

/-- An active pass of the given mode. -/
def State.ActiveIn (s : State) (mode : Mode) : Prop := s.mode = mode ∧ s.status = .active

/-- The host's script of an encode pass over `pixels` (rule R375). -/
def encodeScript (w h : BitVec 32) (ch cs : Byte) (io : PassIO) (pixels : List Pixel) : List HostOp :=
  .start .encode w h ch cs io :: (pixels.map HostOp.push ++ [.finish])

/-- The host's script of a decode pass up to its last pixel (rule R374). -/
def decodeScript (w h : BitVec 32) (ch cs : Byte) (io : PassIO) : List HostOp :=
  .start .decode w h ch cs io :: List.replicate (w.toNat * h.toNat) .pull

/-- The edges STATUS may move along (rule R23); `op` is the operation that takes the edge. -/
def statusEdge (op : HostOp) (before after : Status) : Prop :=
  match op with
  | .reset => after = .idle
  | .start mode w h _ _ _ =>
    if mode = .decode ∧ w.toNat * h.toNat = 0 then after = .done else after = .active
  | .pull => after = before ∨ (before = .active ∧ (after = .done ∨ after = .error))
  | .push _ => after = before ∨ (before = .active ∧ after = .error)
  | .finish => after = before ∨ (before = .active ∧ (after = .done ∨ after = .error))

end Sys2Proof.Machine
end

