-- ==== Sys2Proof/Certificates/Slice0/Obligations.lean ====
section
/-!
DEFINITION. The statements about the block, for the provers. Each docstring names the rule of spec/ it formalises.
-/

open Sys2Proof Sys2Proof.Machine

/-! ## Encoding -/

/-- Rule R81: a tag byte's class is given by its masked leading bits. -/
def Obligations.TagBytesClassifyByMask : Prop :=
  ∀ t : Byte,
    (classify t = .index ↔ t &&& 0xC0 = 0x00) ∧ (classify t = .run8 ↔ t &&& 0xE0 = 0x40) ∧
    (classify t = .run16 ↔ t &&& 0xE0 = 0x60) ∧ (classify t = .diff8 ↔ t &&& 0xC0 = 0x80) ∧
    (classify t = .diff16 ↔ t &&& 0xE0 = 0xC0) ∧ (classify t = .diff24 ↔ t &&& 0xF0 = 0xE0) ∧
    (classify t = .color ↔ t &&& 0xF0 = 0xF0)

/-- Rule R91: the tag alone gives the opcode and its length, and no operand byte affects either. -/
def Obligations.TagAloneGivesOpcodeAndLength : Prop :=
  (∀ t : Byte, tagLength t =
    match classify t with
    | .index | .run8 | .diff8 => 1
    | .run16 | .diff16 => 2
    | .diff24 => 3
    | .color => 1 + (t[3].toNat + t[2].toNat + t[1].toNat + t[0].toNat)) ∧
  (∀ t : Byte, 1 ≤ tagLength t ∧ tagLength t ≤ 5) ∧
  (∀ t bytes i rest, decode (t :: bytes) = .ok (i, rest) →
    i.opcode = classify t ∧ (t :: bytes).length = tagLength t + rest.length)

/-- Rule R94: every tag with any operand bytes decodes, every decoded instruction executes, and the only error a Pull raises is
StreamError. -/
def Obligations.EveryEncodingIsLegal : Prop :=
  (∀ (t : Byte) (bytes : List Byte), tagLength t ≤ (t :: bytes).length →
    ∃ i rest, decode (t :: bytes) = .ok (i, rest) ∧ ∀ s : State, ∃ u, exec i s = .next u) ∧
  (∀ s t : State, pull s = .next t → s.status = .active → t.status = .error →
    t.err = .stream ∧ ∃ info, s.dispatch = .error info)

/-- Rules R82 to R88: no bit of an encoding is dropped. Decoding an encoded well-formed instruction gives it back, with the bytes
after it. -/
def Obligations.DecodeInvertsEncode : Prop :=
  ∀ (i : Instr) (rest : List Byte), i.wf = true → decode (encode i ++ rest) = .ok (i, rest)

/-- Rules R82 to R88 and R93: each byte string has one meaning. What decodes is well formed, and encodes to the bytes it was read
from. -/
def Obligations.EncodeInvertsDecode : Prop :=
  ∀ (bytes rest : List Byte) (i : Instr), decode bytes = .ok (i, rest) → i.wf = true ∧ encode i ++ rest = bytes

/-- Words written out from the patterns of rules R82 to R88 decode to the instructions they stand for. That a word's first byte is its
lowest is the model's own layout of a table word (log entry 17). -/
def Obligations.SpecWordsDecode : Prop :=
  decodeTableWord 8 0b00110101 = some (.index 53) ∧
  decodeTableWord 8 0b01000001 = some (.run8 1) ∧
  decodeTableWord 16 0b00000001_01100010 = some (.run16 0b00010_00000001) ∧
  decodeTableWord 8 0b10_11_01_10 = some (.diff8 3 1 2) ∧
  decodeTableWord 16 0b1101_1110_110_10101 = some (.diff16 21 13 14) ∧
  decodeTableWord 24 0b010_10000_0_11010_11_1110_1101 = some (.diff24 26 26 26 16) ∧
  decodeTableWord 24 0b00000111_00001001_1111_0101 = some (.color false true false true [9, 7])

/-- Rules R100 and R101: the words of the assembly syntax, by the spec's arithmetic formulas, and the operand ranges. -/
def Obligations.AssemblyEncodesByFormula : Prop :=
  (∀ i, i ≤ 63 → ∃ x, (AsmLine.index i).instr = some x ∧ encode x = [BitVec.ofNat 8 i]) ∧
  (∀ l, 1 ≤ l → l ≤ 32 → ∃ x, (AsmLine.run8 l).instr = some x ∧ encode x = [BitVec.ofNat 8 (0x40 + (l - 1))]) ∧
  (∀ l, 33 ≤ l → l ≤ 8224 → ∃ x, (AsmLine.run16 l).instr = some x ∧
    encode x = [BitVec.ofNat 8 (0x60 + (l - 33) / 256), BitVec.ofNat 8 ((l - 33) % 256)]) ∧
  (∀ dr dg db : Int, -2 ≤ dr → dr ≤ 1 → -2 ≤ dg → dg ≤ 1 → -2 ≤ db → db ≤ 1 →
    ∃ x, (AsmLine.diff8 dr dg db).instr = some x ∧
      encode x = [BitVec.ofInt 8 (0x80 + (dr + 2) * 16 + (dg + 2) * 4 + (db + 2))]) ∧
  (∀ dr dg db : Int, -16 ≤ dr → dr ≤ 15 → -8 ≤ dg → dg ≤ 7 → -8 ≤ db → db ≤ 7 →
    ∃ x, (AsmLine.diff16 dr dg db).instr = some x ∧
      encode x = [BitVec.ofInt 8 (0xC0 + (dr + 16)), BitVec.ofInt 8 ((dg + 8) * 16 + (db + 8))]) ∧
  (∀ dr dg db da : Int, -16 ≤ dr → dr ≤ 15 → -16 ≤ dg → dg ≤ 15 → -16 ≤ db → db ≤ 15 → -16 ≤ da → da ≤ 15 →
    ∃ x, (AsmLine.diff24 dr dg db da).instr = some x ∧
      let P := (dr + 16) * 2 ^ 15 + (dg + 16) * 2 ^ 10 + (db + 16) * 2 ^ 5 + (da + 16)
      encode x = [BitVec.ofInt 8 (0xE0 + P / 2 ^ 16), BitVec.ofInt 8 (P / 2 ^ 8 % 256), BitVec.ofInt 8 (P % 256)]) ∧
  (∀ r g b a : Option Byte, ∃ x, (AsmLine.color r g b a).instr = some x ∧
    encode x = BitVec.ofNat 8 (0xF0 + r.isSome.toNat * 8 + g.isSome.toNat * 4 + b.isSome.toNat * 2 + a.isSome.toNat) ::
      (r.toList ++ g.toList ++ b.toList ++ a.toList)) ∧
  (∀ l, 1 ≤ l → l ≤ 8224 → (AsmLine.run l).instr = if l ≤ 32 then (AsmLine.run8 l).instr else (AsmLine.run16 l).instr) ∧
  (∀ i, 63 < i → (AsmLine.index i).instr = none) ∧
  (∀ l, (l = 0 ∨ 32 < l) → (AsmLine.run8 l).instr = none) ∧
  (∀ l, (l < 33 ∨ 8224 < l) → (AsmLine.run16 l).instr = none) ∧
  (∀ l, (l = 0 ∨ 8224 < l) → (AsmLine.run l).instr = none)

/-! ## The arithmetic of a pixel -/

/-- Rule R16: the hash is the exclusive or of the channels modulo 64, which is that exclusive or's low six bits. -/
def Obligations.HashIsXorMod64 : Prop :=
  ∀ p : Pixel, p.hash.toNat = (p.r ^^^ p.g ^^^ p.b ^^^ p.a).toNat % 64 ∧
    ∀ k, p.hash.getLsbD k = (decide (k < 6) && (p.r ^^^ p.g ^^^ p.b ^^^ p.a).getLsbD k)

/-- Rule R28: r in bits 31:24, g in 23:16, b in 15:8, a in 7:0, and no pixel is lost in packing. -/
def Obligations.PixelPacking : Prop :=
  (∀ p : Pixel, p.pack.toNat = p.r.toNat * 2 ^ 24 + p.g.toNat * 2 ^ 16 + p.b.toNat * 2 ^ 8 + p.a.toNat) ∧
  (∀ p : Pixel, Pixel.unpack p.pack = p)

/-- Rule R210: four independent lanes modulo 256, no clamping. -/
def Obligations.DeltaAdderLanes : Prop :=
  ∀ (q : Pixel) (d : Delta),
    ((addDelta q d).r.toNat : Int) = (q.r.toNat + d.dr) % 256 ∧ ((addDelta q d).g.toNat : Int) = (q.g.toNat + d.dg) % 256 ∧
    ((addDelta q d).b.toNat : Int) = (q.b.toNat + d.db) % 256 ∧ ((addDelta q d).a.toNat : Int) = (q.a.toNat + d.da) % 256

/-- Rules R221 and R223: the encoder's deltas are plain differences, each in -255..255, and adding the delta from `q` to `p` to `q`
gives `p`. -/
def Obligations.DeltaRoundTrip : Prop :=
  ∀ p q : Pixel,
    pixelDelta p q = ⟨(p.r.toNat : Int) - q.r.toNat, (p.g.toNat : Int) - q.g.toNat, (p.b.toNat : Int) - q.b.toNat,
      (p.a.toNat : Int) - q.a.toNat⟩ ∧
    (∀ v ∈ [(pixelDelta p q).dr, (pixelDelta p q).dg, (pixelDelta p q).db, (pixelDelta p q).da], -255 ≤ v ∧ v ≤ 255) ∧
    addDelta q (pixelDelta p q) = p

/-- Rule R222: the three ranges, both ends included, and that each form's range lies in the next one's. -/
def Obligations.RangeComparatorsNest : Prop :=
  ∀ d : Delta,
    (d.fits8 = true ↔ d.da = 0 ∧ ∀ v ∈ [d.dr, d.dg, d.db], -2 ≤ v ∧ v ≤ 1) ∧
    (d.fits16 = true ↔ d.da = 0 ∧ (-16 ≤ d.dr ∧ d.dr ≤ 15) ∧ ∀ v ∈ [d.dg, d.db], -8 ≤ v ∧ v ≤ 7) ∧
    (d.fits24 = true ↔ ∀ v ∈ [d.dr, d.dg, d.db, d.da], -16 ≤ v ∧ v ≤ 15) ∧
    (d.fits8 = true → d.fits16 = true) ∧ (d.fits16 = true → d.fits24 = true)

/-! ## The seven instructions: result, frame and completion -/

/-- Rules R190 and R191: INDEX answers next in every state, with PX the cache entry and every other field as it was, the cache among
them; the encoding is `00iiiiii`. -/
def Obligations.IndexLoadsCacheEntry : Prop :=
  ∀ idx : BitVec 6,
    (∀ rest, decode (BitVec.ofNat 8 idx.toNat :: rest) = .ok (.index idx, rest)) ∧
    ∀ s : State, exec (.index idx) s = .next { s with px := s.cache[idx.toNat]'idx.isLt }

/-- Rule R194: RUN_8 answers next in every state, with RUN the field (the length less 1) and every other field as it was, PX and the
cache among them; the encoding is `010nnnnn`. The opcode yields field + 1 pixels, all PX, reading its one byte only, when that many are
still to come; fewer when TOTAL is reached first. -/
def Obligations.Run8RepeatsPixel : Prop :=
  ∀ n : BitVec 5,
    (∀ rest, decode (BitVec.ofNat 8 (0x40 + n.toNat) :: rest) = .ok (.run8 n, rest)) ∧
    (∀ s : State, ∃ t, exec (.run8 n) s = .next t ∧ t.run.toNat = n.toNat ∧ t = { s with run := t.run }) ∧
    (∀ (s : State) (k : Nat), s.ReadyFor (.run8 n) → 1 ≤ k → k ≤ n.toNat + 1 → s.count.toNat + k ≤ s.total.toNat →
      s.ops = List.replicate k .pull →
      ∃ t, Host.Core.run core k s = .next t ∧ t.results = s.results ++ List.replicate k (.pixel s.px) ∧
        t.run.toNat = n.toNat + 1 - k ∧ t.ipos = s.ipos + 1 ∧ t.px = s.px ∧ t.cache = s.cache ∧
        t.count.toNat = s.count.toNat + k ∧ (t.status = .done ↔ s.count.toNat + k = s.total.toNat))

/-- Rule R197: RUN_16 answers next in every state, with RUN the field plus 32 (the length less 1) and every other field as it was, PX
and the cache among them; the encoding is `011nnnnn nnnnnnnn`. The opcode yields field + 33 pixels, all PX, reading its two bytes only,
when that many are still to come; fewer when TOTAL is reached first. -/
def Obligations.Run16RepeatsPixel : Prop :=
  ∀ n : BitVec 13,
    (∀ rest, decode (BitVec.ofNat 8 (0x60 + n.toNat / 256) :: BitVec.ofNat 8 (n.toNat % 256) :: rest) = .ok (.run16 n, rest)) ∧
    (∀ s : State, ∃ t, exec (.run16 n) s = .next t ∧ t.run.toNat = n.toNat + 32 ∧ t = { s with run := t.run }) ∧
    (∀ (s : State) (k : Nat), s.ReadyFor (.run16 n) → 1 ≤ k → k ≤ n.toNat + 33 → s.count.toNat + k ≤ s.total.toNat →
      s.ops = List.replicate k .pull →
      ∃ t, Host.Core.run core k s = .next t ∧ t.results = s.results ++ List.replicate k (.pixel s.px) ∧
        t.run.toNat = n.toNat + 33 - k ∧ t.ipos = s.ipos + 2 ∧ t.px = s.px ∧ t.cache = s.cache ∧
        t.count.toNat = s.count.toNat + k ∧ (t.status = .done ↔ s.count.toNat + k = s.total.toNat))

/-- Rule R212: DIFF_8 answers next in every state. R, G and B move by field - 2 modulo 256, alpha stays, the new pixel is stored at its
hash, and nothing else changes: RUN, the other cache entries and every other field are as they were. -/
def Obligations.Diff8AddsAndStores : Prop :=
  ∀ (fr fg fb : BitVec 2),
    (∀ rest, decode (BitVec.ofNat 8 (0x80 + fr.toNat * 16 + fg.toNat * 4 + fb.toNat) :: rest) = .ok (.diff8 fr fg fb, rest)) ∧
    ∀ s : State, ∃ t, exec (.diff8 fr fg fb) s = .next t ∧
      (t.px.r.toNat : Int) = (s.px.r.toNat + (fr.toNat - 2) : Int) % 256 ∧
      (t.px.g.toNat : Int) = (s.px.g.toNat + (fg.toNat - 2) : Int) % 256 ∧
      (t.px.b.toNat : Int) = (s.px.b.toNat + (fb.toNat - 2) : Int) % 256 ∧
      t.px.a = s.px.a ∧
      (∀ j, t.lookup j = if j = t.px.hash then t.px else s.lookup j) ∧
      t = { s with px := t.px, cache := t.cache }

/-- Rule R215: DIFF_16 answers next in every state. R moves by field - 16, G and B by field - 8, modulo 256, alpha stays, the new pixel
is stored at its hash, and nothing else changes. -/
def Obligations.Diff16AddsAndStores : Prop :=
  ∀ (fr : BitVec 5) (fg fb : BitVec 4),
    (∀ rest, decode (BitVec.ofNat 8 (0xC0 + fr.toNat) :: BitVec.ofNat 8 (fg.toNat * 16 + fb.toNat) :: rest) =
      .ok (.diff16 fr fg fb, rest)) ∧
    ∀ s : State, ∃ t, exec (.diff16 fr fg fb) s = .next t ∧
      (t.px.r.toNat : Int) = (s.px.r.toNat + (fr.toNat - 16) : Int) % 256 ∧
      (t.px.g.toNat : Int) = (s.px.g.toNat + (fg.toNat - 8) : Int) % 256 ∧
      (t.px.b.toNat : Int) = (s.px.b.toNat + (fb.toNat - 8) : Int) % 256 ∧
      t.px.a = s.px.a ∧
      (∀ j, t.lookup j = if j = t.px.hash then t.px else s.lookup j) ∧
      t = { s with px := t.px, cache := t.cache }

/-- Rule R218: DIFF_24 answers next in every state. All four channels move by field - 16 modulo 256, the new pixel is stored at its
hash, and nothing else changes. -/
def Obligations.Diff24AddsAndStores : Prop :=
  ∀ (fr fg fb fa : BitVec 5),
    (∀ rest,
      let P := fr.toNat * 2 ^ 15 + fg.toNat * 2 ^ 10 + fb.toNat * 2 ^ 5 + fa.toNat
      decode (BitVec.ofNat 8 (0xE0 + P / 2 ^ 16) :: BitVec.ofNat 8 (P / 2 ^ 8 % 256) :: BitVec.ofNat 8 (P % 256) :: rest) =
        .ok (.diff24 fr fg fb fa, rest)) ∧
    ∀ s : State, ∃ t, exec (.diff24 fr fg fb fa) s = .next t ∧
      (t.px.r.toNat : Int) = (s.px.r.toNat + (fr.toNat - 16) : Int) % 256 ∧
      (t.px.g.toNat : Int) = (s.px.g.toNat + (fg.toNat - 16) : Int) % 256 ∧
      (t.px.b.toNat : Int) = (s.px.b.toNat + (fb.toNat - 16) : Int) % 256 ∧
      (t.px.a.toNat : Int) = (s.px.a.toNat + (fa.toNat - 16) : Int) % 256 ∧
      (∀ j, t.lookup j = if j = t.px.hash then t.px else s.lookup j) ∧
      t = { s with px := t.px, cache := t.cache }

/-- Rules R240 and R241: COLOR with one literal per set flag answers next in every state. Each flagged channel takes the literal of its
place among the set flags, the others stay, the new pixel is stored at its hash, and nothing else changes; the encoding is `1111RGBA`
and the literals. -/
def Obligations.ColorReplacesFlaggedChannels : Prop :=
  ∀ (fR fG fB fA : Bool) (lits : List Byte), lits.length = fR.toNat + fG.toNat + fB.toNat + fA.toNat →
    (∀ rest, decode (BitVec.ofNat 8 (0xF0 + fR.toNat * 8 + fG.toNat * 4 + fB.toNat * 2 + fA.toNat) :: (lits ++ rest)) =
      .ok (.color fR fG fB fA lits, rest)) ∧
    ∀ s : State, ∃ t, exec (.color fR fG fB fA lits) s = .next t ∧
      some t.px.r = (if fR then lits[0]? else some s.px.r) ∧
      some t.px.g = (if fG then lits[fR.toNat]? else some s.px.g) ∧
      some t.px.b = (if fB then lits[fR.toNat + fG.toNat]? else some s.px.b) ∧
      some t.px.a = (if fA then lits[fR.toNat + fG.toNat + fB.toNat]? else some s.px.a) ∧
      (∀ j, t.lookup j = if j = t.px.hash then t.px else s.lookup j) ∧
      t = { s with px := t.px, cache := t.cache }

/-- The model's own refusal (log entry 11): a COLOR term without one literal per set flag is no instruction of rule R92, nothing decodes
to it, and `exec` refuses it by name. -/
def Obligations.IllFormedColorIsRefused : Prop :=
  ∀ (fR fG fB fA : Bool) (lits : List Byte), lits.length ≠ fR.toNat + fG.toNat + fB.toNat + fA.toNat →
    (∀ s : State, exec (.color fR fG fB fA lits) s = .refused .illFormedColor) ∧
    ∀ bytes rest, decode bytes ≠ .ok (.color fR fG fB fA lits, rest)

/-- Rule R143: in DECODE the cache is written by DIFF_8, DIFF_16, DIFF_24 and COLOR alone, each storing the new PX at its hash, and by
neither INDEX, nor a run opcode, nor a run continuation. -/
def Obligations.DecoderCacheUpdatePolicy : Prop :=
  (∀ (i : Instr) (s t : State), exec i s = .next t →
    match i.opcode with
    | .index | .run8 | .run16 => t.cache = s.cache
    | .diff8 | .diff16 | .diff24 | .color => ∀ j, t.lookup j = if j = t.px.hash then t.px else s.lookup j) ∧
  (∀ s t : State, pull s = .next t → s.status = .active → s.run ≠ 0 → t.cache = s.cache)

/-! ## DECODE -/

/-- A step runs the decoded instruction: when the oldest pending operation is a Pull and the instruction `i` is next, the step is
`exec i` on the state with that operation taken from the queue and IPOS moved past the instruction's bytes, and then the end of a Pull
(rules R160, R163, R164). -/
def Obligations.StepRunsDecodedInstruction : Prop :=
  ∀ (i : Instr) (s : State) (rest : List HostOp), i.wf = true → s.ReadyFor i → s.ops = .pull :: rest →
    step s =
      match exec i { s with ops := rest, ipos := s.ipos + (encode i).length } with
      | .next t => .next t.completePull
      | .fault r => .fault r
      | .refused r => .refused r

/-- The end of a Pull (rules R160, R166): COUNT grows by one, the pass is DONE exactly when it reaches TOTAL, the pixel returned is PX,
and nothing else changes. -/
def Obligations.PullEndsByCountingAndReturning : Prop :=
  ∀ s : State, s.count.toNat < s.total.toNat →
    s.completePull =
      { s with count := s.count + 1,
               status := if s.count.toNat + 1 = s.total.toNat then .done else s.status,
               results := s.results ++ [.pixel s.px] }

/-- Rule R162: while RUN > 0 a Pull decrements RUN and returns PX unchanged; it reads no byte, and neither the cache nor IPOS changes. -/
def Obligations.RunContinuationRepeatsPixel : Prop :=
  ∀ (s : State) (rest : List HostOp), s.ActiveIn .decode → 0 < s.run.toNat → s.count.toNat < s.total.toNat →
    s.ops = .pull :: rest →
    ∃ t, step s = .next t ∧ t.run.toNat = s.run.toNat - 1 ∧ t.results = s.results ++ [.pixel s.px] ∧
      t.px = s.px ∧ t.cache = s.cache ∧ t.ipos = s.ipos ∧ t.count.toNat = s.count.toNat + 1 ∧
      t.status = (if s.count.toNat + 1 = s.total.toNat then .done else .active) ∧
      t = { s with run := t.run, count := t.count, status := t.status, results := t.results, ops := rest }

/-- Rule R167: the advance of IPOS for each kind of decode step, and that no other operation of a pass changes it. -/
def Obligations.IposAdvancesByOpcodeLength : Prop :=
  (∀ (i : Instr) (s t : State), i.wf = true → s.ReadyFor i → pull s = .next t →
    t.ipos = s.ipos +
      match i with
      | .index _ | .run8 _ | .diff8 _ _ _ => 1
      | .run16 _ | .diff16 _ _ _ => 2
      | .diff24 _ _ _ _ => 3
      | .color fR fG fB fA _ => 1 + (fR.toNat + fG.toNat + fB.toNat + fA.toNat)) ∧
  (∀ s t : State, s.ActiveIn .decode → s.run ≠ 0 → pull s = .next t → t.ipos = s.ipos) ∧
  (∀ (s t : State) (p : Pixel), push p s = .next t → t.status ≠ .error → t.ipos = s.ipos) ∧
  (∀ s t : State, finish s = .next t → t.status ≠ .error → t.ipos = s.ipos)

/-- Rules R165 and R333: a Pull that dispatches and cannot read its opcode whole raises StreamError with the cause and the position of
the first byte it cannot read, an input failure before end of stream, and keeps PX, RUN, CACHE and COUNT. -/
def Obligations.ShortReadRaisesStreamError : Prop :=
  ∀ (s : State) (k : Nat), s.ActiveIn .decode → s.run = 0 →
    (∀ j < k, s.inFail ≠ some (s.ipos + j) ∧ s.ipos + j < s.input.length) →
    (s.inFail = some (s.ipos + k) ∨ s.input.length ≤ s.ipos + k) →
    (k = 0 ∨ ∃ tag, s.input[s.ipos]? = some tag ∧ k < tagLength tag) →
    ∃ t, pull s = .next t ∧ t.status = .error ∧ t.err = .stream ∧
      t.results = s.results ++ [.error .stream (some
        ⟨if s.inFail = some (s.ipos + k) then .ioFailure else .endOfStream, s.ipos + k⟩)] ∧
      t.px = s.px ∧ t.run = s.run ∧ t.cache = s.cache ∧ t.count = s.count

/-- Rule R160: every Pull in an active pass answers next, and either returns exactly one pixel, its PX, or raises StreamError; it takes
no other way. -/
def Obligations.ActivePullYieldsPixelOrStreamError : Prop :=
  ∀ s : State, s.ActiveIn .decode →
    ∃ t, pull s = .next t ∧
      ((t.status ≠ .error ∧ t.results = s.results ++ [.pixel t.px]) ∨
       (t.status = .error ∧ t.err = .stream ∧ ∃ info, t.results = s.results ++ [.error .stream (some info)]))

/-- Rule R161: Pull outside an active decode pass. In IDLE and in ENCODE it has no step; in ERROR it returns ERR and changes nothing; in
DONE it returns End and changes nothing. That the refusal has the name pullHasNoStep (log entry 10) and that the sticky error carries no
info (log entry 21) are the model's. -/
def Obligations.PullOutsideAPass : Prop :=
  ∀ s : State,
    (s.status = .idle ∨ s.mode = .encode → pull s = .refused .pullHasNoStep) ∧
    (s.mode = .decode → s.status = .error → pull s = .next { s with results := s.results ++ [.error s.err none] }) ∧
    (s.mode = .decode → s.status = .done → pull s = .next { s with results := s.results ++ [.endOfPass] })

/-- Rules R166 and R302: a Pull that raises nothing depends on no byte of IN beyond the IPOS it ends at, and on no failure position
there. Replacing everything from that point on changes the answer nowhere else. -/
def Obligations.PullIgnoresUnreadInput : Prop :=
  ∀ (s t : State) (unread : List Byte) (fail : Option Nat), pull s = .next t → t.status ≠ .error →
    s.ipos ≤ s.input.length → (∀ k, fail = some k → t.ipos ≤ k) →
    pull { s with input := s.input.take t.ipos ++ unread, inFail := fail } =
      .next { t with input := s.input.take t.ipos ++ unread, inFail := fail }

/-- Rules R95 and R168: a padding byte read as an opcode is INDEX 0, and its Pull returns CACHE[0]. -/
def Obligations.PaddingByteReturnsEntryZero : Prop :=
  (∀ rest, decode (0x00 :: rest) = .ok (.index 0, rest)) ∧
  ∀ s : State, s.ReadyFor (.index 0) →
    ∃ t, pull s = .next t ∧ t.results = s.results ++ [.pixel (s.lookup 0)] ∧ t.ipos = s.ipos + 1 ∧ t.cache = s.cache

/-! ## ENCODE -/

/-- Rule R277: FlushRun emits RUN_8 up to 32 and RUN_16 up to 8224, by the spec's byte formulas, and clears RUN. -/
def Obligations.FlushRunEmitsRunOpcode : Prop :=
  ∀ s : State, 1 ≤ s.run.toNat → s.run.toNat ≤ 8224 →
    let bytes : List Byte :=
      if s.run.toNat ≤ 32 then [BitVec.ofNat 8 (0x40 + (s.run.toNat - 1))]
      else [BitVec.ofNat 8 (0x60 + (s.run.toNat - 33) / 256), BitVec.ofNat 8 ((s.run.toNat - 33) % 256)]
    s.flushRun = .ok { s with run := 0, out := s.out ++ bytes, opos := s.opos + bytes.length }

/-- Rules R267, R270, R272, R274 and R276: the first DIFF form that fits, or COLOR flagging exactly the channels that changed with their
new values, 2 to 5 bytes; each with the spec's bytes. A zero DIFF_8 (0xAA) is not emitted for a pixel that differs. -/
def Obligations.EncodeDeltaChoosesFirstForm : Prop :=
  ∀ prev p : Pixel,
    let d := pixelDelta p prev
    let bytes := encode (encodeDelta prev p)
    (d.fits8 = true → bytes = [BitVec.ofInt 8 (0x80 + (d.dr + 2) * 16 + (d.dg + 2) * 4 + (d.db + 2))]) ∧
    (d.fits8 = false → d.fits16 = true →
      bytes = [BitVec.ofInt 8 (0xC0 + (d.dr + 16)), BitVec.ofInt 8 ((d.dg + 8) * 16 + (d.db + 8))]) ∧
    (d.fits16 = false → d.fits24 = true →
      let P := (d.dr + 16) * 2 ^ 15 + (d.dg + 16) * 2 ^ 10 + (d.db + 16) * 2 ^ 5 + (d.da + 16)
      bytes = [BitVec.ofInt 8 (0xE0 + P / 2 ^ 16), BitVec.ofInt 8 (P / 2 ^ 8 % 256), BitVec.ofInt 8 (P % 256)]) ∧
    (d.fits24 = false →
      bytes =
        BitVec.ofNat 8 (0xF0 + (decide (p.r ≠ prev.r)).toNat * 8 + (decide (p.g ≠ prev.g)).toNat * 4 +
          (decide (p.b ≠ prev.b)).toNat * 2 + (decide (p.a ≠ prev.a)).toNat) ::
        ((if p.r ≠ prev.r then [p.r] else []) ++ (if p.g ≠ prev.g then [p.g] else []) ++
         (if p.b ≠ prev.b then [p.b] else []) ++ (if p.a ≠ prev.a then [p.a] else [])) ∧
      2 ≤ bytes.length ∧ bytes.length ≤ 5) ∧
    (p ≠ prev → bytes ≠ [0xAA])

/-- What the encoder chooses for a pixel decodes back to it: executing `EncodeDelta(prev, p)` on a state whose PX is `prev` gives PX = p
(rules R223, R267, R276). -/
def Obligations.EncodedDeltaDecodesToThePixel : Prop :=
  ∀ (prev p : Pixel) (s : State), s.px = prev →
    (encodeDelta prev p).wf = true ∧ ∃ t, exec (encodeDelta prev p) s = .next t ∧ t.px = p

/-- Rule R263: a pushed pixel equal to PX increments RUN, emits, looks up and stores nothing, and flushes `7F FF` when RUN reaches 8224. After
every Push, of whatever pixel, RUN is at most 8223. -/
def Obligations.RunPixelExtendsRun : Prop :=
  ∀ s : State, s.run.toNat ≤ 8223 →
    ∃ t, s.encodePixel s.px = .ok t ∧
      (s.run.toNat < 8223 → t.run.toNat = s.run.toNat + 1 ∧ t = { s with run := t.run }) ∧
      (s.run.toNat = 8223 → t = { s with run := 0, out := s.out ++ [0x7F, 0xFF], opos := s.opos + 2 }) ∧
      ∀ (draw : Nat) (p : Pixel) (u : State), pushWith draw p s = .next u → u.run.toNat ≤ 8223

/-- Rules R264, R265, R266 and R278: a pushed pixel that differs from PX flushes the pending run first, then is INDEX on a cache hit, with
no store, or is stored and emitted by EncodeDelta from the old PX; PX becomes the pixel, and nothing else changes. -/
def Obligations.DistinctPixelIsEncoded : Prop :=
  ∀ (s : State) (p : Pixel), p ≠ s.px → s.run.toNat ≤ 8224 →
    let flushed : List Byte :=
      if s.run = 0 then []
      else if s.run.toNat ≤ 32 then [BitVec.ofNat 8 (0x40 + (s.run.toNat - 1))]
      else [BitVec.ofNat 8 (0x60 + (s.run.toNat - 33) / 256), BitVec.ofNat 8 ((s.run.toNat - 33) % 256)]
    ∃ t, s.encodePixel p = .ok t ∧ t.px = p ∧ t.run = 0 ∧
      (s.lookup p.hash = p → t.out = s.out ++ flushed ++ [BitVec.ofNat 8 p.hash.toNat] ∧ t.cache = s.cache) ∧
      (s.lookup p.hash ≠ p → t.out = s.out ++ flushed ++ encode (encodeDelta s.px p) ∧
        ∀ j, t.lookup j = if j = p.hash then p else s.lookup j) ∧
      t = { s with px := p, run := 0, cache := t.cache, out := t.out, opos := s.opos + (t.out.length - s.out.length) }

/-- Rule R279: a Push emits 0 to 7 bytes, all of them appended to OUT. -/
def Obligations.PushEmitsAtMostSevenBytes : Prop :=
  ∀ (s t : State) (p : Pixel), s.encodePixel p = .ok t → ∃ bytes : List Byte, t.out = s.out ++ bytes ∧ bytes.length ≤ 7

/-- Rule R306: for every draw, Deliver either moves SENT within its bounds, the sink receiving those bytes in order, or fails at OUT_FAIL,
the sink receiving the bytes before it; and every SENT' within the bounds is some draw's. -/
def Obligations.DeliverObeysItsBounds : Prop :=
  ∀ s : State, s.sent ≤ s.opos →
    (∀ (draw : Nat) (t : State), s.deliver draw = .ok t →
      max s.sent (s.opos - s.obufBytes) ≤ t.sent ∧ t.sent ≤ s.opos ∧ t.opos - t.sent ≤ s.obufBytes ∧
      (∀ k, s.outFail = some k → ¬(s.sent ≤ k ∧ k < t.sent)) ∧
      t = { s with sent := t.sent, sink := s.sink ++ (s.out.drop s.sent).take (t.sent - s.sent) }) ∧
    (∀ (draw : Nat) (info : ErrInfo) (received : List Byte), s.deliver draw = .error (info, received) →
      ∃ k, s.outFail = some k ∧ s.sent ≤ k ∧ k < s.opos ∧ info = ⟨.ioFailure, k⟩ ∧
        received = (s.out.drop s.sent).take (k - s.sent)) ∧
    (∀ target, max s.sent (s.opos - s.obufBytes) ≤ target → target ≤ s.opos →
      (∀ k, s.outFail = some k → ¬(s.sent ≤ k ∧ k < target)) →
      ∃ (draw : Nat) (t : State), s.deliver draw = .ok t ∧ t.sent = target)

/-- Rule R260: a Push in an active encode pass, for every draw. Where the sink refuses none of the bytes this draw delivers it answers Ok:
the pixel is encoded, counted, and the buffer delivered within its bounds; no register but those of rule R35 changes. -/
def Obligations.PushCompletes : Prop :=
  ∀ (draw : Nat) (s : State) (p : Pixel), s.ActiveIn .encode → s.run.toNat ≤ 8223 → s.sent ≤ s.opos →
    ∃ u, s.encodePixel p = .ok u ∧
      ((∀ k, s.outFail = some k → ¬(s.sent ≤ k ∧ k < u.deliveryTarget draw)) →
        ∃ t, pushWith draw p s = .next t ∧
          t.px = u.px ∧ t.cache = u.cache ∧ t.run = u.run ∧ t.out = u.out ∧ t.opos = u.opos ∧ t.px = p ∧
          (s.count ≠ BitVec.allOnes 64 → t.count = s.count + 1) ∧
          t.results = s.results ++ [.ok] ∧ s.sent ≤ t.sent ∧ t.sent ≤ t.opos ∧ t.opos - t.sent ≤ s.obufBytes ∧
          t.sink = s.sink ++ (t.out.drop s.sent).take (t.sent - s.sent) ∧
          t = { s with px := t.px, cache := t.cache, run := t.run, count := t.count, out := t.out, opos := t.opos,
                       sent := t.sent, sink := t.sink, results := t.results, draws := t.draws })

/-- Rules R280 and R307: Finish in an active encode pass flushes the pending run; where the sink refuses none of the bytes still to deliver,
it delivers the buffer, the pass is DONE, and the sink holds exactly OUT. -/
def Obligations.FinishDeliversEverything : Prop :=
  ∀ s : State, s.ActiveIn .encode → s.run.toNat ≤ 8223 → s.opos = s.out.length → s.sent ≤ s.opos →
    s.sink = s.out.take s.sent →
    ∃ u, (if s.run = 0 then Except.ok s else s.flushRun) = .ok u ∧
      ((∀ k, s.outFail = some k → ¬(s.sent ≤ k ∧ k < u.opos)) →
        ∃ t, finish s = .next t ∧
          t.out = u.out ∧ t.sink = t.out ∧ t.sent = t.opos ∧ t.opos = t.out.length ∧ t.run = 0 ∧ t.status = .done ∧
          t.results = s.results ++ [.ok] ∧
          t = { s with run := 0, out := t.out, opos := t.opos, sent := t.sent, sink := t.sink, status := .done,
                       results := t.results })

/-- Rules R261 and R281: Push and Finish outside an active encode pass. In IDLE, DECODE and DONE they have no step; in ERROR they return ERR
and change nothing. The refusals' names (log entry 10) and the sticky error's want of info (log entry 21) are the model's. -/
def Obligations.PushAndFinishOutsideAPass : Prop :=
  ∀ (s : State) (p : Pixel),
    (s.mode = .decode ∨ s.status = .idle ∨ s.status = .done →
      push p s = .refused .pushHasNoStep ∧ finish s = .refused .finishHasNoStep) ∧
    (s.mode = .encode → s.status = .error →
      push p s = .next { s with results := s.results ++ [.error s.err none] } ∧
      finish s = .next { s with results := s.results ++ [.error s.err none] })

/-- Rule R53: no step of a pass changes or removes a byte of OUT, and only ENCODE writes it. -/
def Obligations.OutputIsAppendOnly : Prop :=
  ∀ (s t : State) (op : HostOp), runOp op s = .next t → t.status ≠ .error →
    (∀ mode w h ch cs io, op ≠ .start mode w h ch cs io) → op ≠ .reset →
    s.out <+: t.out ∧ (s.mode = .decode → t.out = s.out)

/-! ## Errors -/

/-- Rules R335, R336 and R332: an operation that raises sets STATUS and ERR and returns the error with its info; PX, RUN, CACHE, COUNT and
every other register but IPOS, OUT, OPOS and SENT are as before, and the sink keeps what it received. The edge from ACTIVE is rule R23's;
that the error is StreamError is rule R331's, which the spec marks derived. -/
def Obligations.RaiseRollsBack : Prop :=
  ∀ (s t : State) (op : HostOp), runOp op s = .next t → s.status ≠ .error → t.status = .error →
    t.err = .stream ∧ s.status = .active ∧ (∃ info, t.results = s.results ++ [.error .stream (some info)]) ∧
    s.sink <+: t.sink ∧
    t = { s with status := .error, err := .stream, ipos := t.ipos, out := t.out, opos := t.opos, sent := t.sent,
                 sink := t.sink, results := t.results, draws := t.draws }

/-- Rules R306, R307 and R309: where the sink refuses position `k`, a Push that raises and a Finish whose delivery reaches `k` raise
StreamError of that position, and the sink ends with exactly the output's bytes before it, whatever the draw. -/
def Obligations.SinkFailureReportsItsPosition : Prop :=
  ∀ (s : State) (k : Nat), s.ActiveIn .encode → s.outFail = some k → s.run.toNat ≤ 8223 →
    s.opos = s.out.length → s.sent ≤ s.opos → s.sent ≤ k → s.sink = s.out.take s.sent →
    (∀ (p : Pixel) (draw : Nat) (t : State), pushWith draw p s = .next t → t.status = .error →
      t.results = s.results ++ [.error .stream (some ⟨.ioFailure, k⟩)] ∧
      ∃ u, s.encodePixel p = .ok u ∧ k < u.opos ∧ t.sink = u.out.take k) ∧
    (∀ u, (if s.run = 0 then Except.ok s else s.flushRun) = .ok u → k < u.opos →
      ∃ t, finish s = .next t ∧ t.status = .error ∧ t.err = .stream ∧ t.sink = u.out.take k ∧
        t.results = s.results ++ [.error .stream (some ⟨.ioFailure, k⟩)])

/-! ## Reset, Start and the machine as a whole -/

/-- Rules R370 and R371: Reset answers next in every state and puts every register at its reset value; what a sink has received stays. -/
def Obligations.ResetSetsEveryRegister : Prop :=
  ∀ s : State, ∃ t, runOp .reset s = .next t ∧
    t.mode = .decode ∧ t.status = .idle ∧ t.err = .noError ∧ t.width = 0 ∧ t.height = 0 ∧ t.channels = 0 ∧ t.colorspace = 0 ∧
    t.total = 0 ∧ t.count = 0 ∧ t.px = ⟨0, 0, 0, 255⟩ ∧ (∀ i, t.lookup i = ⟨0, 0, 0, 0⟩) ∧ t.run = 0 ∧
    t.ipos = 0 ∧ t.opos = 0 ∧ t.sent = 0 ∧ t.out = [] ∧ t.sink = s.sink ∧ t.oldSinks = s.oldSinks

/-- Rule R372: Start answers next in every state and leaves the start state of a pass, DONE at once for an empty decode pass, with IN bound.
That Start binds IN in ENCODE too, where no rule reads it, is the model's choice (log entry 4). -/
def Obligations.StartBeginsAPass : Prop :=
  ∀ (s : State) (mode : Mode) (w h : BitVec 32) (ch cs : Byte) (io : PassIO),
    ∃ t, runOp (.start mode w h ch cs io) s = .next t ∧
      t.mode = mode ∧ t.width = w ∧ t.height = h ∧ t.channels = ch ∧ t.colorspace = cs ∧
      t.total.toNat = w.toNat * h.toNat ∧ t.count = 0 ∧ t.px = ⟨0, 0, 0, 255⟩ ∧ (∀ i, t.lookup i = ⟨0, 0, 0, 0⟩) ∧
      t.run = 0 ∧ t.ipos = 0 ∧ t.out = [] ∧ t.opos = 0 ∧ t.sent = 0 ∧ t.err = .noError ∧ t.input = io.input ∧
      t.status = (if mode = .decode ∧ w.toNat * h.toNat = 0 then .done else .active)

/-- Rule R23: STATUS moves only along the edges of the table, each taken by the operation the table names; the Pull that ends a pass is the
one that makes COUNT = TOTAL. -/
def Obligations.StatusMovesAlongItsEdges : Prop :=
  ∀ (s t : State) (op : HostOp), runOp op s = .next t →
    statusEdge op s.status t.status ∧
    (op = .pull → s.status = .active → (t.status = .done → t.count = t.total) ∧ (t.status = .active → t.count ≠ t.total))

/-- Rule R21: Start latches the descriptor's fields, whatever they are; Start and Reset alone write them; and no other operation's answer
depends on them. -/
def Obligations.DescriptorLatchesAreInert : Prop :=
  (∀ (s : State) (mode : Mode) (w h : BitVec 32) (ch cs : Byte) (io : PassIO),
    ∃ t, runOp (.start mode w h ch cs io) s = .next t ∧
      t.width = w ∧ t.height = h ∧ t.channels = ch ∧ t.colorspace = cs ∧ t.total.toNat = w.toNat * h.toNat) ∧
  (∀ (s t : State) (op : HostOp), runOp op s = .next t → (∀ mode w h ch cs io, op ≠ .start mode w h ch cs io) → op ≠ .reset →
    t.width = s.width ∧ t.height = s.height ∧ t.channels = s.channels ∧ t.colorspace = s.colorspace) ∧
  (∀ (s t : State) (op : HostOp) (w h : BitVec 32) (ch cs : Byte),
    (∀ mode w h c d io, op ≠ .start mode w h c d io) → op ≠ .reset → runOp op s = .next t →
    runOp op { s with width := w, height := h, channels := ch, colorspace := cs } =
      .next { t with width := w, height := h, channels := ch, colorspace := cs })

/-- Rule R35, the writes of the three operations of a pass when they raise nothing: every register with a dash or an `r` alone in the
operation's column is unchanged. -/
def Obligations.OperationsWriteOnlyTheirRegisters : Prop :=
  ∀ s t : State, t.status ≠ .error →
    (pull s = .next t →
      t = { s with status := t.status, count := t.count, px := t.px, cache := t.cache, run := t.run,
                   ipos := t.ipos, results := t.results, draws := t.draws }) ∧
    (∀ p, push p s = .next t →
      t = { s with count := t.count, px := t.px, cache := t.cache, run := t.run, out := t.out,
                   opos := t.opos, sent := t.sent, sink := t.sink, results := t.results, draws := t.draws }) ∧
    (finish s = .next t →
      t = { s with status := t.status, run := t.run, out := t.out, opos := t.opos, sent := t.sent,
                   sink := t.sink, results := t.results })

/-- The invariant holds after reset, whose parameters are the model's (log entry 3). -/
def Obligations.ResetHasTheInvariant : Prop := State.reset.Inv

/-- Every pass begins with the invariant, whatever state Start was issued in (rule R373). That Start opens an empty sink, which the
invariant's clause on the sink needs, is the model's (log entry 5). -/
def Obligations.StartEstablishesTheInvariant : Prop :=
  ∀ (s : State) (mode : Mode) (w h : BitVec 32) (ch cs : Byte) (io : PassIO), (startOp mode w h ch cs io s).Inv

/-- Every step keeps the invariant: ERR matches STATUS, TOTAL is the product, every cache entry is zero or at its hash, RUN is at most 8223,
COUNT bounds DECODE, the output side is consistent and the buffer within its depth, IPOS is within IN, a finished pass is delivered, and
IDLE is as reset (rules R24, R25, R26, R30, R32, R33, R38, R280, R306, R307, R370). The clause on the sink rests on log entry 5: each
Start opens an empty one. -/
def Obligations.EveryStepKeepsTheInvariant : Prop := ∀ s t : State, s.Inv → step s = .next t → t.Inv

/-- With the invariant a step faults never, and refuses only an operation the spec gives no step, by the model's names (log entry 10). -/
def Obligations.InvariantStatesNeverFault : Prop :=
  ∀ s : State, s.Inv →
    (∀ r, step s ≠ .fault r) ∧
    (∀ r, step s = .refused r → r = .pullHasNoStep ∨ r = .pushHasNoStep ∨ r = .finishHasNoStep)

/-- Rule R282 and the encoder's half of R39: after the same pixels, OUT and the encoder's registers are the same, whatever the block's
earlier state, the descriptor, the buffer's depth, the draws of Deliver and the sink. -/
def Obligations.EncoderOutputDependsOnlyOnPixels : Prop :=
  ∀ (pixels : List Pixel) (s1 s2 t1 t2 : State) (w1 h1 w2 h2 : BitVec 32) (ch1 cs1 ch2 cs2 : Byte) (io1 io2 : PassIO)
    (rest1 rest2 : List HostOp),
    Host.Core.run core (pixels.length + 1)
      { s1 with ops := .start .encode w1 h1 ch1 cs1 io1 :: (pixels.map HostOp.push ++ rest1) } = .next t1 →
    Host.Core.run core (pixels.length + 1)
      { s2 with ops := .start .encode w2 h2 ch2 cs2 io2 :: (pixels.map HostOp.push ++ rest2) } = .next t2 →
    t1.status = .active → t2.status = .active → pixels.length < 2 ^ 64 →
    t1.out = t2.out ∧ t1.px = t2.px ∧ t1.run = t2.run ∧ t1.cache = t2.cache ∧ t1.count = t2.count

/-- Rule R145: the decoder of a finished encode pass's output has, after its k-th pixel, the PX and CACHE the encoder had after its k-th
Push. -/
def Obligations.DecoderTracksEncoder : Prop :=
  ∀ (pixels : List Pixel) (w h : BitVec 32) (ch cs ch' cs' : Byte) (io : PassIO) (s s' done : State) (unread : List Byte)
    (outFail : Option Nat) (k : Nat),
    pixels.length = w.toNat * h.toNat → k ≤ pixels.length →
    Host.Core.run core (pixels.length + 2) { s with ops := encodeScript w h ch cs io pixels } = .next done → done.status = .done →
    ∃ e d, Host.Core.run core (k + 1) { s with ops := encodeScript w h ch cs io pixels } = .next e ∧
      Host.Core.run core (k + 1) { s' with ops := decodeScript w h ch' cs' ⟨done.out ++ unread, none, outFail⟩ } = .next d ∧
      d.px = e.px ∧ d.cache = e.cache

/-- Rule R283: decoding a finished encode pass's output, with the same TOTAL and anything after it, returns the pushed pixels one by one and
ends DONE. That Start hands back no result, so that the results are the pixels alone, is the model's (log entry 22). -/
def Obligations.DecodingReturnsTheEncodedPixels : Prop :=
  ∀ (pixels : List Pixel) (w h : BitVec 32) (ch cs ch' cs' : Byte) (io : PassIO) (s s' done : State) (unread : List Byte)
    (outFail : Option Nat),
    pixels.length = w.toNat * h.toNat →
    Host.Core.run core (pixels.length + 2) { s with ops := encodeScript w h ch cs io pixels } = .next done → done.status = .done →
    ∃ d, Host.Core.run core (pixels.length + 1)
        { s' with ops := decodeScript w h ch' cs' ⟨done.out ++ unread, none, outFail⟩ } = .next d ∧
      d.status = .done ∧ d.results = s'.results ++ pixels.map Result.pixel

/-! ## The container -/

/-- Rules R120 and R121, the codec as log entry 18 models it: a header is 14 bytes, and reading one that was written gives its fields and
the bytes after it, for a channel byte of 3 or 4. -/
def Obligations.HeaderRoundTrip : Prop :=
  ∀ (d : Descriptor) (rest : List Byte),
    (writeHeader d).length = 14 ∧
    (d.channels = 3 ∨ d.channels = 4 → readHeader (writeHeader d ++ rest) = .ok (d, rest)) ∧
    (d.channels ≠ 3 → d.channels ≠ 4 → readHeader (writeHeader d ++ rest) = .error .channel)

/-- Rule R122: a header shorter than 14 bytes raises StreamError whatever it holds, and the magic is checked before the channel byte. -/
def Obligations.HeaderErrorPriority : Prop :=
  (∀ bytes : List Byte, bytes.length < 14 → readHeader bytes = .error .stream) ∧
  (∀ bytes : List Byte, 14 ≤ bytes.length → bytes.take 4 ≠ [0x71, 0x6F, 0x69, 0x66] → readHeader bytes = .error .format)

/-- Rules R125, R126 and R128, and the source's round trip (L1-1): decoding an encoded image's container, padding included, gives the image
back, the k-th pixel being the one at (k mod w, k div w). -/
def Obligations.ContainerRoundTrip : Prop :=
  ∀ (channels : EncChannels) (colorspace : Byte) (buffer : PixelBuffer) (outFail : Option Nat) (s s' : State) (bytes : List Byte),
    encodeImage channels colorspace buffer outFail s = (bytes, .complete) →
    ∃ pixels, decodeImage bytes none s' = (pixels, .complete) ∧
      pixels.length = buffer.width.toNat * buffer.height.toNat ∧
      ∀ k, k < pixels.length → pixels[k]? = some (buffer.pixelAt (k % buffer.width.toNat) (k / buffer.width.toNat))

/-- Rules R19, R126, R128 and R306: what encodeImage has written when it returns, for every image and every draw. There is one opcode stream
`out`, the OUT of every finished encode pass over the image's pixels in row-major order. A sink that refuses none of its bytes gets the
header, `out` and the padding; one that refuses its byte `k` leaves the header and the bytes before `k`, and encodeImage ends with
StreamError of `k`. That OUT_FAIL names a byte of `out`, and of neither the header nor the padding, is the model's choice (log entry 19). -/
def Obligations.EncodeImageWritesUpToTheRefusedByte : Prop :=
  ∀ (channels : EncChannels) (colorspace : Byte) (buffer : PixelBuffer) (s : State),
    let count := buffer.width.toNat * buffer.height.toNat
    let header := writeHeader (buffer.descriptor channels colorspace)
    buffer.rowMajor.length = count ∧
    (∀ k, k < count → buffer.rowMajor[k]? = some (buffer.pixelAt (k % buffer.width.toNat) (k / buffer.width.toNat))) ∧
    ∃ out : List Byte,
      (∀ (s' done : State) (ch cs : Byte) (io : PassIO),
        Host.Core.run core (count + 2) { s' with ops := encodeScript buffer.width buffer.height ch cs io buffer.rowMajor } = .next done →
        done.status = .done → done.out = out) ∧
      encodeImage channels colorspace buffer none s = (header ++ out ++ [0, 0, 0, 0], .complete) ∧
      ∀ k, encodeImage channels colorspace buffer (some k) s =
        if k < out.length then (header ++ out.take k, .failed .stream (some ⟨.ioFailure, k⟩))
        else (header ++ out ++ [0, 0, 0, 0], .complete)
end

