-- ==== Sys2Proof/Laws/Decode.lean ====
section
/-!
SUPPORT. What decoding and encoding can do, said once: the shape of a successful decode, and the tag byte of every encoding.
-/

namespace Sys2Proof

/-- A decode succeeds exactly when the bytes begin with a tag byte and all the operand bytes its class needs. -/
theorem decode_ok_iff (bytes rest : List Byte) (i : Instr) :
    decode bytes = .ok (i, rest) ↔
      ∃ (tag : Byte) (operands : List Byte),
        bytes = tag :: operands ++ rest ∧ operands.length = operandBytes tag ∧ i = buildInstr tag operands := by
  cases bytes with
  | nil => simp [decode]
  | cons t bs =>
    simp only [decode]
    split
    · rename_i h
      simp only [reduceCtorEq, false_iff]
      rintro ⟨tag, operands, hb, hl, -⟩
      obtain ⟨rfl, rfl⟩ := List.cons.inj hb
      simp at h; omega
    · rename_i h
      simp only [Except.ok.injEq, Prod.mk.injEq]
      constructor
      · rintro ⟨rfl, rfl⟩
        exact ⟨t, bs.take (operandBytes t), by simp, by simp; omega, rfl⟩
      · rintro ⟨tag, operands, hb, hl, rfl⟩
        obtain ⟨rfl, rfl⟩ := List.cons.inj hb
        simp [← hl]

/-- A decode fails exactly when the bytes end too soon (rule R94: no encoding is illegal). -/
theorem decode_error_iff (bytes : List Byte) :
    (∃ r, decode bytes = .error r) ↔ ∀ t bs, bytes = t :: bs → bs.length < operandBytes t := by
  cases bytes with
  | nil => simp [decode]
  | cons t bs =>
    simp only [decode]
    split <;> simp_all

/-- The opcode the decoder builds is the class of the tag byte. -/
theorem buildInstr_opcode (t : Byte) (operands : List Byte) : (buildInstr t operands).opcode = classify t := by
  unfold buildInstr
  cases classify t <;> rfl

/-- What the decoder builds from exactly the operand bytes a tag needs is well formed. -/
theorem buildInstr_wf (t : Byte) (operands : List Byte) (h : operands.length = operandBytes t) :
    (buildInstr t operands).wf = true := by
  unfold buildInstr operandBytes at *
  cases hc : classify t <;> simp_all [Instr.wf]

/-- At most four operand bytes follow a tag (rule R91). -/
theorem operandBytes_le (t : Byte) : operandBytes t ≤ 4 := by
  revert t; decide

/-- Every opcode has at least one byte. -/
theorem tagLength_pos (t : Byte) : 0 < tagLength t := by
  unfold tagLength; omega

end Sys2Proof
end

