-- ==== Sys2Proof/Laws/PerInstr.lean ====
section
/-!
SUPPORT. The families of facts that hold of every instruction as syntax, one lemma per constructor.
-/

namespace Sys2Proof.Laws

/-- The first byte of an instruction's encoding is a tag of its opcode's class, and the rest are as many bytes as that tag's class
needs (rules R81, R91). -/
def TagAndLength.Statement (i : Instr) : Prop :=
  i.wf = true → ∃ tag operands, encode i = tag :: operands ∧ classify tag = i.opcode ∧ operands.length = operandBytes tag

theorem TagAndLength.index (idx : BitVec 6) : TagAndLength.Statement (.index idx) := by
  intro _
  refine ⟨_, _, rfl, ?_⟩
  revert idx; decide

theorem TagAndLength.run8 (n : BitVec 5) : TagAndLength.Statement (.run8 n) := by
  intro _
  refine ⟨_, _, rfl, ?_⟩
  revert n; decide

theorem TagAndLength.run16 (n : BitVec 13) : TagAndLength.Statement (.run16 n) := by
  intro _
  refine ⟨_, _, rfl, ?_⟩
  generalize n.extractLsb' 8 5 = hi
  simp only [Instr.opcode, List.length_singleton]
  revert hi; decide

theorem TagAndLength.diff8 (fr fg fb : BitVec 2) : TagAndLength.Statement (.diff8 fr fg fb) := by
  intro _
  refine ⟨_, _, rfl, ?_⟩
  revert fr fg fb; decide

theorem TagAndLength.diff16 (fr : BitVec 5) (fg fb : BitVec 4) : TagAndLength.Statement (.diff16 fr fg fb) := by
  intro h; clear h
  refine ⟨_, _, rfl, ?_⟩
  simp only [Instr.opcode, List.length_singleton]
  revert fr; decide

theorem TagAndLength.diff24 (fr fg fb fa : BitVec 5) : TagAndLength.Statement (.diff24 fr fg fb fa) := by
  intro h; clear h
  refine ⟨_, _, rfl, ?_⟩
  simp only [Instr.opcode, List.length_cons, List.length_nil]
  revert fr; decide

theorem TagAndLength.color (fR fG fB fA : Bool) (lits : List Byte) : TagAndLength.Statement (.color fR fG fB fA lits) := by
  intro h
  refine ⟨_, _, rfl, ?_⟩
  simp only [Instr.wf, beq_iff_eq] at h
  rw [h]
  simp only [Instr.opcode]
  clear h
  revert fR fG fB fA; decide

end Sys2Proof.Laws
end

