-- ==== Sys2Proof/Laws/Encoding.lean ====
section
/-!
SUPPORT. The encodings as numbers: the bytes of every instruction by the arithmetic of rule R100, and what the decoder builds from
those bytes. Proofs about bytes cite these and leave the bit fields folded.
-/

namespace Sys2Proof

/-- Concatenation as arithmetic: the left part is the more significant (rule R11). -/
theorem toNat_concat {m n : Nat} (a : BitVec m) (b : BitVec n) : (a ++ b).toNat = a.toNat * 2 ^ n + b.toNat := by
  rw [BitVec.toNat_append, ← Nat.shiftLeft_add_eq_or_of_lt b.isLt, Nat.shiftLeft_eq]

/-- DIFF_24's 20-bit payload (rule R87). -/
def payload24 (fr fg fb fa : BitVec 5) : Nat := fr.toNat * 2 ^ 15 + fg.toNat * 2 ^ 10 + fb.toNat * 2 ^ 5 + fa.toNat

theorem payload24_lt (fr fg fb fa : BitVec 5) : payload24 fr fg fb fa < 2 ^ 20 := by
  unfold payload24; omega

theorem encode_index (idx : BitVec 6) : encode (.index idx) = [BitVec.ofNat 8 idx.toNat] := by
  revert idx; decide

theorem encode_run8 (n : BitVec 5) : encode (.run8 n) = [BitVec.ofNat 8 (0x40 + n.toNat)] := by
  revert n; decide

theorem encode_run16 (n : BitVec 13) :
    encode (.run16 n) = [BitVec.ofNat 8 (0x60 + n.toNat / 256), BitVec.ofNat 8 (n.toNat % 256)] := by
  have h1 : (0b011#3 ++ n.extractLsb' 8 5 : BitVec (3 + 5)) = BitVec.ofNat 8 (0x60 + n.toNat / 256) := by
    apply BitVec.eq_of_toNat_eq
    rw [toNat_concat]; simp [Nat.shiftRight_eq_div_pow]; omega
  have h2 : n.extractLsb' 0 8 = BitVec.ofNat 8 (n.toNat % 256) := by
    apply BitVec.eq_of_toNat_eq; simp
  rw [encode, h2]; exact congrArg (· :: _) h1

theorem encode_diff8 (fr fg fb : BitVec 2) :
    encode (.diff8 fr fg fb) = [BitVec.ofNat 8 (0x80 + fr.toNat * 16 + fg.toNat * 4 + fb.toNat)] := by
  revert fr fg fb; decide

theorem encode_diff16 (fr : BitVec 5) (fg fb : BitVec 4) :
    encode (.diff16 fr fg fb) = [BitVec.ofNat 8 (0xC0 + fr.toNat), BitVec.ofNat 8 (fg.toNat * 16 + fb.toNat)] := by
  have h1 : (0b110#3 ++ fr : BitVec (3 + 5)) = BitVec.ofNat 8 (0xC0 + fr.toNat) := by revert fr; decide
  have h2 : (fg ++ fb : BitVec (4 + 4)) = BitVec.ofNat 8 (fg.toNat * 16 + fb.toNat) := by revert fg fb; decide
  rw [encode]; exact congrArg₂ (fun a b => [a, b]) h1 h2

theorem encode_diff24 (fr fg fb fa : BitVec 5) :
    encode (.diff24 fr fg fb fa) =
      [BitVec.ofNat 8 (0xE0 + payload24 fr fg fb fa / 2 ^ 16), BitVec.ofNat 8 (payload24 fr fg fb fa / 2 ^ 8 % 256),
       BitVec.ofNat 8 (payload24 fr fg fb fa % 256)] := by
  have h1 : (0b1110#4 ++ fr.extractLsb' 1 4 : BitVec (4 + 4)) = BitVec.ofNat 8 (0xE0 + payload24 fr fg fb fa / 2 ^ 16) := by
    apply BitVec.eq_of_toNat_eq
    rw [toNat_concat]; simp [Nat.shiftRight_eq_div_pow, payload24]; omega
  have h2 : (fr.extractLsb' 0 1 ++ fg ++ fb.extractLsb' 3 2 : BitVec (1 + 5 + 2)) =
      BitVec.ofNat 8 (payload24 fr fg fb fa / 2 ^ 8 % 256) := by
    apply BitVec.eq_of_toNat_eq
    rw [toNat_concat, toNat_concat]; simp [Nat.shiftRight_eq_div_pow, payload24]; omega
  have h3 : (fb.extractLsb' 0 3 ++ fa : BitVec (3 + 5)) = BitVec.ofNat 8 (payload24 fr fg fb fa % 256) := by
    apply BitVec.eq_of_toNat_eq
    rw [toNat_concat]; simp [payload24]; omega
  rw [encode]; exact (congrArg₂ (fun a l => a :: l) h1 (congrArg₂ (fun a b => [a, b]) h2 h3))

/-- COLOR's tag byte as a number (rule R100). -/
def colorTag (fR fG fB fA : Bool) : Byte :=
  BitVec.ofNat 8 (0xF0 + fR.toNat * 8 + fG.toNat * 4 + fB.toNat * 2 + fA.toNat)

theorem encode_color (fR fG fB fA : Bool) (lits : List Byte) :
    encode (.color fR fG fB fA lits) = colorTag fR fG fB fA :: lits := by
  simp only [encode]
  congr 1
  revert fR fG fB fA; decide

theorem build_index (idx : BitVec 6) (operands : List Byte) :
    buildInstr (BitVec.ofNat 8 idx.toNat) operands = .index idx := by
  have h : ∀ i : BitVec 6, classify (BitVec.ofNat 8 i.toNat) = .index ∧
      (BitVec.ofNat 8 i.toNat).extractLsb' 0 6 = i := by decide
  simp only [buildInstr, (h idx).1, (h idx).2]

theorem build_run8 (n : BitVec 5) (operands : List Byte) :
    buildInstr (BitVec.ofNat 8 (0x40 + n.toNat)) operands = .run8 n := by
  have h : ∀ n : BitVec 5, classify (BitVec.ofNat 8 (0x40 + n.toNat)) = .run8 ∧
      (BitVec.ofNat 8 (0x40 + n.toNat)).extractLsb' 0 5 = n := by decide
  simp only [buildInstr, (h n).1, (h n).2]

theorem build_run16 (n : BitVec 13) (rest : List Byte) :
    buildInstr (BitVec.ofNat 8 (0x60 + n.toNat / 256)) (BitVec.ofNat 8 (n.toNat % 256) :: rest) = .run16 n := by
  have h : ∀ k < 32, classify (BitVec.ofNat 8 (0x60 + k)) = .run16 := by decide
  simp only [buildInstr, h _ (show n.toNat / 256 < 32 by omega)]
  congr 1
  apply BitVec.eq_of_toNat_eq
  change (BitVec.extractLsb' 0 5 (BitVec.ofNat 8 (96 + n.toNat / 256)) ++
    ((BitVec.ofNat 8 (n.toNat % 256) :: rest).getD 0 0) : BitVec (5 + 8)).toNat = _
  rw [toNat_concat]; simp; omega

theorem build_diff8 (fr fg fb : BitVec 2) (operands : List Byte) :
    buildInstr (BitVec.ofNat 8 (0x80 + fr.toNat * 16 + fg.toNat * 4 + fb.toNat)) operands = .diff8 fr fg fb := by
  have h : ∀ fr fg fb : BitVec 2, let t := BitVec.ofNat 8 (0x80 + fr.toNat * 16 + fg.toNat * 4 + fb.toNat)
      classify t = .diff8 ∧ t.extractLsb' 4 2 = fr ∧ t.extractLsb' 2 2 = fg ∧ t.extractLsb' 0 2 = fb := by decide
  obtain ⟨h1, h2, h3, h4⟩ := h fr fg fb
  simp only [buildInstr, h1, h2, h3, h4]

theorem build_diff16 (fr : BitVec 5) (fg fb : BitVec 4) (rest : List Byte) :
    buildInstr (BitVec.ofNat 8 (0xC0 + fr.toNat)) (BitVec.ofNat 8 (fg.toNat * 16 + fb.toNat) :: rest) = .diff16 fr fg fb := by
  have h : ∀ fr : BitVec 5, classify (BitVec.ofNat 8 (0xC0 + fr.toNat)) = .diff16 ∧
      (BitVec.ofNat 8 (0xC0 + fr.toNat)).extractLsb' 0 5 = fr := by decide
  have h' : ∀ fg fb : BitVec 4, (BitVec.ofNat 8 (fg.toNat * 16 + fb.toNat)).extractLsb' 4 4 = fg ∧
      (BitVec.ofNat 8 (fg.toNat * 16 + fb.toNat)).extractLsb' 0 4 = fb := by decide
  simp only [buildInstr, (h fr).1, (h fr).2, List.getD_cons_zero, (h' fg fb).1, (h' fg fb).2]

theorem build_diff24 (fr fg fb fa : BitVec 5) (rest : List Byte) :
    buildInstr (BitVec.ofNat 8 (0xE0 + payload24 fr fg fb fa / 2 ^ 16))
      (BitVec.ofNat 8 (payload24 fr fg fb fa / 2 ^ 8 % 256) :: BitVec.ofNat 8 (payload24 fr fg fb fa % 256) :: rest) =
      .diff24 fr fg fb fa := by
  have h : ∀ k < 16, classify (BitVec.ofNat 8 (0xE0 + k)) = .diff24 := by decide
  have hp : payload24 fr fg fb fa / 2 ^ 16 < 16 := by have := payload24_lt fr fg fb fa; omega
  simp only [buildInstr, h _ hp]
  congr 1
  · apply BitVec.eq_of_toNat_eq
    change (BitVec.extractLsb' 0 4 (BitVec.ofNat 8 (0xE0 + payload24 fr fg fb fa / 2 ^ 16)) ++
      BitVec.extractLsb' 7 1 (BitVec.ofNat 8 (payload24 fr fg fb fa / 2 ^ 8 % 256)) : BitVec (4 + 1)).toNat = _
    rw [toNat_concat]; simp [Nat.shiftRight_eq_div_pow, payload24]; omega
  · apply BitVec.eq_of_toNat_eq
    simp [Nat.shiftRight_eq_div_pow, payload24]; omega
  · apply BitVec.eq_of_toNat_eq
    change (BitVec.extractLsb' 0 2 (BitVec.ofNat 8 (payload24 fr fg fb fa / 2 ^ 8 % 256)) ++
      BitVec.extractLsb' 5 3 (BitVec.ofNat 8 (payload24 fr fg fb fa % 256)) : BitVec (2 + 3)).toNat = _
    rw [toNat_concat]; simp [Nat.shiftRight_eq_div_pow, payload24]; omega
  · apply BitVec.eq_of_toNat_eq
    simp [payload24]; omega

theorem build_color (fR fG fB fA : Bool) (operands : List Byte) :
    buildInstr (colorTag fR fG fB fA) operands = .color fR fG fB fA operands := by
  have h : ∀ fR fG fB fA : Bool, classify (colorTag fR fG fB fA) = .color ∧ (colorTag fR fG fB fA)[3] = fR ∧
      (colorTag fR fG fB fA)[2] = fG ∧ (colorTag fR fG fB fA)[1] = fB ∧ (colorTag fR fG fB fA)[0] = fA := by decide
  obtain ⟨h1, h2, h3, h4, h5⟩ := h fR fG fB fA
  simp only [buildInstr, h1, h2, h3, h4, h5]

end Sys2Proof
end

