-- ==== Sys2Proof/Laws/State.lean ====
section
/-!
SUPPORT. What every named update of the state does to every field, one lemma each, so that no proof unfolds a record update.
-/

namespace Sys2Proof.Machine

variable (s : State)

@[simp] theorem State.withPx_mode (p : Pixel) : (s.withPx p).mode = s.mode := rfl
@[simp] theorem State.withPx_status (p : Pixel) : (s.withPx p).status = s.status := rfl
@[simp] theorem State.withPx_err (p : Pixel) : (s.withPx p).err = s.err := rfl
@[simp] theorem State.withPx_width (p : Pixel) : (s.withPx p).width = s.width := rfl
@[simp] theorem State.withPx_height (p : Pixel) : (s.withPx p).height = s.height := rfl
@[simp] theorem State.withPx_channels (p : Pixel) : (s.withPx p).channels = s.channels := rfl
@[simp] theorem State.withPx_colorspace (p : Pixel) : (s.withPx p).colorspace = s.colorspace := rfl
@[simp] theorem State.withPx_total (p : Pixel) : (s.withPx p).total = s.total := rfl
@[simp] theorem State.withPx_count (p : Pixel) : (s.withPx p).count = s.count := rfl
@[simp] theorem State.withPx_px (p : Pixel) : (s.withPx p).px = p := rfl
@[simp] theorem State.withPx_cache (p : Pixel) : (s.withPx p).cache = s.cache := rfl
@[simp] theorem State.withPx_run (p : Pixel) : (s.withPx p).run = s.run := rfl
@[simp] theorem State.withPx_ipos (p : Pixel) : (s.withPx p).ipos = s.ipos := rfl
@[simp] theorem State.withPx_out (p : Pixel) : (s.withPx p).out = s.out := rfl
@[simp] theorem State.withPx_opos (p : Pixel) : (s.withPx p).opos = s.opos := rfl
@[simp] theorem State.withPx_sent (p : Pixel) : (s.withPx p).sent = s.sent := rfl
@[simp] theorem State.withPx_input (p : Pixel) : (s.withPx p).input = s.input := rfl
@[simp] theorem State.withPx_inFail (p : Pixel) : (s.withPx p).inFail = s.inFail := rfl
@[simp] theorem State.withPx_outFail (p : Pixel) : (s.withPx p).outFail = s.outFail := rfl
@[simp] theorem State.withPx_obufBytes (p : Pixel) : (s.withPx p).obufBytes = s.obufBytes := rfl
@[simp] theorem State.withPx_sink (p : Pixel) : (s.withPx p).sink = s.sink := rfl
@[simp] theorem State.withPx_oldSinks (p : Pixel) : (s.withPx p).oldSinks = s.oldSinks := rfl
@[simp] theorem State.withPx_ops (p : Pixel) : (s.withPx p).ops = s.ops := rfl
@[simp] theorem State.withPx_results (p : Pixel) : (s.withPx p).results = s.results := rfl
@[simp] theorem State.withPx_draws (p : Pixel) : (s.withPx p).draws = s.draws := rfl

@[simp] theorem State.withRun_mode (n : BitVec 14) : (s.withRun n).mode = s.mode := rfl
@[simp] theorem State.withRun_status (n : BitVec 14) : (s.withRun n).status = s.status := rfl
@[simp] theorem State.withRun_err (n : BitVec 14) : (s.withRun n).err = s.err := rfl
@[simp] theorem State.withRun_width (n : BitVec 14) : (s.withRun n).width = s.width := rfl
@[simp] theorem State.withRun_height (n : BitVec 14) : (s.withRun n).height = s.height := rfl
@[simp] theorem State.withRun_channels (n : BitVec 14) : (s.withRun n).channels = s.channels := rfl
@[simp] theorem State.withRun_colorspace (n : BitVec 14) : (s.withRun n).colorspace = s.colorspace := rfl
@[simp] theorem State.withRun_total (n : BitVec 14) : (s.withRun n).total = s.total := rfl
@[simp] theorem State.withRun_count (n : BitVec 14) : (s.withRun n).count = s.count := rfl
@[simp] theorem State.withRun_px (n : BitVec 14) : (s.withRun n).px = s.px := rfl
@[simp] theorem State.withRun_cache (n : BitVec 14) : (s.withRun n).cache = s.cache := rfl
@[simp] theorem State.withRun_run (n : BitVec 14) : (s.withRun n).run = n := rfl
@[simp] theorem State.withRun_ipos (n : BitVec 14) : (s.withRun n).ipos = s.ipos := rfl
@[simp] theorem State.withRun_out (n : BitVec 14) : (s.withRun n).out = s.out := rfl
@[simp] theorem State.withRun_opos (n : BitVec 14) : (s.withRun n).opos = s.opos := rfl
@[simp] theorem State.withRun_sent (n : BitVec 14) : (s.withRun n).sent = s.sent := rfl
@[simp] theorem State.withRun_input (n : BitVec 14) : (s.withRun n).input = s.input := rfl
@[simp] theorem State.withRun_inFail (n : BitVec 14) : (s.withRun n).inFail = s.inFail := rfl
@[simp] theorem State.withRun_outFail (n : BitVec 14) : (s.withRun n).outFail = s.outFail := rfl
@[simp] theorem State.withRun_obufBytes (n : BitVec 14) : (s.withRun n).obufBytes = s.obufBytes := rfl
@[simp] theorem State.withRun_sink (n : BitVec 14) : (s.withRun n).sink = s.sink := rfl
@[simp] theorem State.withRun_oldSinks (n : BitVec 14) : (s.withRun n).oldSinks = s.oldSinks := rfl
@[simp] theorem State.withRun_ops (n : BitVec 14) : (s.withRun n).ops = s.ops := rfl
@[simp] theorem State.withRun_results (n : BitVec 14) : (s.withRun n).results = s.results := rfl
@[simp] theorem State.withRun_draws (n : BitVec 14) : (s.withRun n).draws = s.draws := rfl

@[simp] theorem State.withStatus_mode (v : Status) : (s.withStatus v).mode = s.mode := rfl
@[simp] theorem State.withStatus_status (v : Status) : (s.withStatus v).status = v := rfl
@[simp] theorem State.withStatus_err (v : Status) : (s.withStatus v).err = s.err := rfl
@[simp] theorem State.withStatus_width (v : Status) : (s.withStatus v).width = s.width := rfl
@[simp] theorem State.withStatus_height (v : Status) : (s.withStatus v).height = s.height := rfl
@[simp] theorem State.withStatus_channels (v : Status) : (s.withStatus v).channels = s.channels := rfl
@[simp] theorem State.withStatus_colorspace (v : Status) : (s.withStatus v).colorspace = s.colorspace := rfl
@[simp] theorem State.withStatus_total (v : Status) : (s.withStatus v).total = s.total := rfl
@[simp] theorem State.withStatus_count (v : Status) : (s.withStatus v).count = s.count := rfl
@[simp] theorem State.withStatus_px (v : Status) : (s.withStatus v).px = s.px := rfl
@[simp] theorem State.withStatus_cache (v : Status) : (s.withStatus v).cache = s.cache := rfl
@[simp] theorem State.withStatus_run (v : Status) : (s.withStatus v).run = s.run := rfl
@[simp] theorem State.withStatus_ipos (v : Status) : (s.withStatus v).ipos = s.ipos := rfl
@[simp] theorem State.withStatus_out (v : Status) : (s.withStatus v).out = s.out := rfl
@[simp] theorem State.withStatus_opos (v : Status) : (s.withStatus v).opos = s.opos := rfl
@[simp] theorem State.withStatus_sent (v : Status) : (s.withStatus v).sent = s.sent := rfl
@[simp] theorem State.withStatus_input (v : Status) : (s.withStatus v).input = s.input := rfl
@[simp] theorem State.withStatus_inFail (v : Status) : (s.withStatus v).inFail = s.inFail := rfl
@[simp] theorem State.withStatus_outFail (v : Status) : (s.withStatus v).outFail = s.outFail := rfl
@[simp] theorem State.withStatus_obufBytes (v : Status) : (s.withStatus v).obufBytes = s.obufBytes := rfl
@[simp] theorem State.withStatus_sink (v : Status) : (s.withStatus v).sink = s.sink := rfl
@[simp] theorem State.withStatus_oldSinks (v : Status) : (s.withStatus v).oldSinks = s.oldSinks := rfl
@[simp] theorem State.withStatus_ops (v : Status) : (s.withStatus v).ops = s.ops := rfl
@[simp] theorem State.withStatus_results (v : Status) : (s.withStatus v).results = s.results := rfl
@[simp] theorem State.withStatus_draws (v : Status) : (s.withStatus v).draws = s.draws := rfl

@[simp] theorem State.advance_mode (n : Nat) : (s.advance n).mode = s.mode := rfl
@[simp] theorem State.advance_status (n : Nat) : (s.advance n).status = s.status := rfl
@[simp] theorem State.advance_err (n : Nat) : (s.advance n).err = s.err := rfl
@[simp] theorem State.advance_width (n : Nat) : (s.advance n).width = s.width := rfl
@[simp] theorem State.advance_height (n : Nat) : (s.advance n).height = s.height := rfl
@[simp] theorem State.advance_channels (n : Nat) : (s.advance n).channels = s.channels := rfl
@[simp] theorem State.advance_colorspace (n : Nat) : (s.advance n).colorspace = s.colorspace := rfl
@[simp] theorem State.advance_total (n : Nat) : (s.advance n).total = s.total := rfl
@[simp] theorem State.advance_count (n : Nat) : (s.advance n).count = s.count := rfl
@[simp] theorem State.advance_px (n : Nat) : (s.advance n).px = s.px := rfl
@[simp] theorem State.advance_cache (n : Nat) : (s.advance n).cache = s.cache := rfl
@[simp] theorem State.advance_run (n : Nat) : (s.advance n).run = s.run := rfl
@[simp] theorem State.advance_ipos (n : Nat) : (s.advance n).ipos = s.ipos + n := rfl
@[simp] theorem State.advance_out (n : Nat) : (s.advance n).out = s.out := rfl
@[simp] theorem State.advance_opos (n : Nat) : (s.advance n).opos = s.opos := rfl
@[simp] theorem State.advance_sent (n : Nat) : (s.advance n).sent = s.sent := rfl
@[simp] theorem State.advance_input (n : Nat) : (s.advance n).input = s.input := rfl
@[simp] theorem State.advance_inFail (n : Nat) : (s.advance n).inFail = s.inFail := rfl
@[simp] theorem State.advance_outFail (n : Nat) : (s.advance n).outFail = s.outFail := rfl
@[simp] theorem State.advance_obufBytes (n : Nat) : (s.advance n).obufBytes = s.obufBytes := rfl
@[simp] theorem State.advance_sink (n : Nat) : (s.advance n).sink = s.sink := rfl
@[simp] theorem State.advance_oldSinks (n : Nat) : (s.advance n).oldSinks = s.oldSinks := rfl
@[simp] theorem State.advance_ops (n : Nat) : (s.advance n).ops = s.ops := rfl
@[simp] theorem State.advance_results (n : Nat) : (s.advance n).results = s.results := rfl
@[simp] theorem State.advance_draws (n : Nat) : (s.advance n).draws = s.draws := rfl

@[simp] theorem State.withSent_mode (n : Nat) : (s.withSent n).mode = s.mode := rfl
@[simp] theorem State.withSent_status (n : Nat) : (s.withSent n).status = s.status := rfl
@[simp] theorem State.withSent_err (n : Nat) : (s.withSent n).err = s.err := rfl
@[simp] theorem State.withSent_width (n : Nat) : (s.withSent n).width = s.width := rfl
@[simp] theorem State.withSent_height (n : Nat) : (s.withSent n).height = s.height := rfl
@[simp] theorem State.withSent_channels (n : Nat) : (s.withSent n).channels = s.channels := rfl
@[simp] theorem State.withSent_colorspace (n : Nat) : (s.withSent n).colorspace = s.colorspace := rfl
@[simp] theorem State.withSent_total (n : Nat) : (s.withSent n).total = s.total := rfl
@[simp] theorem State.withSent_count (n : Nat) : (s.withSent n).count = s.count := rfl
@[simp] theorem State.withSent_px (n : Nat) : (s.withSent n).px = s.px := rfl
@[simp] theorem State.withSent_cache (n : Nat) : (s.withSent n).cache = s.cache := rfl
@[simp] theorem State.withSent_run (n : Nat) : (s.withSent n).run = s.run := rfl
@[simp] theorem State.withSent_ipos (n : Nat) : (s.withSent n).ipos = s.ipos := rfl
@[simp] theorem State.withSent_out (n : Nat) : (s.withSent n).out = s.out := rfl
@[simp] theorem State.withSent_opos (n : Nat) : (s.withSent n).opos = s.opos := rfl
@[simp] theorem State.withSent_sent (n : Nat) : (s.withSent n).sent = n := rfl
@[simp] theorem State.withSent_input (n : Nat) : (s.withSent n).input = s.input := rfl
@[simp] theorem State.withSent_inFail (n : Nat) : (s.withSent n).inFail = s.inFail := rfl
@[simp] theorem State.withSent_outFail (n : Nat) : (s.withSent n).outFail = s.outFail := rfl
@[simp] theorem State.withSent_obufBytes (n : Nat) : (s.withSent n).obufBytes = s.obufBytes := rfl
@[simp] theorem State.withSent_sink (n : Nat) : (s.withSent n).sink = s.sink := rfl
@[simp] theorem State.withSent_oldSinks (n : Nat) : (s.withSent n).oldSinks = s.oldSinks := rfl
@[simp] theorem State.withSent_ops (n : Nat) : (s.withSent n).ops = s.ops := rfl
@[simp] theorem State.withSent_results (n : Nat) : (s.withSent n).results = s.results := rfl
@[simp] theorem State.withSent_draws (n : Nat) : (s.withSent n).draws = s.draws := rfl

@[simp] theorem State.withOps_mode (l : List HostOp) : (s.withOps l).mode = s.mode := rfl
@[simp] theorem State.withOps_status (l : List HostOp) : (s.withOps l).status = s.status := rfl
@[simp] theorem State.withOps_err (l : List HostOp) : (s.withOps l).err = s.err := rfl
@[simp] theorem State.withOps_width (l : List HostOp) : (s.withOps l).width = s.width := rfl
@[simp] theorem State.withOps_height (l : List HostOp) : (s.withOps l).height = s.height := rfl
@[simp] theorem State.withOps_channels (l : List HostOp) : (s.withOps l).channels = s.channels := rfl
@[simp] theorem State.withOps_colorspace (l : List HostOp) : (s.withOps l).colorspace = s.colorspace := rfl
@[simp] theorem State.withOps_total (l : List HostOp) : (s.withOps l).total = s.total := rfl
@[simp] theorem State.withOps_count (l : List HostOp) : (s.withOps l).count = s.count := rfl
@[simp] theorem State.withOps_px (l : List HostOp) : (s.withOps l).px = s.px := rfl
@[simp] theorem State.withOps_cache (l : List HostOp) : (s.withOps l).cache = s.cache := rfl
@[simp] theorem State.withOps_run (l : List HostOp) : (s.withOps l).run = s.run := rfl
@[simp] theorem State.withOps_ipos (l : List HostOp) : (s.withOps l).ipos = s.ipos := rfl
@[simp] theorem State.withOps_out (l : List HostOp) : (s.withOps l).out = s.out := rfl
@[simp] theorem State.withOps_opos (l : List HostOp) : (s.withOps l).opos = s.opos := rfl
@[simp] theorem State.withOps_sent (l : List HostOp) : (s.withOps l).sent = s.sent := rfl
@[simp] theorem State.withOps_input (l : List HostOp) : (s.withOps l).input = s.input := rfl
@[simp] theorem State.withOps_inFail (l : List HostOp) : (s.withOps l).inFail = s.inFail := rfl
@[simp] theorem State.withOps_outFail (l : List HostOp) : (s.withOps l).outFail = s.outFail := rfl
@[simp] theorem State.withOps_obufBytes (l : List HostOp) : (s.withOps l).obufBytes = s.obufBytes := rfl
@[simp] theorem State.withOps_sink (l : List HostOp) : (s.withOps l).sink = s.sink := rfl
@[simp] theorem State.withOps_oldSinks (l : List HostOp) : (s.withOps l).oldSinks = s.oldSinks := rfl
@[simp] theorem State.withOps_ops (l : List HostOp) : (s.withOps l).ops = l := rfl
@[simp] theorem State.withOps_results (l : List HostOp) : (s.withOps l).results = s.results := rfl
@[simp] theorem State.withOps_draws (l : List HostOp) : (s.withOps l).draws = s.draws := rfl

@[simp] theorem State.drawn_mode : (s.drawn).mode = s.mode := rfl
@[simp] theorem State.drawn_status : (s.drawn).status = s.status := rfl
@[simp] theorem State.drawn_err : (s.drawn).err = s.err := rfl
@[simp] theorem State.drawn_width : (s.drawn).width = s.width := rfl
@[simp] theorem State.drawn_height : (s.drawn).height = s.height := rfl
@[simp] theorem State.drawn_channels : (s.drawn).channels = s.channels := rfl
@[simp] theorem State.drawn_colorspace : (s.drawn).colorspace = s.colorspace := rfl
@[simp] theorem State.drawn_total : (s.drawn).total = s.total := rfl
@[simp] theorem State.drawn_count : (s.drawn).count = s.count := rfl
@[simp] theorem State.drawn_px : (s.drawn).px = s.px := rfl
@[simp] theorem State.drawn_cache : (s.drawn).cache = s.cache := rfl
@[simp] theorem State.drawn_run : (s.drawn).run = s.run := rfl
@[simp] theorem State.drawn_ipos : (s.drawn).ipos = s.ipos := rfl
@[simp] theorem State.drawn_out : (s.drawn).out = s.out := rfl
@[simp] theorem State.drawn_opos : (s.drawn).opos = s.opos := rfl
@[simp] theorem State.drawn_sent : (s.drawn).sent = s.sent := rfl
@[simp] theorem State.drawn_input : (s.drawn).input = s.input := rfl
@[simp] theorem State.drawn_inFail : (s.drawn).inFail = s.inFail := rfl
@[simp] theorem State.drawn_outFail : (s.drawn).outFail = s.outFail := rfl
@[simp] theorem State.drawn_obufBytes : (s.drawn).obufBytes = s.obufBytes := rfl
@[simp] theorem State.drawn_sink : (s.drawn).sink = s.sink := rfl
@[simp] theorem State.drawn_oldSinks : (s.drawn).oldSinks = s.oldSinks := rfl
@[simp] theorem State.drawn_ops : (s.drawn).ops = s.ops := rfl
@[simp] theorem State.drawn_results : (s.drawn).results = s.results := rfl
@[simp] theorem State.drawn_draws : (s.drawn).draws = s.draws + 1 := rfl

@[simp] theorem State.report_mode (r : Result) : (s.report r).mode = s.mode := rfl
@[simp] theorem State.report_status (r : Result) : (s.report r).status = s.status := rfl
@[simp] theorem State.report_err (r : Result) : (s.report r).err = s.err := rfl
@[simp] theorem State.report_width (r : Result) : (s.report r).width = s.width := rfl
@[simp] theorem State.report_height (r : Result) : (s.report r).height = s.height := rfl
@[simp] theorem State.report_channels (r : Result) : (s.report r).channels = s.channels := rfl
@[simp] theorem State.report_colorspace (r : Result) : (s.report r).colorspace = s.colorspace := rfl
@[simp] theorem State.report_total (r : Result) : (s.report r).total = s.total := rfl
@[simp] theorem State.report_count (r : Result) : (s.report r).count = s.count := rfl
@[simp] theorem State.report_px (r : Result) : (s.report r).px = s.px := rfl
@[simp] theorem State.report_cache (r : Result) : (s.report r).cache = s.cache := rfl
@[simp] theorem State.report_run (r : Result) : (s.report r).run = s.run := rfl
@[simp] theorem State.report_ipos (r : Result) : (s.report r).ipos = s.ipos := rfl
@[simp] theorem State.report_out (r : Result) : (s.report r).out = s.out := rfl
@[simp] theorem State.report_opos (r : Result) : (s.report r).opos = s.opos := rfl
@[simp] theorem State.report_sent (r : Result) : (s.report r).sent = s.sent := rfl
@[simp] theorem State.report_input (r : Result) : (s.report r).input = s.input := rfl
@[simp] theorem State.report_inFail (r : Result) : (s.report r).inFail = s.inFail := rfl
@[simp] theorem State.report_outFail (r : Result) : (s.report r).outFail = s.outFail := rfl
@[simp] theorem State.report_obufBytes (r : Result) : (s.report r).obufBytes = s.obufBytes := rfl
@[simp] theorem State.report_sink (r : Result) : (s.report r).sink = s.sink := rfl
@[simp] theorem State.report_oldSinks (r : Result) : (s.report r).oldSinks = s.oldSinks := rfl
@[simp] theorem State.report_ops (r : Result) : (s.report r).ops = s.ops := rfl
@[simp] theorem State.report_results (r : Result) : (s.report r).results = s.results ++ [r] := rfl
@[simp] theorem State.report_draws (r : Result) : (s.report r).draws = s.draws := rfl

@[simp] theorem State.storePixel_mode (p : Pixel) : (s.storePixel p).mode = s.mode := rfl
@[simp] theorem State.storePixel_status (p : Pixel) : (s.storePixel p).status = s.status := rfl
@[simp] theorem State.storePixel_err (p : Pixel) : (s.storePixel p).err = s.err := rfl
@[simp] theorem State.storePixel_width (p : Pixel) : (s.storePixel p).width = s.width := rfl
@[simp] theorem State.storePixel_height (p : Pixel) : (s.storePixel p).height = s.height := rfl
@[simp] theorem State.storePixel_channels (p : Pixel) : (s.storePixel p).channels = s.channels := rfl
@[simp] theorem State.storePixel_colorspace (p : Pixel) : (s.storePixel p).colorspace = s.colorspace := rfl
@[simp] theorem State.storePixel_total (p : Pixel) : (s.storePixel p).total = s.total := rfl
@[simp] theorem State.storePixel_count (p : Pixel) : (s.storePixel p).count = s.count := rfl
@[simp] theorem State.storePixel_px (p : Pixel) : (s.storePixel p).px = s.px := rfl
@[simp] theorem State.storePixel_cache (p : Pixel) : (s.storePixel p).cache = s.cache.set p.hash.toNat p p.hash.isLt := rfl
@[simp] theorem State.storePixel_run (p : Pixel) : (s.storePixel p).run = s.run := rfl
@[simp] theorem State.storePixel_ipos (p : Pixel) : (s.storePixel p).ipos = s.ipos := rfl
@[simp] theorem State.storePixel_out (p : Pixel) : (s.storePixel p).out = s.out := rfl
@[simp] theorem State.storePixel_opos (p : Pixel) : (s.storePixel p).opos = s.opos := rfl
@[simp] theorem State.storePixel_sent (p : Pixel) : (s.storePixel p).sent = s.sent := rfl
@[simp] theorem State.storePixel_input (p : Pixel) : (s.storePixel p).input = s.input := rfl
@[simp] theorem State.storePixel_inFail (p : Pixel) : (s.storePixel p).inFail = s.inFail := rfl
@[simp] theorem State.storePixel_outFail (p : Pixel) : (s.storePixel p).outFail = s.outFail := rfl
@[simp] theorem State.storePixel_obufBytes (p : Pixel) : (s.storePixel p).obufBytes = s.obufBytes := rfl
@[simp] theorem State.storePixel_sink (p : Pixel) : (s.storePixel p).sink = s.sink := rfl
@[simp] theorem State.storePixel_oldSinks (p : Pixel) : (s.storePixel p).oldSinks = s.oldSinks := rfl
@[simp] theorem State.storePixel_ops (p : Pixel) : (s.storePixel p).ops = s.ops := rfl
@[simp] theorem State.storePixel_results (p : Pixel) : (s.storePixel p).results = s.results := rfl
@[simp] theorem State.storePixel_draws (p : Pixel) : (s.storePixel p).draws = s.draws := rfl

@[simp] theorem State.setAndStore_mode (p : Pixel) : (s.setAndStore p).mode = s.mode := rfl
@[simp] theorem State.setAndStore_status (p : Pixel) : (s.setAndStore p).status = s.status := rfl
@[simp] theorem State.setAndStore_err (p : Pixel) : (s.setAndStore p).err = s.err := rfl
@[simp] theorem State.setAndStore_width (p : Pixel) : (s.setAndStore p).width = s.width := rfl
@[simp] theorem State.setAndStore_height (p : Pixel) : (s.setAndStore p).height = s.height := rfl
@[simp] theorem State.setAndStore_channels (p : Pixel) : (s.setAndStore p).channels = s.channels := rfl
@[simp] theorem State.setAndStore_colorspace (p : Pixel) : (s.setAndStore p).colorspace = s.colorspace := rfl
@[simp] theorem State.setAndStore_total (p : Pixel) : (s.setAndStore p).total = s.total := rfl
@[simp] theorem State.setAndStore_count (p : Pixel) : (s.setAndStore p).count = s.count := rfl
@[simp] theorem State.setAndStore_px (p : Pixel) : (s.setAndStore p).px = p := rfl
@[simp] theorem State.setAndStore_cache (p : Pixel) : (s.setAndStore p).cache = s.cache.set p.hash.toNat p p.hash.isLt := rfl
@[simp] theorem State.setAndStore_run (p : Pixel) : (s.setAndStore p).run = s.run := rfl
@[simp] theorem State.setAndStore_ipos (p : Pixel) : (s.setAndStore p).ipos = s.ipos := rfl
@[simp] theorem State.setAndStore_out (p : Pixel) : (s.setAndStore p).out = s.out := rfl
@[simp] theorem State.setAndStore_opos (p : Pixel) : (s.setAndStore p).opos = s.opos := rfl
@[simp] theorem State.setAndStore_sent (p : Pixel) : (s.setAndStore p).sent = s.sent := rfl
@[simp] theorem State.setAndStore_input (p : Pixel) : (s.setAndStore p).input = s.input := rfl
@[simp] theorem State.setAndStore_inFail (p : Pixel) : (s.setAndStore p).inFail = s.inFail := rfl
@[simp] theorem State.setAndStore_outFail (p : Pixel) : (s.setAndStore p).outFail = s.outFail := rfl
@[simp] theorem State.setAndStore_obufBytes (p : Pixel) : (s.setAndStore p).obufBytes = s.obufBytes := rfl
@[simp] theorem State.setAndStore_sink (p : Pixel) : (s.setAndStore p).sink = s.sink := rfl
@[simp] theorem State.setAndStore_oldSinks (p : Pixel) : (s.setAndStore p).oldSinks = s.oldSinks := rfl
@[simp] theorem State.setAndStore_ops (p : Pixel) : (s.setAndStore p).ops = s.ops := rfl
@[simp] theorem State.setAndStore_results (p : Pixel) : (s.setAndStore p).results = s.results := rfl
@[simp] theorem State.setAndStore_draws (p : Pixel) : (s.setAndStore p).draws = s.draws := rfl

@[simp] theorem State.streamWrite_mode (l : List Byte) : (s.streamWrite l).mode = s.mode := rfl
@[simp] theorem State.streamWrite_status (l : List Byte) : (s.streamWrite l).status = s.status := rfl
@[simp] theorem State.streamWrite_err (l : List Byte) : (s.streamWrite l).err = s.err := rfl
@[simp] theorem State.streamWrite_width (l : List Byte) : (s.streamWrite l).width = s.width := rfl
@[simp] theorem State.streamWrite_height (l : List Byte) : (s.streamWrite l).height = s.height := rfl
@[simp] theorem State.streamWrite_channels (l : List Byte) : (s.streamWrite l).channels = s.channels := rfl
@[simp] theorem State.streamWrite_colorspace (l : List Byte) : (s.streamWrite l).colorspace = s.colorspace := rfl
@[simp] theorem State.streamWrite_total (l : List Byte) : (s.streamWrite l).total = s.total := rfl
@[simp] theorem State.streamWrite_count (l : List Byte) : (s.streamWrite l).count = s.count := rfl
@[simp] theorem State.streamWrite_px (l : List Byte) : (s.streamWrite l).px = s.px := rfl
@[simp] theorem State.streamWrite_cache (l : List Byte) : (s.streamWrite l).cache = s.cache := rfl
@[simp] theorem State.streamWrite_run (l : List Byte) : (s.streamWrite l).run = s.run := rfl
@[simp] theorem State.streamWrite_ipos (l : List Byte) : (s.streamWrite l).ipos = s.ipos := rfl
@[simp] theorem State.streamWrite_out (l : List Byte) : (s.streamWrite l).out = s.out ++ l := rfl
@[simp] theorem State.streamWrite_opos (l : List Byte) : (s.streamWrite l).opos = s.opos + l.length := rfl
@[simp] theorem State.streamWrite_sent (l : List Byte) : (s.streamWrite l).sent = s.sent := rfl
@[simp] theorem State.streamWrite_input (l : List Byte) : (s.streamWrite l).input = s.input := rfl
@[simp] theorem State.streamWrite_inFail (l : List Byte) : (s.streamWrite l).inFail = s.inFail := rfl
@[simp] theorem State.streamWrite_outFail (l : List Byte) : (s.streamWrite l).outFail = s.outFail := rfl
@[simp] theorem State.streamWrite_obufBytes (l : List Byte) : (s.streamWrite l).obufBytes = s.obufBytes := rfl
@[simp] theorem State.streamWrite_sink (l : List Byte) : (s.streamWrite l).sink = s.sink := rfl
@[simp] theorem State.streamWrite_oldSinks (l : List Byte) : (s.streamWrite l).oldSinks = s.oldSinks := rfl
@[simp] theorem State.streamWrite_ops (l : List Byte) : (s.streamWrite l).ops = s.ops := rfl
@[simp] theorem State.streamWrite_results (l : List Byte) : (s.streamWrite l).results = s.results := rfl
@[simp] theorem State.streamWrite_draws (l : List Byte) : (s.streamWrite l).draws = s.draws := rfl

@[simp] theorem State.receive_mode (l : List Byte) : (s.receive l).mode = s.mode := rfl
@[simp] theorem State.receive_status (l : List Byte) : (s.receive l).status = s.status := rfl
@[simp] theorem State.receive_err (l : List Byte) : (s.receive l).err = s.err := rfl
@[simp] theorem State.receive_width (l : List Byte) : (s.receive l).width = s.width := rfl
@[simp] theorem State.receive_height (l : List Byte) : (s.receive l).height = s.height := rfl
@[simp] theorem State.receive_channels (l : List Byte) : (s.receive l).channels = s.channels := rfl
@[simp] theorem State.receive_colorspace (l : List Byte) : (s.receive l).colorspace = s.colorspace := rfl
@[simp] theorem State.receive_total (l : List Byte) : (s.receive l).total = s.total := rfl
@[simp] theorem State.receive_count (l : List Byte) : (s.receive l).count = s.count := rfl
@[simp] theorem State.receive_px (l : List Byte) : (s.receive l).px = s.px := rfl
@[simp] theorem State.receive_cache (l : List Byte) : (s.receive l).cache = s.cache := rfl
@[simp] theorem State.receive_run (l : List Byte) : (s.receive l).run = s.run := rfl
@[simp] theorem State.receive_ipos (l : List Byte) : (s.receive l).ipos = s.ipos := rfl
@[simp] theorem State.receive_out (l : List Byte) : (s.receive l).out = s.out := rfl
@[simp] theorem State.receive_opos (l : List Byte) : (s.receive l).opos = s.opos := rfl
@[simp] theorem State.receive_sent (l : List Byte) : (s.receive l).sent = s.sent := rfl
@[simp] theorem State.receive_input (l : List Byte) : (s.receive l).input = s.input := rfl
@[simp] theorem State.receive_inFail (l : List Byte) : (s.receive l).inFail = s.inFail := rfl
@[simp] theorem State.receive_outFail (l : List Byte) : (s.receive l).outFail = s.outFail := rfl
@[simp] theorem State.receive_obufBytes (l : List Byte) : (s.receive l).obufBytes = s.obufBytes := rfl
@[simp] theorem State.receive_sink (l : List Byte) : (s.receive l).sink = s.sink ++ l := rfl
@[simp] theorem State.receive_oldSinks (l : List Byte) : (s.receive l).oldSinks = s.oldSinks := rfl
@[simp] theorem State.receive_ops (l : List Byte) : (s.receive l).ops = s.ops := rfl
@[simp] theorem State.receive_results (l : List Byte) : (s.receive l).results = s.results := rfl
@[simp] theorem State.receive_draws (l : List Byte) : (s.receive l).draws = s.draws := rfl

@[simp] theorem State.raise_mode (k : ErrCode) (e : ErrInfo) : (s.raise k e).mode = s.mode := rfl
@[simp] theorem State.raise_status (k : ErrCode) (e : ErrInfo) : (s.raise k e).status = .error := rfl
@[simp] theorem State.raise_err (k : ErrCode) (e : ErrInfo) : (s.raise k e).err = k := rfl
@[simp] theorem State.raise_width (k : ErrCode) (e : ErrInfo) : (s.raise k e).width = s.width := rfl
@[simp] theorem State.raise_height (k : ErrCode) (e : ErrInfo) : (s.raise k e).height = s.height := rfl
@[simp] theorem State.raise_channels (k : ErrCode) (e : ErrInfo) : (s.raise k e).channels = s.channels := rfl
@[simp] theorem State.raise_colorspace (k : ErrCode) (e : ErrInfo) : (s.raise k e).colorspace = s.colorspace := rfl
@[simp] theorem State.raise_total (k : ErrCode) (e : ErrInfo) : (s.raise k e).total = s.total := rfl
@[simp] theorem State.raise_count (k : ErrCode) (e : ErrInfo) : (s.raise k e).count = s.count := rfl
@[simp] theorem State.raise_px (k : ErrCode) (e : ErrInfo) : (s.raise k e).px = s.px := rfl
@[simp] theorem State.raise_cache (k : ErrCode) (e : ErrInfo) : (s.raise k e).cache = s.cache := rfl
@[simp] theorem State.raise_run (k : ErrCode) (e : ErrInfo) : (s.raise k e).run = s.run := rfl
@[simp] theorem State.raise_ipos (k : ErrCode) (e : ErrInfo) : (s.raise k e).ipos = Config.freeIpos s.draws := rfl
@[simp] theorem State.raise_out (k : ErrCode) (e : ErrInfo) : (s.raise k e).out = Config.freeOut s.draws := rfl
@[simp] theorem State.raise_opos (k : ErrCode) (e : ErrInfo) : (s.raise k e).opos = Config.freeOpos s.draws := rfl
@[simp] theorem State.raise_sent (k : ErrCode) (e : ErrInfo) : (s.raise k e).sent = Config.freeSent s.draws := rfl
@[simp] theorem State.raise_input (k : ErrCode) (e : ErrInfo) : (s.raise k e).input = s.input := rfl
@[simp] theorem State.raise_inFail (k : ErrCode) (e : ErrInfo) : (s.raise k e).inFail = s.inFail := rfl
@[simp] theorem State.raise_outFail (k : ErrCode) (e : ErrInfo) : (s.raise k e).outFail = s.outFail := rfl
@[simp] theorem State.raise_obufBytes (k : ErrCode) (e : ErrInfo) : (s.raise k e).obufBytes = s.obufBytes := rfl
@[simp] theorem State.raise_sink (k : ErrCode) (e : ErrInfo) : (s.raise k e).sink = s.sink := rfl
@[simp] theorem State.raise_oldSinks (k : ErrCode) (e : ErrInfo) : (s.raise k e).oldSinks = s.oldSinks := rfl
@[simp] theorem State.raise_ops (k : ErrCode) (e : ErrInfo) : (s.raise k e).ops = s.ops := rfl
@[simp] theorem State.raise_results (k : ErrCode) (e : ErrInfo) : (s.raise k e).results = s.results ++ [.error k (some e)] := rfl
@[simp] theorem State.raise_draws (k : ErrCode) (e : ErrInfo) : (s.raise k e).draws = s.draws + 1 := rfl

@[simp] theorem State.stickyError_mode : (s.stickyError).mode = s.mode := rfl
@[simp] theorem State.stickyError_status : (s.stickyError).status = s.status := rfl
@[simp] theorem State.stickyError_err : (s.stickyError).err = s.err := rfl
@[simp] theorem State.stickyError_width : (s.stickyError).width = s.width := rfl
@[simp] theorem State.stickyError_height : (s.stickyError).height = s.height := rfl
@[simp] theorem State.stickyError_channels : (s.stickyError).channels = s.channels := rfl
@[simp] theorem State.stickyError_colorspace : (s.stickyError).colorspace = s.colorspace := rfl
@[simp] theorem State.stickyError_total : (s.stickyError).total = s.total := rfl
@[simp] theorem State.stickyError_count : (s.stickyError).count = s.count := rfl
@[simp] theorem State.stickyError_px : (s.stickyError).px = s.px := rfl
@[simp] theorem State.stickyError_cache : (s.stickyError).cache = s.cache := rfl
@[simp] theorem State.stickyError_run : (s.stickyError).run = s.run := rfl
@[simp] theorem State.stickyError_ipos : (s.stickyError).ipos = s.ipos := rfl
@[simp] theorem State.stickyError_out : (s.stickyError).out = s.out := rfl
@[simp] theorem State.stickyError_opos : (s.stickyError).opos = s.opos := rfl
@[simp] theorem State.stickyError_sent : (s.stickyError).sent = s.sent := rfl
@[simp] theorem State.stickyError_input : (s.stickyError).input = s.input := rfl
@[simp] theorem State.stickyError_inFail : (s.stickyError).inFail = s.inFail := rfl
@[simp] theorem State.stickyError_outFail : (s.stickyError).outFail = s.outFail := rfl
@[simp] theorem State.stickyError_obufBytes : (s.stickyError).obufBytes = s.obufBytes := rfl
@[simp] theorem State.stickyError_sink : (s.stickyError).sink = s.sink := rfl
@[simp] theorem State.stickyError_oldSinks : (s.stickyError).oldSinks = s.oldSinks := rfl
@[simp] theorem State.stickyError_ops : (s.stickyError).ops = s.ops := rfl
@[simp] theorem State.stickyError_results : (s.stickyError).results = s.results ++ [.error s.err none] := rfl
@[simp] theorem State.stickyError_draws : (s.stickyError).draws = s.draws := rfl

@[simp] theorem State.bumpCount_mode : s.bumpCount.mode = s.mode := by unfold State.bumpCount; split <;> rfl
@[simp] theorem State.bumpCount_status : s.bumpCount.status = s.status := by unfold State.bumpCount; split <;> rfl
@[simp] theorem State.bumpCount_err : s.bumpCount.err = s.err := by unfold State.bumpCount; split <;> rfl
@[simp] theorem State.bumpCount_width : s.bumpCount.width = s.width := by unfold State.bumpCount; split <;> rfl
@[simp] theorem State.bumpCount_height : s.bumpCount.height = s.height := by unfold State.bumpCount; split <;> rfl
@[simp] theorem State.bumpCount_channels : s.bumpCount.channels = s.channels := by unfold State.bumpCount; split <;> rfl
@[simp] theorem State.bumpCount_colorspace : s.bumpCount.colorspace = s.colorspace := by unfold State.bumpCount; split <;> rfl
@[simp] theorem State.bumpCount_total : s.bumpCount.total = s.total := by unfold State.bumpCount; split <;> rfl
@[simp] theorem State.bumpCount_px : s.bumpCount.px = s.px := by unfold State.bumpCount; split <;> rfl
@[simp] theorem State.bumpCount_cache : s.bumpCount.cache = s.cache := by unfold State.bumpCount; split <;> rfl
@[simp] theorem State.bumpCount_run : s.bumpCount.run = s.run := by unfold State.bumpCount; split <;> rfl
@[simp] theorem State.bumpCount_ipos : s.bumpCount.ipos = s.ipos := by unfold State.bumpCount; split <;> rfl
@[simp] theorem State.bumpCount_out : s.bumpCount.out = s.out := by unfold State.bumpCount; split <;> rfl
@[simp] theorem State.bumpCount_opos : s.bumpCount.opos = s.opos := by unfold State.bumpCount; split <;> rfl
@[simp] theorem State.bumpCount_sent : s.bumpCount.sent = s.sent := by unfold State.bumpCount; split <;> rfl
@[simp] theorem State.bumpCount_input : s.bumpCount.input = s.input := by unfold State.bumpCount; split <;> rfl
@[simp] theorem State.bumpCount_inFail : s.bumpCount.inFail = s.inFail := by unfold State.bumpCount; split <;> rfl
@[simp] theorem State.bumpCount_outFail : s.bumpCount.outFail = s.outFail := by unfold State.bumpCount; split <;> rfl
@[simp] theorem State.bumpCount_obufBytes : s.bumpCount.obufBytes = s.obufBytes := by unfold State.bumpCount; split <;> rfl
@[simp] theorem State.bumpCount_sink : s.bumpCount.sink = s.sink := by unfold State.bumpCount; split <;> rfl
@[simp] theorem State.bumpCount_oldSinks : s.bumpCount.oldSinks = s.oldSinks := by unfold State.bumpCount; split <;> rfl
@[simp] theorem State.bumpCount_ops : s.bumpCount.ops = s.ops := by unfold State.bumpCount; split <;> rfl
@[simp] theorem State.bumpCount_results : s.bumpCount.results = s.results := by unfold State.bumpCount; split <;> rfl

end Sys2Proof.Machine
end

