-- ==== Sys2Proof/Laws/Ops.lean ====
section
/-!
SUPPORT. One lemma for each shared operation of Machine/Ops.lean, saying everything it can do: the cache, the reads, the delivery,
counting a pixel, and flushing a run.
-/

namespace Sys2Proof.Machine

/-- `lookup` reads the cache and nothing else. -/
theorem State.lookup_congr {s t : State} (h : s.cache = t.cache) (i : BitVec 6) : s.lookup i = t.lookup i := by
  simp [State.lookup, h]

@[simp] theorem State.lookup_withPx (s : State) (p : Pixel) (i : BitVec 6) : (s.withPx p).lookup i = s.lookup i := rfl
@[simp] theorem State.lookup_withRun (s : State) (n : BitVec 14) (i : BitVec 6) : (s.withRun n).lookup i = s.lookup i := rfl
@[simp] theorem State.lookup_withOps (s : State) (l : List HostOp) (i : BitVec 6) : (s.withOps l).lookup i = s.lookup i := rfl
@[simp] theorem State.lookup_withStatus (s : State) (v : Status) (i : BitVec 6) : (s.withStatus v).lookup i = s.lookup i := rfl
@[simp] theorem State.lookup_advance (s : State) (n : Nat) (i : BitVec 6) : (s.advance n).lookup i = s.lookup i := rfl
@[simp] theorem State.lookup_withSent (s : State) (n : Nat) (i : BitVec 6) : (s.withSent n).lookup i = s.lookup i := rfl
@[simp] theorem State.lookup_drawn (s : State) (i : BitVec 6) : s.drawn.lookup i = s.lookup i := rfl
@[simp] theorem State.lookup_report (s : State) (r : Result) (i : BitVec 6) : (s.report r).lookup i = s.lookup i := rfl
@[simp] theorem State.lookup_streamWrite (s : State) (l : List Byte) (i : BitVec 6) : (s.streamWrite l).lookup i = s.lookup i := rfl
@[simp] theorem State.lookup_receive (s : State) (l : List Byte) (i : BitVec 6) : (s.receive l).lookup i = s.lookup i := rfl
@[simp] theorem State.lookup_raise (s : State) (k : ErrCode) (e : ErrInfo) (i : BitVec 6) : (s.raise k e).lookup i = s.lookup i := rfl
@[simp] theorem State.lookup_bumpCount (s : State) (i : BitVec 6) : s.bumpCount.lookup i = s.lookup i :=
  State.lookup_congr (by simp) i

/-- A store changes the pixel's own slot and no other. -/
@[simp] theorem State.lookup_storePixel (s : State) (p : Pixel) (i : BitVec 6) :
    (s.storePixel p).lookup i = if i = p.hash then p else s.lookup i := by
  simp only [State.lookup, State.storePixel, Vector.getElem_set, BitVec.toNat_inj, eq_comm]

@[simp] theorem State.lookup_setAndStore (s : State) (p : Pixel) (i : BitVec 6) :
    (s.setAndStore p).lookup i = if i = p.hash then p else s.lookup i := by
  simp [State.setAndStore]

/-- Two caches that answer every lookup alike are one cache. -/
theorem State.cache_ext {s t : State} (h : ∀ i, s.lookup i = t.lookup i) : s.cache = t.cache := by
  apply Vector.ext
  intro i hi
  have := h (BitVec.ofNat 6 i)
  simpa [State.lookup, Nat.mod_eq_of_lt (show i < 64 from hi)] using this

@[simp] theorem State.advance_zero (s : State) : s.advance 0 = s := rfl

theorem State.advance_advance (s : State) (m n : Nat) : (s.advance m).advance n = s.advance (m + n) := by
  simp [State.advance, Nat.add_assoc]

/-- A read succeeds exactly when there is a byte at IPOS and no failure there; it takes that byte. -/
theorem State.streamRead_ok_iff (s t : State) (v : Byte) :
    s.streamRead = .ok (v, t) ↔ s.inFail ≠ some s.ipos ∧ s.input[s.ipos]? = some v ∧ t = s.advance 1 := by
  unfold State.streamRead
  grind

/-- A read fails at IPOS, an input failure coming before end of stream. -/
theorem State.streamRead_error_iff (s : State) (e : ErrInfo) :
    s.streamRead = .error e ↔
      (s.inFail = some s.ipos ∧ e = ⟨.ioFailure, s.ipos⟩) ∨
      (s.inFail ≠ some s.ipos ∧ s.input.length ≤ s.ipos ∧ e = ⟨.endOfStream, s.ipos⟩) := by
  unfold State.streamRead
  split
  · simp_all [eq_comm]
  · split <;> rename_i h
    · simp_all [eq_comm]
    · have := (List.getElem?_eq_some_iff.mp h).1
      simp_all

/-- Reading one byte and then `n` more. -/
theorem State.readBytes_succ_ok_iff (n : Nat) (s t : State) (vs : List Byte) :
    s.readBytes (n + 1) = .ok (vs, t) ↔
      ∃ v ws s1, vs = v :: ws ∧ s.streamRead = .ok (v, s1) ∧ s1.readBytes n = .ok (ws, t) := by
  rw [State.readBytes]
  grind

/-- IN from IPOS on, split at the byte a read takes. -/
theorem State.drop_ipos_of_getElem? {s : State} {v : Byte} (h : s.input[s.ipos]? = some v) :
    s.input.drop s.ipos = v :: s.input.drop (s.ipos + 1) := by
  obtain ⟨hlt, hget⟩ := List.getElem?_eq_some_iff.mp h
  rw [List.drop_eq_getElem_cons hlt, hget]

/-- Reading `n` bytes succeeds exactly when IN holds them from IPOS on and fails at none of their positions. -/
theorem State.readBytes_ok_iff (n : Nat) (s t : State) (vs : List Byte) :
    s.readBytes n = .ok (vs, t) ↔
      vs.length = n ∧ vs <+: s.input.drop s.ipos ∧ (∀ k < n, s.inFail ≠ some (s.ipos + k)) ∧ t = s.advance n := by
  induction n generalizing s t vs with
  | zero =>
    simp only [State.readBytes, Except.ok.injEq, Prod.mk.injEq, List.length_eq_zero_iff, State.advance_zero]
    constructor
    · rintro ⟨rfl, rfl⟩; simp
    · rintro ⟨rfl, -, -, rfl⟩; simp
  | succ n ih =>
    simp only [State.readBytes_succ_ok_iff, State.streamRead_ok_iff, ih]
    constructor
    · rintro ⟨v, ws, _, rfl, ⟨hf0, hv, rfl⟩, hl, hp, hf, rfl⟩
      refine ⟨by simp [hl], ?_, ?_, by rw [State.advance_advance, Nat.add_comm]⟩
      · rw [State.drop_ipos_of_getElem? hv]
        exact List.cons_prefix_cons.mpr ⟨rfl, hp⟩
      · rintro (_ | k) hk
        · exact hf0
        · have := hf k (by omega)
          rwa [State.advance_inFail, State.advance_ipos, Nat.add_assoc, Nat.add_comm 1 k] at this
    · rintro ⟨hl, hp, hf, rfl⟩
      obtain _ | ⟨v, ws⟩ := vs
      · simp at hl
      obtain ⟨rest, hr⟩ := hp
      have hv : s.input[s.ipos]? = some v := by
        have := congrArg (fun l => l[0]?) hr
        simpa [eq_comm] using this
      refine ⟨v, ws, _, rfl, ⟨hf 0 (by omega), hv, rfl⟩, by simpa using hl, ?_, ?_, ?_⟩
      · rw [State.drop_ipos_of_getElem? hv] at hr
        exact ⟨rest, by simpa using hr⟩
      · intro k hk
        have := hf (k + 1) (by omega)
        rwa [State.advance_inFail, State.advance_ipos, Nat.add_assoc, Nat.add_comm 1 k]
      · rw [State.advance_advance, Nat.add_comm]

/-- Reading one byte and then `n` more fails at the first or after it. -/
theorem State.readBytes_succ_error_iff (n : Nat) (s : State) (e : ErrInfo) :
    s.readBytes (n + 1) = .error e ↔
      s.streamRead = .error e ∨ ∃ v s1, s.streamRead = .ok (v, s1) ∧ s1.readBytes n = .error e := by
  rw [State.readBytes]
  grind

/-- `e` is the StreamError of position `k` of the input, and every position from IPOS up to it can be read: the first read that
fails (rule R333). -/
def State.FirstFailure (s : State) (e : ErrInfo) (k : Nat) : Prop :=
  (∀ j < k, s.inFail ≠ some (s.ipos + j) ∧ s.ipos + j < s.input.length) ∧
    ((s.inFail = some (s.ipos + k) ∧ e = ⟨.ioFailure, s.ipos + k⟩) ∨
     (s.inFail ≠ some (s.ipos + k) ∧ s.input.length ≤ s.ipos + k ∧ e = ⟨.endOfStream, s.ipos + k⟩))

/-- Reading `n` bytes fails at the first position that fails. -/
theorem State.readBytes_error (n : Nat) (s : State) (e : ErrInfo) (h : s.readBytes n = .error e) :
    ∃ k < n, s.FirstFailure e k := by
  induction n generalizing s with
  | zero => simp [State.readBytes] at h
  | succ n ih =>
    rcases (State.readBytes_succ_error_iff n s e).mp h with h | ⟨v, s1, h1, h⟩
    · exact ⟨0, by omega, by omega, by simpa using (s.streamRead_error_iff e).mp h⟩
    · obtain ⟨hf0, hv, rfl⟩ := (s.streamRead_ok_iff s1 v).mp h1
      have hlt := (List.getElem?_eq_some_iff.mp hv).1
      obtain ⟨k, hk, hb, he⟩ := ih (s.advance 1) h
      refine ⟨k + 1, by omega, ?_, ?_⟩
      · rintro (_ | j) hj
        · exact ⟨by simpa using hf0, by simpa using hlt⟩
        · have := hb j (by omega)
          rwa [State.advance_inFail, State.advance_ipos, State.advance_input, Nat.add_assoc, Nat.add_comm 1 j] at this
      · rwa [State.advance_inFail, State.advance_ipos, State.advance_input, Nat.add_assoc, Nat.add_comm 1 k] at he

/-- A dispatch is the read of a tag byte, then of its operand bytes. -/
theorem State.dispatch_ok_iff_reads (s t : State) (i : Instr) :
    s.dispatch = .ok (i, t) ↔
      ∃ tag operands, s.readBytes (operandBytes tag + 1) = .ok (tag :: operands, t) ∧ i = buildInstr tag operands := by
  simp only [State.readBytes_succ_ok_iff]
  unfold State.dispatch
  grind

/-- A dispatch succeeds exactly when a whole opcode stands at IPOS and no failure lies inside it; IPOS moves past it. -/
theorem State.dispatch_ok_iff (s t : State) (i : Instr) :
    s.dispatch = .ok (i, t) ↔
      ∃ (tag : Byte) (operands : List Byte),
        tag :: operands <+: s.input.drop s.ipos ∧ operands.length = operandBytes tag ∧ i = buildInstr tag operands ∧
        (∀ k < tagLength tag, s.inFail ≠ some (s.ipos + k)) ∧ t = s.advance (tagLength tag) := by
  simp only [State.dispatch_ok_iff_reads, State.readBytes_ok_iff, tagLength, Nat.add_comm 1]
  constructor
  · rintro ⟨tag, operands, ⟨hl, hp, hf, ht⟩, hi⟩
    exact ⟨tag, operands, hp, by simpa using hl, hi, hf, ht⟩
  · rintro ⟨tag, operands, hp, hl, hi, hf, ht⟩
    exact ⟨tag, operands, ⟨by simpa using hl, hp, hf, ht⟩, hi⟩

/-- A dispatch fails at the first read that fails (rule R333), within the longest opcode. -/
theorem State.dispatch_error (s : State) (e : ErrInfo) (h : s.dispatch = .error e) :
    ∃ k, s.FirstFailure e k := by
  unfold State.dispatch at h
  cases h1 : s.streamRead with
  | error e' =>
    have : s.readBytes 1 = .error e' := (State.readBytes_succ_error_iff 0 s e').mpr (.inl h1)
    obtain ⟨k, -, hk⟩ := State.readBytes_error _ s e' this
    exact ⟨k, by simp_all⟩
  | ok r =>
    obtain ⟨tag, s1⟩ := r
    cases h2 : s1.readBytes (operandBytes tag) with
    | ok r => simp [h1, h2] at h
    | error e' =>
      obtain rfl : e' = e := by simpa [h1, h2] using h
      have := (State.readBytes_succ_error_iff (operandBytes tag) s e').mpr (.inr ⟨tag, s1, h1, h2⟩)
      obtain ⟨k, -, hk⟩ := State.readBytes_error _ s e' this
      exact ⟨k, hk⟩

/-- COUNT grows by one, unless it stands at its last value. -/
theorem State.bumpCount_of_ne {s : State} (h : s.count ≠ BitVec.allOnes 64) :
    s.bumpCount = { s with count := s.count + 1 } := by
  exact if_neg h

/-- COUNT grows by one as a number while it is below 2^64 - 1. -/
theorem State.bumpCount_count_toNat {s : State} (h : s.count.toNat + 1 < 2 ^ 64) :
    s.bumpCount.count.toNat = s.count.toNat + 1 := by
  have hne : s.count ≠ BitVec.allOnes 64 := by
    intro heq; rw [heq] at h; simp at h
  rw [State.bumpCount_of_ne hne]
  simp [BitVec.toNat_add]; omega

/-- A delivery succeeds exactly when the sink's failing position is not among the delivered ones. -/
theorem State.deliverTo_ok_iff (s t : State) (target : Nat) :
    s.deliverTo target = .ok t ↔
      (∀ k, s.outFail = some k → ¬(s.sent ≤ k ∧ k < target)) ∧
      t = (s.receive (s.outSlice s.sent target)).withSent target := by
  unfold State.deliverTo
  cases s.outFail with
  | none => simp [eq_comm]
  | some k =>
    by_cases h : s.sent ≤ k ∧ k < target
    · simp only [h, and_self, if_true, reduceCtorEq, false_iff]; simp_all
    · simp only [h, if_false, Except.ok.injEq]
      constructor
      · rintro rfl; exact ⟨by rintro _ ⟨⟩; exact h, rfl⟩
      · rintro ⟨-, rfl⟩; rfl

/-- A delivery fails exactly when the sink's failing position is among the delivered ones; the bytes before it are received. -/
theorem State.deliverTo_error_iff (s : State) (target : Nat) (e : ErrInfo) (received : List Byte) :
    s.deliverTo target = .error (e, received) ↔
      ∃ k, s.outFail = some k ∧ s.sent ≤ k ∧ k < target ∧ e = ⟨.ioFailure, k⟩ ∧ received = s.outSlice s.sent k := by
  unfold State.deliverTo
  cases s.outFail with
  | none => simp
  | some k =>
    by_cases h : s.sent ≤ k ∧ k < target
    · simp [h, eq_comm]
    · simp only [h, if_false, reduceCtorEq, false_iff]
      rintro ⟨_, ⟨⟩, h1, h2, -⟩
      exact h ⟨h1, h2⟩

/-- A target lies in the range of rule R306 while SENT is at most OPOS. -/
theorem State.deliveryTarget_bounds (s : State) (draw : Nat) (h : s.sent ≤ s.opos) :
    s.sent ≤ s.deliveryTarget draw ∧ s.opos - s.obufBytes ≤ s.deliveryTarget draw ∧ s.deliveryTarget draw ≤ s.opos := by
  unfold State.deliveryTarget; simp only; split <;> omega

/-- Every target in the range of rule R306 is some draw's. -/
theorem State.deliveryTarget_surjective (s : State) (target : Nat) (h1 : s.sent ≤ target) (h2 : s.opos - s.obufBytes ≤ target)
    (h3 : target ≤ s.opos) : s.deliveryTarget target = target := by
  unfold State.deliveryTarget; simp only; split <;> omega

/-- A run length has an opcode exactly when it is 1 to 8224. -/
theorem runInstr_eq_none_iff (n : Nat) : runInstr n = none ↔ n = 0 ∨ 8224 < n := by
  unfold runInstr Config.run8Max Config.runMax
  split_ifs <;> simp <;> omega

/-- FlushRun emits the run's opcode and clears RUN, or faults where the run has no encoding. -/
theorem State.flushRun_ok_iff (s t : State) :
    s.flushRun = .ok t ↔ ∃ i, runInstr s.run.toNat = some i ∧ t = (s.streamWrite (encode i)).withRun 0 := by
  unfold State.flushRun
  grind

end Sys2Proof.Machine
end

