-- ==== Sys2Proof/Laws/Step.lean ====
section
/-!
SUPPORT. What a step can do, said once per operation: if it answers next, then one of the listed cases holds.
-/

namespace Sys2Proof.Machine

/-- Every arm of `exec` writes at most PX, RUN and CACHE. -/
theorem exec_next_frame {i : Instr} {s t : State} (h : exec i s = .next t) :
    t = { s with px := t.px, cache := t.cache, run := t.run } := by
  cases i <;> simp only [exec, execIndex, execRun8, execRun16, execDiff8, execDiff16, execDiff24, execColor] at h
  case color => split at h <;> cases h; rfl
  all_goals cases h; rfl

/-- The same, field by field. -/
theorem exec_next_keeps {i : Instr} {s t : State} (h : exec i s = .next t) :
    t.mode = s.mode ∧ t.status = s.status ∧ t.err = s.err ∧ t.width = s.width ∧ t.height = s.height ∧ t.channels =
    s.channels ∧ t.colorspace = s.colorspace ∧ t.total = s.total ∧ t.count = s.count ∧ t.ipos = s.ipos ∧ t.out = s.out ∧
    t.opos = s.opos ∧ t.sent = s.sent ∧ t.input = s.input ∧ t.inFail = s.inFail ∧ t.outFail = s.outFail ∧ t.obufBytes =
    s.obufBytes ∧ t.sink = s.sink ∧ t.oldSinks = s.oldSinks ∧ t.ops = s.ops ∧ t.results = s.results ∧ t.draws = s.draws := by
  have hf := exec_next_frame h
  generalize t.px = p, t.cache = c, t.run = r at hf
  subst hf
  simp

/-- No arm of `exec` faults. -/
theorem exec_ne_fault (i : Instr) (s : State) (r : Fault) : exec i s ≠ .fault r := by
  cases i <;> simp only [exec, execIndex, execRun8, execRun16, execDiff8, execDiff16, execDiff24, execColor]
  case color => split <;> simp
  all_goals simp

/-- What a dispatched instruction is: well formed, standing at IPOS. -/
theorem State.dispatch_wf {s t : State} {i : Instr} (h : s.dispatch = .ok (i, t)) : i.wf = true := by
  obtain ⟨tag, operands, -, hl, rfl, -⟩ := (State.dispatch_ok_iff s t i).mp h
  exact buildInstr_wf tag operands hl

/-- Everything a Pull in an active pass can answer next. -/
theorem pullActive_cases {s t : State} (h : pullActive s = .next t) :
    (s.runActive = true ∧ t = (s.withRun (s.run - 1)).completePull) ∨
    (s.runActive = false ∧ ∃ info, s.dispatch = .error info ∧ t = s.raise .stream info) ∨
    (s.runActive = false ∧ ∃ i s1 s2, s.dispatch = .ok (i, s1) ∧ exec i s1 = .next s2 ∧ t = s2.completePull) := by
  unfold pullActive at h
  grind

/-- Everything a Pull can answer next. -/
theorem pull_cases {s t : State} (h : pull s = .next t) :
    s.mode = .decode ∧
      ((s.status = .error ∧ t = s.stickyError) ∨ (s.status = .done ∧ t = s.report .endOfPass) ∨
       (s.status = .active ∧ pullActive s = .next t)) := by
  unfold pull at h
  split at h <;> grind

/-- Everything a Push can answer next. -/
theorem pushWith_cases {draw : Nat} {p : Pixel} {s t : State} (h : pushWith draw p s = .next t) :
    s.mode = .encode ∧
      ((s.status = .error ∧ t = s.stickyError) ∨
       (s.status = .active ∧ ∃ s1, s.drawn.encodePixel p = .ok s1 ∧
          t = s.drawn.afterDelivery (s1.bumpCount.deliver draw) id)) := by
  unfold pushWith pushActive at h
  grind

/-- Everything a Finish can answer next. -/
theorem finish_cases {s t : State} (h : finish s = .next t) :
    s.mode = .encode ∧
      ((s.status = .error ∧ t = s.stickyError) ∨
       (s.status = .active ∧ ∃ s1, (if s.runActive then s.flushRun else .ok s) = .ok s1 ∧
          t = s.afterDelivery s1.flushOutput (State.withStatus .done))) := by
  unfold finish finishActive at h
  grind

/-- How a delivering operation ends: in success, or rolled back with the received bytes kept. -/
theorem State.afterDelivery_cases (before : State) (result : Except (ErrInfo × List Byte) State) (ok : State → State) :
    (∃ s, result = .ok s ∧ before.afterDelivery result ok = (ok s).report .ok) ∨
    (∃ info received, result = .error (info, received) ∧
      before.afterDelivery result ok = (before.receive received).raise .stream info) := by
  match result with
  | .ok s => exact .inl ⟨s, rfl, rfl⟩
  | .error (info, received) => exact .inr ⟨info, received, rfl, rfl⟩

/-- Everything a pushed pixel can do before it is counted. -/
theorem State.encodePixel_cases {p : Pixel} {s t : State} (h : s.encodePixel p = .ok t) :
    (p = s.px ∧ s.run.toNat + 1 < 8224 ∧ t = s.withRun (BitVec.ofNat 14 (s.run.toNat + 1))) ∨
    (p = s.px ∧ 8224 ≤ s.run.toNat + 1 ∧ (s.withRun (BitVec.ofNat 14 (s.run.toNat + 1))).flushRun = .ok t) ∨
    (p ≠ s.px ∧ s.runActive = true ∧ ∃ s1, s.flushRun = .ok s1 ∧ t = s1.encodeDistinct p) ∨
    (p ≠ s.px ∧ s.runActive = false ∧ t = s.encodeDistinct p) := by
  unfold State.encodePixel State.encodeRunPixel Config.runMax at h
  grind

/-- Everything a step can answer next. -/
theorem step_cases {s t : State} (h : step s = .next t) :
    (s.ops = [] ∧ t = s) ∨ ∃ op rest, s.ops = op :: rest ∧ runOp op (s.withOps rest) = .next t := by
  unfold step nextStep at h
  cases ho : s.ops with
  | nil => grind
  | cons op rest => simp_all

/-- Running `k + 1` steps is one step and then `k`. -/
theorem core_run_succ (k : Nat) (s : State) :
    Host.Core.run core (k + 1) s =
      match step s with
      | .next t => Host.Core.run core k t
      | .fault r => .fault r
      | .refused r => .refused r := by
  have h := Host.Core.run.eq_2 core s k
  rw [show Host.Core.step core s = step s from rfl] at h
  rw [h]
  cases step s <;> rfl

/-- Running `k + 1` steps ends in a next state exactly when the first step does and `k` steps from there do. -/
theorem core_run_succ_next_iff (k : Nat) (s u : State) :
    Host.Core.run core (k + 1) s = .next u ↔ ∃ t, step s = .next t ∧ Host.Core.run core k t = .next u := by
  rw [core_run_succ]
  cases step s <;> simp

end Sys2Proof.Machine
end

