-- ==== Sys2Proof/Laws/Encoder.lean ====
section
/-!
SUPPORT. The encoder in closed form: the registers and the bytes a Push leaves, as functions of the registers before it and of the
pixel, and what Push and Finish answer.
-/

namespace Sys2Proof.Machine

/-- A field of a delta in its range, as a number (rule R90). -/
theorem toNat_biased (w bias : Nat) (d : Int) (h0 : 0 ≤ d + bias) (h1 : d + bias < 2 ^ w) :
    (((biased w bias d).toNat : Nat) : Int) = d + bias := by
  unfold biased
  rw [BitVec.toNat_ofInt]
  have : ((2 ^ w : Nat) : Int) = 2 ^ w := by simp
  rw [this, Int.emod_eq_of_lt h0 h1]
  omega

/-- Taking the bias off a field gives the delta it was made of (rules R89, R90). -/
theorem unbias_biased (w bias : Nat) (d : Int) (h0 : 0 ≤ d + bias) (h1 : d + bias < 2 ^ w) : unbias bias (biased w bias d) = d := by
  unfold unbias; rw [toNat_biased w bias d h0 h1]; omega

/-- `wrap8` as a number (rule R12). -/
theorem toNat_wrap8 (v : Int) : ((wrap8 v).toNat : Int) = v % 256 := by
  unfold wrap8; rw [BitVec.toNat_ofInt]
  omega

/-- A number that is a byte wraps to it. -/
theorem wrap8_eq_self (b : Byte) (v : Int) (h : v = b.toNat) : wrap8 v = b := by
  subst h; simp [wrap8]

/-- The delta adder undoes the delta subtractor (rule R223). -/
theorem addDelta_pixelDelta (p q : Pixel) : addDelta q (pixelDelta p q) = p := by
  cases p
  simp only [addDelta, pixelDelta]
  congr 1 <;> (apply wrap8_eq_self; omega)

/-- A changed channel has one literal. -/
theorem length_changedLiteral (a b : Byte) : (changedLiteral a b).length = (b != a).toNat := by
  unfold changedLiteral
  by_cases h : b = a
  · simp [h]
  · simp [h, bne_iff_ne.mpr h]

/-- EmitCOLOR's flags and literals turn the previous pixel into the new one (rule R276). -/
theorem colorPixel_emitColor (q p : Pixel) : colorPixel q (p.r != q.r) (p.g != q.g) (p.b != q.b) (p.a != q.a)
    (changedLiteral q.r p.r ++ changedLiteral q.g p.g ++ changedLiteral q.b p.b ++ changedLiteral q.a p.a) = p := by
  cases p with | mk r g b a =>
  cases q with | mk r' g' b' a' =>
  simp only [colorPixel, changedLiteral]
  have hb : ∀ x y : Byte, x = y ∨ ((x != y) = true ∧ x ≠ y) := fun x y => by
    by_cases h : x = y
    · exact .inl h
    · exact .inr ⟨bne_iff_ne.mpr h, h⟩
  rcases hb r r' with rfl | h1 <;> rcases hb g g' with rfl | h2 <;> rcases hb b b' with rfl | h3 <;> rcases hb a a' with rfl | h4 <;> simp [*, takeLiteral]

/-- Executing what EncodeDelta chooses stores the pixel it was chosen for (rules R223, R267). -/
theorem exec_encodeDelta (q p : Pixel) (s : State) (hs : s.px = q) :
    (encodeDelta q p).wf = true ∧ exec (encodeDelta q p) s = .next (s.setAndStore p) := by
  unfold encodeDelta
  have hadd := addDelta_pixelDelta p q
  simp only
  split
  · rename_i h
    refine ⟨rfl, ?_⟩
    simp [Delta.fits8] at h
    simp only [emitDiff8, exec, execDiff8, diff8Delta, hs]
    rw [unbias_biased, unbias_biased, unbias_biased, ← h.1, hadd] <;> simp <;> omega
  · split
    · rename_i h
      refine ⟨rfl, ?_⟩
      simp [Delta.fits16] at h
      simp only [emitDiff16, exec, execDiff16, diff16Delta, hs]
      rw [unbias_biased, unbias_biased, unbias_biased, ← h.1, hadd] <;> simp <;> omega
    · split
      · rename_i h
        refine ⟨rfl, ?_⟩
        simp [Delta.fits24] at h
        simp only [emitDiff24, exec, execDiff24, diff24Delta, hs]
        rw [unbias_biased, unbias_biased, unbias_biased, unbias_biased, hadd] <;> simp <;> omega
      · have hw : (emitColor q p).wf = true := by
          simp [emitColor, Instr.wf, flagCount, length_changedLiteral]; omega
        refine ⟨hw, ?_⟩
        unfold emitColor at hw ⊢
        simp only [exec, execColor, hw, if_true, hs, colorPixel_emitColor]

/-- `run_active` as a test of RUN. -/
theorem State.runActive_iff (s : State) : s.runActive = true ↔ s.run ≠ 0 := by
  simp only [State.runActive, decide_eq_true_eq]
  constructor
  · intro h h0; simp [h0] at h
  · intro h; exact Nat.pos_of_ne_zero (fun h' => h (BitVec.eq_of_toNat_eq (by simpa using h')))

/-- No run is active exactly when RUN is 0. -/
theorem State.runActive_false_iff (s : State) : s.runActive = false ↔ s.run = 0 := by
  have := State.runActive_iff s
  cases h : s.runActive <;> simp_all

/-- The bytes of a run opcode of length `n` (rules R100, R277). -/
def flushBytes (n : Nat) : List Byte :=
  if n ≤ 32 then [BitVec.ofNat 8 (0x40 + (n - 1))]
  else [BitVec.ofNat 8 (0x60 + (n - 33) / 256), BitVec.ofNat 8 ((n - 33) % 256)]

/-- A length of 1 to 8224 has a run opcode, with those bytes. -/
theorem runInstr_encode (n : Nat) (h1 : 1 ≤ n) (h2 : n ≤ 8224) : ∃ i, runInstr n = some i ∧ encode i = flushBytes n ∧ i.wf = true := by
  unfold runInstr flushBytes Config.run8Max Config.runMax Config.run16Min
  rw [if_neg (by omega)]
  by_cases h : n ≤ 32
  · refine ⟨_, if_pos h, ?_, rfl⟩
    rw [if_pos h, encode_run8]; simp; congr 1; omega
  · rw [if_neg h, if_neg h, if_pos h2]
    refine ⟨_, rfl, ?_, rfl⟩
    rw [encode_run16]; simp
    have : (n - 33) % 8192 = n - 33 := by omega
    rw [this]

/-- FlushRun on a run of 1 to 8224. -/
theorem State.flushRun_eq (s : State) (h1 : 1 ≤ s.run.toNat) (h2 : s.run.toNat ≤ 8224) :
  s.flushRun = .ok { s with run := 0, out := s.out ++ flushBytes s.run.toNat, opos := s.opos + (flushBytes s.run.toNat).length } := by
  obtain ⟨i, hi, he, -⟩ := runInstr_encode _ h1 h2
  unfold State.flushRun; rw [hi]; simp only; rw [he]; rfl

/-- The state once a pending run has been flushed. -/
def State.flushed (s : State) : State :=
  { s with
    run := 0
    out := s.out ++ (if s.run = 0 then [] else flushBytes s.run.toNat)
    opos := s.opos + (if s.run = 0 then [] else flushBytes s.run.toNat).length }

/-- Flushing the run if one is pending. -/
theorem State.flushPending_eq (s : State) (hr : s.run.toNat ≤ 8224) : (if s.runActive then s.flushRun else .ok s) = .ok (State.flushed s) := by
  unfold State.flushed
  by_cases h : s.run = 0
  · have := (State.runActive_false_iff s).mpr h
    simp only [this, h, if_true]
    cases s; cases h; simp
  · have hra := (State.runActive_iff s).mpr h
    have h1 : 1 ≤ s.run.toNat := by simp [State.runActive] at hra; omega
    simp only [hra, if_true, State.flushRun_eq s h1 hr, h, if_false]

/-- A pixel that differs from PX: the run is flushed, then the pixel encoded (rules R264 to R266). -/
theorem State.encodePixel_of_ne (s : State) (p : Pixel) (hp : p ≠ s.px) (hr : s.run.toNat ≤ 8224) :
    s.encodePixel p = .ok (State.encodeDistinct p (State.flushed s)) := by
  have h := State.flushPending_eq s hr
  unfold State.encodePixel
  rw [if_neg hp]
  by_cases hra : s.runActive = true
  · rw [if_pos hra] at h ⊢; rw [h]
  · rw [if_neg hra] at h ⊢; rw [Except.ok.injEq] at h; rw [← h]

/-- The encoder's registers. -/
structure EncRegs where
  px : Pixel
  cache : Vector Pixel 64
  run : BitVec 14

/-- The encoder's registers in a state. -/
def State.encRegs (s : State) : EncRegs := ⟨s.px, s.cache, s.run⟩

/-- RUN after a Push. -/
def encRun (e : EncRegs) (p : Pixel) : BitVec 14 :=
  if p = e.px then (if e.run.toNat < 8223 then e.run + 1 else 0) else 0

/-- The bytes that flush a run, none for no run. -/
def pendingBytes (r : BitVec 14) : List Byte := if r = 0 then [] else flushBytes r.toNat

/-- The cache holds the pixel at its hash (rule R265). -/
abbrev cacheHit (c : Vector Pixel 64) (p : Pixel) : Prop := c.get p.hash.toFin = p

/-- The bytes a Push emits (rules R263 to R267). -/
def encBytes (e : EncRegs) (p : Pixel) : List Byte :=
  if p = e.px then (if e.run.toNat < 8223 then [] else [0x7F, 0xFF])
  else pendingBytes e.run ++ (if cacheHit e.cache p then encode (.index p.hash) else encode (encodeDelta e.px p))

/-- The cache after a Push. -/
def encCache (e : EncRegs) (p : Pixel) : Vector Pixel 64 :=
  if p = e.px then e.cache else if cacheHit e.cache p then e.cache else e.cache.set p.hash.toNat p p.hash.isLt

/-- The encoder's registers after a Push. -/
def encNext (e : EncRegs) (p : Pixel) : EncRegs := ⟨p, encCache e p, encRun e p⟩

/-- The encoder's registers after a list of Pushes. -/
def encAll (e : EncRegs) : List Pixel → EncRegs
  | [] => e
  | p :: ps => encAll (encNext e p) ps

/-- The bytes a list of Pushes emits. -/
def encAllBytes (e : EncRegs) : List Pixel → List Byte
  | [] => []
  | p :: ps => encBytes e p ++ encAllBytes (encNext e p) ps

/-- RUN stays at most 8223 between operations (rule R30). -/
theorem encRun_le (e : EncRegs) (p : Pixel) : (encRun e p).toNat ≤ 8223 := by
  unfold encRun; split
  · split
    · simp [BitVec.toNat_add]; omega
    · simp
  · simp

/-- A pixel equal to PX (rule R263). -/
theorem State.encodePixel_of_eq (s : State) (h : s.run.toNat ≤ 8223) : s.encodePixel s.px =
    .ok (if s.run.toNat < 8223 then { s with run := s.run + 1 }
      else { s with run := 0, out := s.out ++ [0x7F, 0xFF], opos := s.opos + 2 }) := by
  unfold State.encodePixel
  simp only [if_true, State.encodeRunPixel, Config.runMax]
  by_cases hl : s.run.toNat < 8223
  · rw [if_pos (by omega), if_pos hl]
    have : BitVec.ofNat 14 (s.run.toNat + 1) = s.run + 1 := by
      apply BitVec.eq_of_toNat_eq; simp [BitVec.toNat_add]
    rw [this]; rfl
  · rw [if_neg (by omega), if_neg hl]
    have h8 : s.run.toNat = 8223 := by omega
    have hr : (s.withRun (BitVec.ofNat 14 (s.run.toNat + 1))).run.toNat = 8224 := by simp [h8]
    rw [State.flushRun_eq _ (by omega) (by omega), hr]; rfl

/-- What a Push does with its pixel, in closed form. -/
theorem State.encodePixel_eq (s : State) (p : Pixel) (hr : s.run.toNat ≤ 8223) :
    s.encodePixel p = .ok { s with
      px := p, cache := encCache ⟨s.px, s.cache, s.run⟩ p, run := encRun ⟨s.px, s.cache, s.run⟩ p
      out := s.out ++ encBytes ⟨s.px, s.cache, s.run⟩ p
      opos := s.opos + (encBytes ⟨s.px, s.cache, s.run⟩ p).length } := by
  by_cases hp : p = s.px
  · subst hp
    rw [State.encodePixel_of_eq s hr]; congr 1
    simp only [encCache, encRun, encBytes, if_true]
    by_cases hl : s.run.toNat < 8223
    · simp only [hl, if_true, List.append_nil, List.length_nil, Nat.add_zero]
    · simp only [hl, if_false]; rfl
  · rw [State.encodePixel_of_ne s p hp (by omega)]
    congr 1
    simp only [encCache, encRun, encBytes, hp, if_false]
    by_cases h : s.lookup p.hash = p
    · have : State.encodeDistinct p (State.flushed s) = ((State.flushed s).streamWrite (encode (.index p.hash))).withPx p := if_pos h
      have hh : cacheHit s.cache p := h
      rw [this, if_pos hh, if_pos hh]; simp [pendingBytes, State.flushed, State.streamWrite, State.withPx, Nat.add_assoc]
    · have : State.encodeDistinct p (State.flushed s) = (((State.flushed s).storePixel p).streamWrite (encode (encodeDelta s.px p))).withPx p := if_neg h
      have hh : ¬cacheHit s.cache p := h
      rw [this, if_neg hh, if_neg hh]; simp [pendingBytes, State.flushed, State.streamWrite, State.withPx, State.storePixel, Nat.add_assoc]

/-- Counting changes COUNT and the draws alone. -/
theorem State.bumpCount_fields (s : State) : ∃ c d, s.bumpCount = { s with count := c, draws := d } := by
  unfold State.bumpCount; split <;> exact ⟨_, _, rfl⟩

/-- A delivering operation that does not end in ERROR has delivered. -/
theorem State.afterDelivery_of_ne_error {before : State} {r} {ok} {t : State} (h : t = before.afterDelivery r ok) (he : t.status ≠ .error) : ∃ s, r = .ok s ∧ t = (ok s).report .ok := by
  rcases State.afterDelivery_cases before r ok with ⟨s, h1, h2⟩ | ⟨i, l, h1, h2⟩
  · exact ⟨s, h1, by rw [h, h2]⟩
  · rw [h, h2] at he; simp at he

/-- Encoding a pixel changes PX, CACHE, RUN, OUT and OPOS alone. -/
theorem State.encodePixel_fields {s t : State} {p : Pixel} (h : s.encodePixel p = .ok t) : t = { s with px := p, cache := t.cache, out := t.out, opos := t.opos, run := t.run } := by
  rcases State.encodePixel_cases h with ⟨rfl, _, rfl⟩ | ⟨rfl, _, h⟩ | ⟨_, _, s1, h1, rfl⟩ | ⟨_, _, rfl⟩
  · rfl
  · obtain ⟨i, _, rfl⟩ := (State.flushRun_ok_iff _ _).mp h; rfl
  · obtain ⟨i, _, rfl⟩ := (State.flushRun_ok_iff _ _).mp h1
    unfold State.encodeDistinct; split <;> rfl
  · unfold State.encodeDistinct; split <;> rfl

/-- Push in ERROR (rule R337). -/
theorem pushWith_of_error {s : State} (draw : Nat) (p : Pixel) (h1 : s.mode = .encode) (h2 : s.status = .error) : pushWith draw p s = .next s.stickyError := by
  unfold pushWith; simp [h1, h2]

/-- Finish in ERROR (rule R337). -/
theorem finish_of_error {s : State} (h1 : s.mode = .encode) (h2 : s.status = .error) : finish s = .next s.stickyError := by
  unfold finish; simp [h1, h2]

/-- Delivering up to a target: a sink that held the first bytes of OUT holds more of them (rule R306). -/
theorem sink_append_delivered {out out' sink : List Byte} {sent target : Nat} (hs : sink = out.take sent) (hl : sent ≤ out.length) (hp : out <+: out') (ht : sent ≤ target) :
    sink ++ (out'.drop sent).take (target - sent) = out'.take target := by
  obtain ⟨b, rfl⟩ := hp
  rw [hs, show out.take sent = (out ++ b).take sent by rw [List.take_append_of_le_length hl]]
  rw [← List.drop_take]
  conv_rhs => rw [← List.take_append_drop sent ((out ++ b).take target)]
  rw [List.take_take, Nat.min_eq_left ht]

/-- A Push that raises. -/
theorem pushWith_raises {draw : Nat} {p : Pixel} {s t : State} (h : pushWith draw p s = .next t) (hs : s.status ≠ .error) (he : t.status = .error) :
    ∃ u info received, s.status = .active ∧ s.mode = .encode ∧ s.drawn.encodePixel p = .ok u ∧ u.bumpCount.deliver draw = .error (info, received) ∧ t = (s.drawn.receive received).raise .stream info := by
  obtain ⟨hm, ⟨h1, rfl⟩ | ⟨h1, s1, hp, rfl⟩⟩ := pushWith_cases h
  · exact absurd h1 hs
  · rcases State.afterDelivery_cases s.drawn (s1.bumpCount.deliver draw) id with ⟨u, hu, hu'⟩ | ⟨info, rc, hd, hu'⟩
    · rw [hu'] at he
      obtain ⟨-, rfl⟩ := (State.deliverTo_ok_iff _ _ _).mp hu
      have hf := State.encodePixel_fields hp
      have : s1.bumpCount.status = s.status := by
        have : s1.bumpCount.status = s1.status := by unfold State.bumpCount; split <;> rfl
        rw [this, hf]; rfl
      have h2 : s1.bumpCount.status = .error := he
      rw [this] at h2; exact absurd h2 hs
    · exact ⟨s1, info, rc, h1, hm, hp, hd, hu'⟩

/-- A Finish that raises. -/
theorem finish_raises {s t : State} (h : finish s = .next t) (hs : s.status ≠ .error) (he : t.status = .error) :
    ∃ u info received, s.status = .active ∧ s.mode = .encode ∧ (if s.runActive then s.flushRun else .ok s) = .ok u ∧ u.flushOutput = .error (info, received) ∧ t = (s.receive received).raise .stream info := by
  obtain ⟨hm, ⟨h1, rfl⟩ | ⟨h1, s1, hp, rfl⟩⟩ := finish_cases h
  · exact absurd h1 hs
  · rcases State.afterDelivery_cases s s1.flushOutput (State.withStatus .done) with ⟨u, hu, hu'⟩ | ⟨info, rc, hd, hu'⟩
    · rw [hu'] at he
      cases he
    · exact ⟨s1, info, rc, h1, hm, hp, hd, hu'⟩

/-- A Push in an active encode pass raises, or is answered Ok with the encoder's registers and OUT moved on. -/
theorem pushWith_of_active {draw : Nat} {p : Pixel} {s t : State} (hA : s.ActiveIn .encode) (hr : s.run.toNat ≤ 8223) (h : pushWith draw p s = .next t) :
    (t.mode = .encode ∧ t.status = .error ∧ t.ops = s.ops ∧ ∃ k i, t.results = s.results ++ [.error k i]) ∨
    (t.ActiveIn .encode ∧ State.encRegs t = encNext (State.encRegs s) p ∧ t.out = s.out ++ encBytes (State.encRegs s) p ∧ t.ops = s.ops ∧ t.results = s.results ++ [.ok] ∧
      (s.count ≠ BitVec.allOnes 64 → t.count = s.count + 1)) := by
  by_cases he : t.status = .error
  · obtain ⟨u, info, rc, h1, h2, -, -, rfl⟩ := pushWith_raises h (by rw [hA.2]; simp) he
    exact .inl ⟨h2, he, rfl, _, _, rfl⟩
  · right
    obtain ⟨hm, ⟨h1, rfl⟩ | ⟨h1, s1, hp, rfl⟩⟩ := pushWith_cases h
    · exact absurd h1 he
    · obtain ⟨u, hu, hu'⟩ := State.afterDelivery_of_ne_error rfl he
      obtain ⟨-, rfl⟩ := (State.deliverTo_ok_iff _ _ _).mp hu
      rw [hu']
      rw [State.encodePixel_eq s.drawn p hr, Except.ok.injEq] at hp
      have q1 : s1.mode = .encode := by rw [← hp]; exact hA.1
      have q2 : s1.status = .active := by rw [← hp]; exact hA.2
      have q3 : State.encRegs s1 = encNext (State.encRegs s) p := by rw [← hp]; rfl
      have q4 : s1.out = s.out ++ encBytes (State.encRegs s) p := by rw [← hp]; rfl
      have q5 : s1.ops = s.ops := by rw [← hp]; rfl
      have q6 : s1.results = s.results := by rw [← hp]; rfl
      have q7 : s1.count = s.count := by rw [← hp]; rfl
      clear hp hu hu' he
      have q8 : s.count ≠ BitVec.allOnes 64 → s1.bumpCount.count = s.count + 1 := by
        intro hc; rw [State.bumpCount_of_ne (by rw [q7]; exact hc), ← q7]
      refine ⟨⟨?_, ?_⟩, ?_, ?_, ?_, ?_, q8⟩
      · obtain ⟨c, d, hb⟩ := State.bumpCount_fields s1; rw [hb]; exact q1
      · obtain ⟨c, d, hb⟩ := State.bumpCount_fields s1; rw [hb]; exact q2
      · obtain ⟨c, d, hb⟩ := State.bumpCount_fields s1; rw [hb]; exact q3
      · obtain ⟨c, d, hb⟩ := State.bumpCount_fields s1; rw [hb]; exact q4
      · obtain ⟨c, d, hb⟩ := State.bumpCount_fields s1; rw [hb]; exact q5
      · obtain ⟨c, d, hb⟩ := State.bumpCount_fields s1; rw [hb]; show s1.results ++ _ = _; rw [q6]

end Sys2Proof.Machine
end

