-- ==== Sys2Proof/Laws/Decoder.lean ====
section
/-!
SUPPORT. The decoder: what a Pull answers in each state of a pass, and runs of the machine in two parts.
-/

namespace Sys2Proof.Machine

/-- A well-formed instruction answers next. -/
theorem exec_next_of_wf {i : Instr} (h : i.wf = true) (s : State) : ∃ u, exec i s = .next u := by
  cases i <;> simp [exec, execIndex, execRun8, execRun16, execDiff8, execDiff16, execDiff24, execColor, h]

/-- An encoding is a tag byte and the operand bytes its class asks for, and the decoder builds the instruction back. -/
theorem encode_shape {i : Instr} (hw : i.wf = true) : ∃ tag ops, encode i = tag :: ops ∧ ops.length = operandBytes tag ∧ i = buildInstr tag ops := by
  have key : ∀ tag ops, encode i = tag :: ops → buildInstr tag ops = i → Laws.TagAndLength.Statement i →
      ∃ tag ops, encode i = tag :: ops ∧ ops.length = operandBytes tag ∧ i = buildInstr tag ops := by
    intro tag ops he hb hs
    obtain ⟨tag', ops', he', -, hl⟩ := hs hw
    rw [he] at he'
    obtain ⟨rfl, rfl⟩ := List.cons.inj he'
    exact ⟨tag, ops, he, hl, hb.symm⟩
  cases i with
  | index idx => exact key _ _ (encode_index _) (build_index _ []) (Laws.TagAndLength.index _)
  | run8 n => exact key _ _ (encode_run8 _) (build_run8 _ []) (Laws.TagAndLength.run8 _)
  | run16 n => exact key _ _ (encode_run16 _) (build_run16 _ []) (Laws.TagAndLength.run16 _)
  | diff8 fr fg fb => exact key _ _ (encode_diff8 _ _ _) (build_diff8 _ _ _ []) (Laws.TagAndLength.diff8 _ _ _)
  | diff16 fr fg fb => exact key _ _ (encode_diff16 _ _ _) (build_diff16 _ _ _ []) (Laws.TagAndLength.diff16 _ _ _)
  | diff24 fr fg fb fa => exact key _ _ (encode_diff24 _ _ _ _) (build_diff24 _ _ _ _ []) (Laws.TagAndLength.diff24 _ _ _ _)
  | color fR fG fB fA lits => exact key _ _ (encode_color _ _ _ _ _) (build_color _ _ _ _ lits) (Laws.TagAndLength.color _ _ _ _ _)

/-- A whole opcode at IPOS is dispatched (rule R163). -/
theorem State.dispatch_of_opcodeAt {s : State} {i : Instr} (hw : i.wf = true) (h : s.OpcodeAt i) : s.dispatch = .ok (i, s.advance (encode i).length) := by
  obtain ⟨tag, ops, he, hl, hb⟩ := encode_shape hw
  rw [State.dispatch_ok_iff]
  have hlen : (encode i).length = tagLength tag := by rw [he]; simp [tagLength, hl]; omega
  refine ⟨tag, ops, ?_, hl, hb, ?_, by rw [hlen]⟩
  · rw [← he]; exact h.1
  · intro k hk hf
    exact h.2 _ hf ⟨by omega, by omega⟩

/-- Pull in an active decode pass. -/
theorem pull_eq_pullActive {s : State} (hm : s.mode = .decode) (ha : s.status = .active) : pull s = pullActive s := by
  unfold pull; rw [hm, ha]

/-- Pull in ERROR (rule R161). -/
theorem pull_of_error {s : State} (h1 : s.mode = .decode) (h2 : s.status = .error) : pull s = .next s.stickyError := by
  unfold pull; simp [h1, h2]

/-- Pull in DONE (rule R161). -/
theorem pull_of_done {s : State} (h1 : s.mode = .decode) (h2 : s.status = .done) : pull s = .next (s.report .endOfPass) := by
  unfold pull; simp [h1, h2]

/-- A Pull that dispatches: the instruction is executed, then the pixel counted and returned (rules R160, R164). -/
theorem pull_of_readyFor {s : State} {i : Instr} (hw : i.wf = true) (h : s.ReadyFor i) :
    pull s = match exec i (s.advance (encode i).length) with
      | .next t => .next t.completePull
      | .fault r => .fault r
      | .refused r => .refused r := by
  obtain ⟨hm, ha, hr, ho⟩ := h
  rw [pull_eq_pullActive hm ha, pullActive, (State.runActive_false_iff s).mpr hr, State.dispatch_of_opcodeAt hw ho]
  rfl

/-- COUNT below TOTAL is counted as the spec says. -/
theorem State.bumpCount_of_lt {s : State} (h : s.count.toNat < s.total.toNat) : s.bumpCount = { s with count := s.count + 1 } := by
  apply State.bumpCount_of_ne
  intro h'; rw [h'] at h; simp at h; omega

/-- How a Pull ends (rule R160). -/
theorem State.completePull_eq {s : State} (h : s.count.toNat < s.total.toNat) : s.completePull =
      { s with count := s.count + 1,
               status := if s.count.toNat + 1 = s.total.toNat then .done else s.status,
               results := s.results ++ [.pixel s.px] } := by
  simp only [State.completePull, State.bumpCount_of_lt h]
  have h1 : s.count.toNat + 1 < 2 ^ 64 := by omega
  have : (s.count + 1 = s.total) ↔ s.count.toNat + 1 = s.total.toNat := by
    rw [← BitVec.toNat_inj, BitVec.toNat_add]; simp; omega
  by_cases hc : s.count + 1 = s.total
  · rw [if_pos hc, if_pos (this.mp hc)]; rfl
  · rw [if_neg hc, if_neg (fun h => hc (this.mpr h))]; rfl

/-- The end of a Pull keeps IPOS. -/
theorem State.completePull_ipos (s : State) : s.completePull.ipos = s.ipos := by
  simp only [State.completePull]; split <;> simp

/-- After the end of a Pull the pass is active or done. -/
theorem State.completePull_status (s : State) (h : s.status = .active) : s.completePull.status = .active ∨ s.completePull.status = .done := by
  simp only [State.completePull]; split <;> simp [h]

/-- COUNT + 1 as a number, below TOTAL. -/
theorem toNat_count_succ {a b : BitVec 64} (h : a.toNat < b.toNat) : (a + 1).toNat = a.toNat + 1 := by
  rw [BitVec.toNat_add]; simp; omega

/-- RUN - 1 as a number. -/
theorem toNat_run_pred {a : BitVec 14} (h : 0 < a.toNat) : (a - 1).toNat = a.toNat - 1 := by
  rw [BitVec.toNat_sub]; simp; omega

/-- A run continuation (rule R162). -/
theorem pull_of_run {s : State} (h : s.ActiveIn .decode) (hr : 0 < s.run.toNat) (hc : s.count.toNat < s.total.toNat) :
    pull s = .next { s with run := s.run - 1, count := s.count + 1, status := if s.count.toNat + 1 = s.total.toNat then .done else s.status, results := s.results ++ [.pixel s.px] } := by
  rw [pull_eq_pullActive h.1 h.2, pullActive, (State.runActive_iff s).mpr (by rintro h; simp [h] at hr)]
  simp only [if_true]
  rw [State.completePull_eq (by simpa using hc)]
  rfl

/-- TOTAL is the exact product (rule R25). -/
theorem toNat_pixelTotal (w h : BitVec 32) : (pixelTotal w h).toNat = w.toNat * h.toNat := by
  unfold pixelTotal
  have h1 := w.isLt; have h2 := h.isLt
  have : w.toNat * h.toNat < 2^64 := by nlinarith
  simp [BitVec.toNat_mul]
  simpa using this

/-- TOTAL is 0 exactly when the product is. -/
theorem pixelTotal_eq_zero_iff (w h : BitVec 32) : pixelTotal w h = 0 ↔ w.toNat * h.toNat = 0 := by
  rw [← toNat_pixelTotal]; constructor
  · intro h; rw [h]; rfl
  · intro h; apply BitVec.eq_of_toNat_eq; exact h

/-- STATUS after Start (rule R372). -/
theorem startOp_status (s : State) (mode w h ch cs io) : (startOp mode w h ch cs io s).status = if mode = .decode ∧ pixelTotal w h = 0 then .done else .active := rfl

/-- A run of `a + b` steps is a run of `a` and then one of `b`. -/
theorem core_run_add_iff (a b : Nat) (s u : State) : Host.Core.run core (a + b) s = .next u ↔ ∃ t, Host.Core.run core a s = .next t ∧ Host.Core.run core b t = .next u := by
  induction a generalizing s with
  | zero =>
    rw [Nat.zero_add]
    exact ⟨fun h => ⟨s, rfl, h⟩, fun ⟨t, h1, h2⟩ => by cases h1; exact h2⟩
  | succ a ih =>
    rw [Nat.succ_add_eq_add_succ, show a + b.succ = (a + b) + 1 by omega, core_run_succ_next_iff]
    constructor
    · rintro ⟨t, h1, h2⟩
      obtain ⟨v, h3, h4⟩ := (ih t).mp h2
      exact ⟨v, (core_run_succ_next_iff _ _ _).mpr ⟨t, h1, h3⟩, h4⟩
    · rintro ⟨v, h3, h4⟩
      obtain ⟨t, h1, h2⟩ := (core_run_succ_next_iff _ _ _).mp h3
      exact ⟨t, h1, (ih t).mpr ⟨v, h2, h4⟩⟩

end Sys2Proof.Machine
end

