-- ==== Sys2Proof/Laws/Tracking.lean ====
section
/-!
SUPPORT. The decoder against the encoder: after each pixel the decoder's registers are those the encoder had after pushing it.
-/

namespace Sys2Proof.Machine

/-- The bytes of a pass from given registers: what the Pushes emit, and the last flush. -/
def encStream (e : EncRegs) (ps : List Pixel) : List Byte := encAllBytes e ps ++ pendingBytes (encAll e ps).run

/-- One pixel more. -/
theorem encStream_cons (e p ps) : encStream e (p :: ps) = encBytes e p ++ encStream (encNext e p) ps := by
  simp [encStream, encAllBytes, encAll, List.append_assoc]

/-- The bytes of a pixel that differs from PX. -/
theorem encBytes_of_ne {e : EncRegs} {p : Pixel} (h : p ≠ e.px) : encBytes e p = pendingBytes e.run ++ (if cacheHit e.cache p then encode (.index p.hash) else encode (encodeDelta e.px p)) := if_neg h

/-- The registers after a pixel that differs from PX. -/
theorem encNext_of_ne {e : EncRegs} {p : Pixel} (h : p ≠ e.px) : encNext e p = ⟨p, if cacheHit e.cache p then e.cache else e.cache.set p.hash.toNat p p.hash.isLt, 0⟩ := by
  unfold encNext encCache encRun; rw [if_neg h, if_neg h]

/-- A pending run is flushed. -/
theorem pendingBytes_of_ne {r : BitVec 14} (h : r ≠ 0) : pendingBytes r = flushBytes r.toNat := if_neg h

/-- The registers with no run pending. -/
def EncRegs.clear (e : EncRegs) : EncRegs := { e with run := 0 }

/-- A pending run is emitted as one opcode, after as many more equal pixels as it takes in. -/
theorem encStream_run_split (ps : List Pixel) : ∀ (e : EncRegs), 1 ≤ e.run.toNat → e.run.toNat ≤ 8223 →
    ∃ m ≤ ps.length, (∀ p ∈ ps.take m, p = e.px) ∧ e.run.toNat + m ≤ 8224 ∧ encStream e ps = flushBytes (e.run.toNat + m) ++ encStream (EncRegs.clear e) (ps.drop m) ∧
      (e.run.toNat + m = 8224 ∨ ∀ p, (ps.drop m).head? = some p → p ≠ e.px) := by
  induction ps with
  | nil =>
    intro e h1 h2
    have hz : e.run ≠ 0 := by intro h; rw [h] at h1; simp at h1
    exact ⟨0, le_refl _, by simp, by omega, by show [] ++ pendingBytes e.run = _ ++ ([] ++ pendingBytes 0); rw [pendingBytes_of_ne hz]; simp [pendingBytes], by simp⟩
  | cons p ps ih =>
    intro e h1 h2
    have hz : e.run ≠ 0 := by intro h; rw [h] at h1; simp at h1
    by_cases hp : p = e.px
    · by_cases hl : e.run.toNat < 8223
      · have hrr : (encNext e p).run.toNat = e.run.toNat + 1 := by
          simp only [encNext, encRun]; rw [if_pos hp, if_pos hl]; simp [BitVec.toNat_add]; omega
        obtain ⟨m, a, b, c, d, f⟩ := ih (encNext e p) (by omega) (by omega)
        have hpx : (encNext e p).px = e.px := hp
        have hclr : EncRegs.clear (encNext e p) = EncRegs.clear e := by
          simp only [EncRegs.clear, encNext]; rw [show encCache e p = e.cache by unfold encCache; rw [if_pos hp]]; rw [hp]
        refine ⟨m + 1, by simp; omega, ?_, by omega, ?_, ?_⟩
        · intro q hq; simp at hq; rcases hq with rfl | hq
          · exact hp
          · rw [b q hq, hpx]
        · rw [encStream_cons, d, hclr, hrr]
          have : encBytes e p = [] := by unfold encBytes; rw [if_pos hp, if_pos hl]
          rw [this, List.drop_succ_cons]; simp; congr 1; omega
        · rw [hrr] at f; rcases f with f | f
          · left; omega
          · right; intro q hq; rw [List.drop_succ_cons] at hq; rw [← hpx]; exact f q hq
      · have hr : e.run.toNat = 8223 := by omega
        refine ⟨1, by simp, by simp [hp], by omega, ?_, .inl (by omega)⟩
        rw [encStream_cons]
        have h1 : encBytes e p = flushBytes (8223 + 1) := by unfold encBytes; rw [if_pos hp, if_neg hl]; rfl
        have h2 : encNext e p = EncRegs.clear e := by
          simp only [EncRegs.clear, encNext]; rw [show encCache e p = e.cache by unfold encCache; rw [if_pos hp]]
          rw [show encRun e p = 0 by unfold encRun; rw [if_pos hp, if_neg hl]]; rw [hp]
        rw [h1, h2, hr]; rfl
    · refine ⟨0, by simp, by simp, by omega, ?_, .inr (by intro q hq; cases hq; exact hp)⟩
      rw [encStream_cons]
      simp only [List.drop_zero, Nat.add_zero]
      rw [encStream_cons]
      have h1 : encBytes e p = flushBytes e.run.toNat ++ encBytes (EncRegs.clear e) p := by
        rw [encBytes_of_ne hp, encBytes_of_ne (e := EncRegs.clear e) hp, pendingBytes_of_ne hz]; rfl
      have h2 : encNext e p = encNext (EncRegs.clear e) p := by
        rw [encNext_of_ne hp, encNext_of_ne (e := EncRegs.clear e) hp]; rfl
      rw [h1, h2, List.append_assoc]

/-- The decoder follows the encoder: PX and CACHE agree, and IN from IPOS on is what the encoder still emits, its pending run being the one
the decoder is in. -/
structure Follows (unread : List Byte) (e : EncRegs) (ps : List Pixel) (d : State) : Prop where
  px : d.px = e.px
  cache : d.cache = e.cache
  fail : d.inFail = none
  mode : d.mode = .decode
  bound : e.run.toNat ≤ 8223
  rest : (e.run = 0 ∧ d.run = 0 ∧ d.input.drop d.ipos = encStream e ps ++ unread) ∨
    (1 ≤ e.run.toNat ∧ d.run.toNat ≤ ps.length ∧ (∀ p ∈ ps.take d.run.toNat, p = e.px) ∧ e.run.toNat + d.run.toNat ≤ 8224 ∧
      d.input.drop d.ipos = encStream (EncRegs.clear e) (ps.drop d.run.toNat) ++ unread ∧
      (e.run.toNat + d.run.toNat = 8224 ∨ ∀ p, (ps.drop d.run.toNat).head? = some p → p ≠ e.px))

/-- INDEX on a cache hit. -/
theorem exec_index_of_hit (s : State) (p : Pixel) (h : s.lookup p.hash = p) : exec (.index p.hash) s = .next (s.withPx p) := by
  show execIndex _ _ = _
  unfold execIndex; rw [h]

/-- A Pull that executes the opcode at IPOS. -/
theorem pull_executes {d : State} {i : Instr} {rest : List Byte} {u : State} (hw : i.wf = true) (hA : d.ActiveIn .decode) (hr : d.run = 0) (hf : d.inFail = none)
    (hin : d.input.drop d.ipos = encode i ++ rest) (hx : exec i (d.advance (encode i).length) = .next u) : pull d = .next u.completePull := by
  have : d.ReadyFor i := ⟨hA.1, hA.2, hr, ⟨_, hin.symm⟩, by simp [hf]⟩
  rw [pull_of_readyFor hw this, hx]

/-- Dropping the dropped part. -/
theorem drop_of_drop_eq_append {l : List Byte} {n : Nat} {a b : List Byte} (h : l.drop n = a ++ b) : l.drop (n + a.length) = b := by
  rw [← List.drop_drop, h]; simp

/-- One Pull follows one Push (rules R145, R283). -/
theorem pull_follows {unread : List Byte} {e : EncRegs} {p : Pixel} {ps : List Pixel} {d : State} (hR : Follows unread e (p :: ps) d) (ha : d.status = .active)
    (hc : d.count.toNat < d.total.toNat) :
    ∃ d', pull d = .next d' ∧ Follows unread (encNext e p) ps d' ∧ d'.results = d.results ++ [.pixel p] ∧ d'.count.toNat = d.count.toNat + 1 ∧ d'.total = d.total ∧
      d'.ops = d.ops ∧ d'.status = (if d.count.toNat + 1 = d.total.toNat then .done else .active) := by
  obtain ⟨hpx, hca, hfail, hm, hb, hrest⟩ := hR
  have hA : d.ActiveIn .decode := ⟨hm, ha⟩
  -- what completing gives
  have fin : ∀ u : State, u.mode = .decode → u.status = .active → u.count = d.count → u.total = d.total → u.results = d.results → u.ops = d.ops → u.px = p →
      u.completePull.results = d.results ++ [.pixel p] ∧ u.completePull.count.toNat = d.count.toNat + 1 ∧ u.completePull.total = d.total ∧
      u.completePull.ops = d.ops ∧ u.completePull.status = (if d.count.toNat + 1 = d.total.toNat then .done else .active) ∧
      u.completePull = { u with count := u.completePull.count, status := u.completePull.status, results := u.completePull.results } := by
    intro u a1 a2 a3 a4 a5 a6 a7
    have hcu : u.count.toNat < u.total.toNat := by rw [a3, a4]; exact hc
    rw [State.completePull_eq hcu]
    have := toNat_count_succ hcu
    refine ⟨by simp [a5, a7], ?_, a4, a6, ?_, rfl⟩
    · show (u.count + 1).toNat = _; rw [this, a3]
    · simp only [a2, a3, a4]
  -- the case of no pending run in the encoder and a distinct pixel
  have distinct : ∀ e0 : EncRegs, e0.px = e.px → e0.cache = e.cache → e0.run = 0 → d.run = 0 → p ≠ e0.px → encNext e0 p = encNext e p →
      d.input.drop d.ipos = encStream e0 (p :: ps) ++ unread → ∃ d', pull d = .next d' ∧ Follows unread (encNext e p) ps d' ∧ d'.results = d.results ++ [.pixel p] ∧ d'.count.toNat = d.count.toNat + 1 ∧ d'.total = d.total ∧
      d'.ops = d.ops ∧ d'.status = (if d.count.toNat + 1 = d.total.toNat then .done else .active) := by
    intro e0 k1 k2 k3 hr hne hen hin
    rw [encStream_cons] at hin
    have hz : (encNext e0 p).run = 0 := by simp only [encNext, encRun]; rw [if_neg hne]
    have finish : ∀ (i : Instr) (u : State), i.wf = true → encBytes e0 p = encode i → exec i (d.advance (encode i).length) = .next u →
        u.px = p → u.cache = encCache e0 p →
        ∃ d', pull d = .next d' ∧ Follows unread (encNext e p) ps d' ∧ d'.results = d.results ++ [.pixel p] ∧ d'.count.toNat = d.count.toNat + 1 ∧ d'.total = d.total ∧
      d'.ops = d.ops ∧ d'.status = (if d.count.toNat + 1 = d.total.toNat then .done else .active) := by
      intro i u hw hbb hx hup huc
      have hk := exec_next_keeps hx
      have hfr := exec_next_frame hx
      rw [hbb, List.append_assoc] at hin
      have hru : u.run = 0 := by
        have hd : d.run = 0 := hr
        by_cases hi : ∃ n, i = .run8 n ∨ ∃ m, i = .run16 m
        · exfalso
          -- encBytes of a distinct pixel is no run opcode
          have hopx : u.px = d.px := by
            obtain ⟨n, rfl | ⟨m, rfl⟩⟩ := hi <;> (cases hx; rfl)
          apply hne; rw [← hup, hopx, hpx, k1]
        · cases i <;> simp only [exec, execIndex, execRun8, execRun16, execDiff8, execDiff16, execDiff24, execColor] at hx
          case color => (rw [if_pos hw] at hx; cases hx; exact hd)
          case run8 n => exact absurd ⟨n, .inl rfl⟩ hi
          case run16 n => exact absurd ⟨0, .inr ⟨n, rfl⟩⟩ hi
          all_goals cases hx; exact hd
      have hu1 : u.mode = .decode := hk.1.trans hm
      have hu2 : u.status = .active := hk.2.1.trans ha
      have hipos : u.ipos = d.ipos + (encode i).length := hk.2.2.2.2.2.2.2.2.2.1
      have hinput : u.input = d.input := by rw [hfr]; rfl
      have hfl : u.inFail = none := by rw [hfr]; exact hfail
      obtain ⟨b1, b2, b3, b4, b5, b6⟩ := fin u hu1 hu2 (by rw [hfr]; rfl) (by rw [hfr]; rfl) (by rw [hfr]; rfl) (by rw [hfr]; rfl) hup
      refine ⟨u.completePull, pull_executes hw hA hr hfail hin hx, ?_, b1, b2, b3, b4, b5⟩
      rw [b6, ← hen]
      refine ⟨hup, huc, hfl, hu1, by rw [hz]; simp, .inl ⟨hz, hru, ?_⟩⟩
      show u.input.drop u.ipos = _
      rw [hinput, hipos]
      exact drop_of_drop_eq_append hin
    by_cases hh : cacheHit e0.cache p
    · refine finish (.index p.hash) ((d.advance (encode (.index p.hash)).length).withPx p) rfl ?_ ?_ rfl ?_
      · unfold encBytes; rw [if_neg hne, if_pos hh, k3]; simp [pendingBytes]
      · have hl : (d.advance (encode (.index p.hash)).length).lookup p.hash = p := by
          unfold State.lookup
          have : (d.advance (encode (.index p.hash)).length).cache = e0.cache := by rw [k2, ← hca]; rfl
          simp only [this]; exact hh
        exact exec_index_of_hit (d.advance (encode (.index p.hash)).length) p hl
      · show d.cache = _; unfold encCache; rw [if_neg hne, if_pos hh, hca, k2]
    · have hx := exec_encodeDelta e0.px p (d.advance (encode (encodeDelta e0.px p)).length) (by show d.px = _; rw [hpx, k1])
      refine finish (encodeDelta e0.px p) _ hx.1 ?_ hx.2 rfl ?_
      · unfold encBytes; rw [if_neg hne, if_neg hh, k3]; simp [pendingBytes]
      · show d.cache.set p.hash.toNat p p.hash.isLt = _; unfold encCache; rw [if_neg hne, if_neg hh]; simp only [hca, k2]
  rcases hrest with ⟨h1, h2, h3⟩ | ⟨h1, h2, h3, h4, h5, h6⟩
  · by_cases hp : p = e.px
    · -- a run starts
      have hn1 : (encNext e p).run.toNat = 1 := by
        simp only [encNext, encRun]; rw [if_pos hp, h1]; rfl
      have hnp : (encNext e p).px = e.px := hp
      have hnc : (encNext e p).cache = e.cache := by simp only [encNext, encCache]; rw [if_pos hp]
      have hbb : encBytes e p = [] := by unfold encBytes; rw [if_pos hp, h1]; rfl
      rw [encStream_cons, hbb, List.nil_append] at h3
      obtain ⟨m, a, b, c, f, g⟩ := encStream_run_split ps (encNext e p) (by omega) (by omega)
      rw [hn1] at c f g
      obtain ⟨i, hi, hie, hiw⟩ := runInstr_encode (1 + m) (by omega) (by omega)
      rw [f, ← hie, List.append_assoc] at h3
      -- executing it
      have hx : exec i (d.advance (encode i).length) = .next ((d.advance (encode i).length).withRun (BitVec.ofNat 14 m)) := by
        unfold runInstr Config.run8Max Config.runMax Config.run16Min at hi
        rw [if_neg (by omega)] at hi
        by_cases hl : 1 + m ≤ 32
        · rw [if_pos hl] at hi; cases hi
          show execRun8 _ _ = _
          unfold execRun8; congr 2; apply BitVec.eq_of_toNat_eq; simp; omega
        · rw [if_neg hl, if_pos c] at hi; cases hi
          show execRun16 _ _ = _
          unfold execRun16; congr 2; apply BitVec.eq_of_toNat_eq; simp [BitVec.toNat_add]; omega
      obtain ⟨b1, b2, b3, b4, b5, b6⟩ := fin ((d.advance (encode i).length).withRun (BitVec.ofNat 14 m)) hm ha rfl rfl rfl rfl (by show d.px = p; rw [hpx, hp])
      refine ⟨_, pull_executes hiw hA h2 hfail h3 hx, ?_, b1, b2, b3, b4, b5⟩
      rw [b6]
      have hm' : (BitVec.ofNat 14 m).toNat = m := by simp; omega
      refine ⟨by show d.px = _; rw [hpx, hnp], by show d.cache = _; rw [hca, hnc], hfail, hm, by omega, .inr ⟨by omega, ?_, ?_, ?_, ?_, ?_⟩⟩
      · show (BitVec.ofNat 14 m).toNat ≤ _; omega
      · show ∀ q ∈ ps.take (BitVec.ofNat 14 m).toNat, _; rw [hm']; exact b
      · show _ + (BitVec.ofNat 14 m).toNat ≤ _; omega
      · show d.input.drop (d.ipos + (encode i).length) = encStream _ (ps.drop (BitVec.ofNat 14 m).toNat) ++ _
        rw [hm']; exact drop_of_drop_eq_append h3
      · show _ + (BitVec.ofNat 14 m).toNat = _ ∨ ∀ q, (ps.drop (BitVec.ofNat 14 m).toNat).head? = _ → _
        rw [hm', hn1]; exact g
    · exact distinct e rfl rfl h1 h2 hp rfl h3
  · have hz : e.run ≠ 0 := by intro h; rw [h] at h1; simp at h1
    by_cases hd0 : d.run = 0
    · have hd0' : d.run.toNat = 0 := by rw [hd0]; rfl
      rw [hd0'] at h5 h6
      have hp : p ≠ e.px := by
        rcases h6 with h | h
        · omega
        · exact h p rfl
      refine distinct (EncRegs.clear e) rfl rfl rfl hd0 hp ?_ h5
      rw [encNext_of_ne hp, encNext_of_ne (e := EncRegs.clear e) hp]; rfl
    · have hpos : 0 < d.run.toNat := by
        rcases Nat.eq_zero_or_pos d.run.toNat with h | h
        · exact absurd (BitVec.eq_of_toNat_eq h) hd0
        · exact h
      have hrp := toNat_run_pred hpos
      obtain ⟨m, hmm⟩ : ∃ m, d.run.toNat = m + 1 := ⟨d.run.toNat - 1, by omega⟩
      rw [hmm] at h2 h3 h4 h5 h6 hrp
      simp only [Nat.add_sub_cancel] at hrp
      have hp : p = e.px := h3 p (by simp)
      obtain ⟨b1, b2, b3, b4, b5, b6⟩ := fin (d.withRun (d.run - 1)) hm ha rfl rfl rfl rfl (by show d.px = p; rw [hpx, hp])
      have hpull : pull d = .next (d.withRun (d.run - 1)).completePull := by
        rw [pull_eq_pullActive hm ha, pullActive, (State.runActive_iff d).mpr hd0, if_pos rfl]
      refine ⟨_, hpull, ?_, b1, b2, b3, b4, b5⟩
      rw [b6]
      have hnc : (encNext e p).cache = e.cache := by simp only [encNext, encCache]; rw [if_pos hp]
      refine ⟨by show d.px = p; rw [hpx, hp], by show d.cache = _; rw [hca, hnc], hfail, hm, encRun_le _ _, ?_⟩
      simp only [List.drop_succ_cons] at h5 h6
      by_cases hl : e.run.toNat < 8223
      · have hn : (encNext e p).run.toNat = e.run.toNat + 1 := by
          simp only [encNext, encRun]; rw [if_pos hp, if_pos hl]; simp [BitVec.toNat_add]; omega
        have hcl : EncRegs.clear (encNext e p) = EncRegs.clear e := by simp only [EncRegs.clear, encNext, encCache]; rw [if_pos hp, hp]
        refine .inr ⟨by omega, ?_, ?_, ?_, ?_, ?_⟩
        · show (d.run - 1).toNat ≤ _; rw [hrp]; simp at h2; omega
        · show ∀ q ∈ ps.take (d.run - 1).toNat, _; rw [hrp]
          intro q hq; rw [h3 q (by simp [hq])]; exact hp.symm
        · show _ + (d.run - 1).toNat ≤ _; omega
        · show d.input.drop d.ipos = encStream _ (ps.drop (d.run - 1).toNat) ++ _; rw [hrp, hcl]; exact h5
        · show _ + (d.run - 1).toNat = _ ∨ ∀ q, (ps.drop (d.run - 1).toNat).head? = _ → _
          rw [hrp, hn]; rcases h6 with h | h
          · left; omega
          · right; intro q hq; have := h q hq; show q ≠ p; rw [hp]; exact this
      · have hr : e.run.toNat = 8223 := by omega
        have hm0 : m = 0 := by omega
        subst hm0
        have hn : encNext e p = EncRegs.clear e := by
          simp only [EncRegs.clear, encNext, encCache, encRun]; rw [if_pos hp, if_pos hp, if_neg hl, hp]
        refine .inl ⟨by rw [hn]; rfl, ?_, ?_⟩
        · show d.run - 1 = 0; apply BitVec.eq_of_toNat_eq; rw [hrp]; rfl
        · show d.input.drop d.ipos = _; rw [hn]; exact h5

end Sys2Proof.Machine
end

