-- ==== Sys2Proof/Laws/Container.lean ====
section
/-!
SUPPORT. The container compositions: the header read back, the pixels in row-major order, and what encodeImage writes in closed form.
-/

namespace Sys2Proof.Machine

/-! ## The header -/

/-- A field's four bytes, most significant first, are the field. -/
theorem bigEndian_concat (v : BitVec 32) :
    v.extractLsb' 24 8 ++ v.extractLsb' 16 8 ++ v.extractLsb' 8 8 ++ v.extractLsb' 0 8 = v := by
  apply BitVec.eq_of_getLsbD_eq
  intro i hi
  simp only [BitVec.getLsbD_append, BitVec.getLsbD_extractLsb', BitVec.getLsbD_append]
  have : i < 8 ∨ (8 ≤ i ∧ i < 16) ∨ (16 ≤ i ∧ i < 24) ∨ 24 ≤ i := by omega
  rcases this with h | ⟨h1, h2⟩ | ⟨h1, h2⟩ | h
  · simp [h]
  · rw [if_neg (by omega), if_pos (by omega)]
    have : 8 + (i - 8) = i := by omega
    rw [this]; simp; omega
  · rw [if_neg (by omega), if_neg (by omega), if_pos (by omega)]
    have : 16 + (i - 8 - 8) = i := by omega
    rw [this]; simp; omega
  · rw [if_neg (by omega), if_neg (by omega), if_neg (by omega)]
    have : 24 + (i - 8 - 8 - 8) = i := by omega
    rw [this]; simp; omega

/-- Reading a written header whose channel byte is legal gives its fields and the bytes after it (rules R120, R121). -/
theorem readHeader_writeHeader (d : Descriptor) (rest : List Byte) (h : d.channels = 3 ∨ d.channels = 4) :
    readHeader (writeHeader d ++ rest) = .ok (d, rest) := by
  have hshape : writeHeader d ++ rest =
      0x71 :: 0x6F :: 0x69 :: 0x66 :: (bigEndian d.width ++ (bigEndian d.height ++ (d.channels :: d.colorspace :: rest))) := by
    simp [writeHeader, magic]
  rw [hshape]; unfold readHeader bigEndian
  rw [if_neg (by simp [Config.headerBytes]), if_neg (by simp [magic]), if_neg]
  · congr 2
    simp only [List.cons_append, List.nil_append, List.getD_cons_succ, List.getD_cons_zero]
    cases d; congr 1
    · exact bigEndian_concat _
    · exact bigEndian_concat _
  · simp only [List.cons_append, List.nil_append, List.getD_cons_succ, List.getD_cons_zero]
    rcases h with h | h <;> simp [h]

/-- ENC_CHANNELS is a channel byte that readHeader accepts. -/
theorem EncChannels.byte_legal (c : EncChannels) : c.byte = 3 ∨ c.byte = 4 := by cases c <;> simp [EncChannels.byte]

/-! ## Row-major order -/

/-- Rows of one length, joined: the k-th element is that of row `k / w`, column `k % w`. -/
theorem getElem?_rows {α : Type} (f : Nat → Nat → α) (w : Nat) : ∀ (h k : Nat), k < w * h →
    ((List.range h).flatMap fun y => (List.range w).map fun x => f x y)[k]? = some (f (k % w) (k / w)) := by
  intro h
  induction h with
  | zero => intro k hk; simp at hk
  | succ h ih =>
    intro k hk
    have hlen : ((List.range h).flatMap fun y => (List.range w).map fun x => f x y).length = w * h := by
      simp [List.length_flatMap, Nat.mul_comm]
    rw [List.range_succ, List.flatMap_append]
    by_cases hl : k < w * h
    · rw [List.getElem?_append_left (by rw [hlen]; exact hl)]; exact ih k hl
    · have hw : k - w * h < w := by rw [Nat.mul_succ] at hk; omega
      have hk' : k = w * h + (k - w * h) := by omega
      rw [List.getElem?_append_right (by rw [hlen]; omega), hlen]
      have h1 : k / w = h := by rw [hk', Nat.mul_add_div (by omega), Nat.div_eq_of_lt hw]; simp
      have h2 : k % w = k - w * h := by rw [hk', Nat.mul_add_mod, Nat.mod_eq_of_lt hw]; omega
      simp [hw, h1, h2]

/-- A buffer has width times height pixels. -/
@[simp] theorem PixelBuffer.length_rowMajor (b : PixelBuffer) : b.rowMajor.length = b.width.toNat * b.height.toNat := by
  simp [PixelBuffer.rowMajor, List.length_flatMap, Nat.mul_comm]

/-- The k-th pixel is the one at (k mod w, k div w) (rule R19). -/
theorem PixelBuffer.getElem?_rowMajor (b : PixelBuffer) (k : Nat) (h : k < b.width.toNat * b.height.toNat) :
    b.rowMajor[k]? = some (b.pixelAt (k % b.width.toNat) (k / b.width.toNat)) :=
  getElem?_rows b.pixelAt _ _ _ h

/-! ## What an encode pass writes -/

/-- An encode pass between two operations: the sink holds what has been delivered, and refuses none of it. -/
structure Delivering (s : State) : Prop where
  active : s.ActiveIn .encode
  run_le : s.run.toNat ≤ 8223
  opos_eq : s.opos = s.out.length
  sent_le : s.sent ≤ s.opos
  sink_eq : s.sink = s.out.take s.sent
  accepted : ∀ k, s.outFail = some k → s.sent ≤ k

/-- The answer to an operation that handed back Ok. -/
theorem answered_ok (before t : State) : answered before (.next (t.report .ok)) = (t.report .ok, .complete) := by
  simp [answered, State.report]

/-- The answer to an operation that raised. -/
theorem answered_raise (before s : State) (kind : ErrCode) (info : ErrInfo) :
    answered before (.next (s.raise kind info)) = (s.raise kind info, .failed kind (some info)) := by
  simp [answered, State.raise]

/-- Delivery of more output up to a target, answered: the sink then holds OUT up to the target, or up to the byte it refuses. -/
theorem answered_delivery {s u : State} (ok : State → State) (before : State) (target : Nat) (hs : Delivering s) (hb : before.sink = s.sink)
    (hout : s.out <+: u.out) (hsent : u.sent = s.sent) (hsink : u.sink = s.sink) (hfail : u.outFail = s.outFail) (ht : s.sent ≤ target) :
    (answered s (.next (before.afterDelivery (u.deliverTo target) ok)) =
        ((ok { u with sink := u.out.take target, sent := target }).report .ok, .complete) ∧ ∀ k, s.outFail = some k → target ≤ k) ∨
    (∃ t k, answered s (.next (before.afterDelivery (u.deliverTo target) ok)) = (t, .failed .stream (some ⟨.ioFailure, k⟩)) ∧
        s.outFail = some k ∧ k < target ∧ t.sink = u.out.take k) := by
  have hlen : s.sent ≤ s.out.length := hs.opos_eq ▸ hs.sent_le
  rcases State.afterDelivery_cases before (u.deliverTo target) ok with ⟨v, hv, hv'⟩ | ⟨info, received, hd, hv'⟩
  · left
    obtain ⟨hk, rfl⟩ := (State.deliverTo_ok_iff _ _ _).mp hv
    refine ⟨?_, fun k hk' => ?_⟩
    · rw [hv', answered_ok]
      congr 4
      show ({ u with sink := u.sink ++ u.outSlice u.sent target, sent := target } : State) = _
      have := sink_append_delivered hs.sink_eq hlen hout ht
      rw [hsink, State.outSlice, hsent, this]
    · have h1 := hs.accepted k hk'
      have h2 := hk k (hfail.trans hk')
      rw [hsent] at h2; omega
  · right
    obtain ⟨k, h1, h2, h3, rfl, rfl⟩ := (State.deliverTo_error_iff _ _ _ _).mp hd
    refine ⟨_, k, by rw [hv', answered_raise], hfail.symm.trans h1, h3, ?_⟩
    show before.sink ++ u.outSlice u.sent k = _
    rw [hb, State.outSlice, hsent]
    exact sink_append_delivered hs.sink_eq hlen hout (hsent ▸ h2)

/-- A Push of an encode pass, answered: Ok with the pixel's bytes emitted, or the failure of the byte the sink refuses. -/
theorem answered_push {s : State} (hs : Delivering s) (p : Pixel) :
    (∃ t, answered s (push p s) = (t, .complete) ∧ Delivering t ∧ t.encRegs = encNext s.encRegs p ∧
        t.out = s.out ++ encBytes s.encRegs p ∧ t.outFail = s.outFail) ∨
    (∃ t k, answered s (push p s) = (t, .failed .stream (some ⟨.ioFailure, k⟩)) ∧ s.outFail = some k ∧
        k < (s.out ++ encBytes s.encRegs p).length ∧ t.sink = (s.out ++ encBytes s.encRegs p).take k) := by
  obtain ⟨draw, hdraw⟩ : ∃ draw, push p s = pushWith draw p s := ⟨_, rfl⟩
  have hp : pushWith draw p s = pushActive draw p s.drawn := by unfold pushWith; rw [hs.active.1, hs.active.2]
  rw [hdraw, hp, pushActive, State.encodePixel_eq s.drawn p hs.run_le]
  simp only
  obtain ⟨c, d, hc⟩ := State.bumpCount_fields { s.drawn with
    px := p, cache := encCache ⟨s.drawn.px, s.drawn.cache, s.drawn.run⟩ p, run := encRun ⟨s.drawn.px, s.drawn.cache, s.drawn.run⟩ p
    out := s.drawn.out ++ encBytes ⟨s.drawn.px, s.drawn.cache, s.drawn.run⟩ p
    opos := s.drawn.opos + (encBytes ⟨s.drawn.px, s.drawn.cache, s.drawn.run⟩ p).length }
  rw [hc, State.deliver]
  obtain ⟨u, hu⟩ : ∃ u, u = ({ s.drawn with
    px := p, cache := encCache ⟨s.drawn.px, s.drawn.cache, s.drawn.run⟩ p, run := encRun ⟨s.drawn.px, s.drawn.cache, s.drawn.run⟩ p
    out := s.drawn.out ++ encBytes ⟨s.drawn.px, s.drawn.cache, s.drawn.run⟩ p
    opos := s.drawn.opos + (encBytes ⟨s.drawn.px, s.drawn.cache, s.drawn.run⟩ p).length, count := c, draws := d } : State) := ⟨_, rfl⟩
  have u1 : u.out = s.out ++ encBytes s.encRegs p := by rw [hu]; rfl
  have u2 : u.sent = s.sent := by rw [hu]; rfl
  have u3 : u.sink = s.sink := by rw [hu]; rfl
  have u4 : u.outFail = s.outFail := by rw [hu]; rfl
  have u5 : u.opos = u.out.length := by rw [u1, hu]; simp [State.drawn, State.encRegs, hs.opos_eq]
  have u6 : u.ActiveIn .encode := by rw [hu]; exact hs.active
  have u7 : u.encRegs = encNext s.encRegs p := by rw [hu]; rfl
  rw [← hu]
  have hsent : u.sent ≤ u.opos := by rw [u2, u5, u1]; have := hs.sent_le; rw [hs.opos_eq] at this; simp; omega
  have hb := State.deliveryTarget_bounds u draw hsent
  rcases answered_delivery id s.drawn (u.deliveryTarget draw) hs rfl (u1 ▸ ⟨_, rfl⟩) u2 u3 u4 (u2 ▸ hb.1) with ⟨h1, h2⟩ | ⟨t, k, h1, h2, h3, h4⟩
  · refine .inl ⟨_, h1, ⟨u6, ?_, u5, hb.2.2, rfl, fun k hk => h2 k (u4.symm.trans hk)⟩, u7, u1, u4⟩
    show u.run.toNat ≤ _
    have : u.run = encRun s.encRegs p := congrArg EncRegs.run u7
    rw [this]; exact encRun_le _ _
  · refine .inr ⟨t, k, h1, h2, ?_, u1 ▸ h4⟩
    rw [← u1, ← u5]; omega

/-- Finish of an encode pass, answered: Ok with everything in the sink, or the failure of the byte the sink refuses. -/
theorem answered_finish {s : State} (hs : Delivering s) :
    (∃ t, answered s (finish s) = (t, .complete) ∧ t.sink = s.out ++ pendingBytes s.run ∧
        ∀ k, s.outFail = some k → (s.out ++ pendingBytes s.run).length ≤ k) ∨
    (∃ t k, answered s (finish s) = (t, .failed .stream (some ⟨.ioFailure, k⟩)) ∧ s.outFail = some k ∧
        k < (s.out ++ pendingBytes s.run).length ∧ t.sink = (s.out ++ pendingBytes s.run).take k) := by
  have hf : finish s = finishActive s := by unfold finish; rw [hs.active.1, hs.active.2]
  rw [hf, finishActive, State.flushPending_eq s (by have := hs.run_le; omega)]
  simp only [State.flushOutput]
  obtain ⟨u, hu⟩ : ∃ u, u = State.flushed s := ⟨_, rfl⟩
  have u1 : u.out = s.out ++ pendingBytes s.run := by rw [hu]; rfl
  have u2 : u.sent = s.sent := by rw [hu]; rfl
  have u3 : u.sink = s.sink := by rw [hu]; rfl
  have u4 : u.outFail = s.outFail := by rw [hu]; rfl
  have u5 : u.opos = (s.out ++ pendingBytes s.run).length := by rw [hu, List.length_append, ← hs.opos_eq]; rfl
  rw [← hu]
  have ht : s.sent ≤ u.opos := by rw [u5, List.length_append, ← hs.opos_eq]; have := hs.sent_le; omega
  rcases answered_delivery (State.withStatus .done) s u.opos hs rfl (u1 ▸ ⟨_, rfl⟩) u2 u3 u4 ht with ⟨h1, h2⟩ | ⟨t, k, h1, h2, h3, h4⟩
  · refine .inl ⟨_, h1, ?_, fun k hk => u5 ▸ h2 k hk⟩
    show u.out.take u.opos = _
    rw [u5, u1, List.take_length]
  · exact .inr ⟨t, k, h1, h2, u5 ▸ h3, u1 ▸ h4⟩

/-- The rest of an encode pass, its Pushes and its Finish, answered. -/
theorem answered_pass (pixels : List Pixel) : ∀ {s : State}, Delivering s →
    let answer := match pushPixels pixels s with
      | (t, .complete) => answered t (finish t)
      | (t, ending) => (t, ending)
    (∃ t, answer = (t, .complete) ∧ t.sink = s.out ++ encStream s.encRegs pixels ∧
        ∀ k, s.outFail = some k → (s.out ++ encStream s.encRegs pixels).length ≤ k) ∨
    (∃ t k, answer = (t, .failed .stream (some ⟨.ioFailure, k⟩)) ∧ s.outFail = some k ∧
        k < (s.out ++ encStream s.encRegs pixels).length ∧ t.sink = (s.out ++ encStream s.encRegs pixels).take k) := by
  induction pixels with
  | nil => exact fun hs => answered_finish hs
  | cons p ps ih =>
    intro s hs
    rw [encStream_cons, ← List.append_assoc]
    rcases answered_push hs p with ⟨t, h1, h2, h3, h4, h5⟩ | ⟨t, k, h1, h2, h3, h4⟩
    · simp only [pushPixels, h1]
      rw [← h3, ← h4, ← h5]
      exact ih h2
    · simp only [pushPixels, h1]
      refine .inr ⟨t, k, rfl, h2, by rw [List.length_append]; omega, ?_⟩
      rw [h4, List.take_append_of_le_length (l₁ := s.out ++ encBytes s.encRegs p) (by omega)]

/-- The registers of the encoder after Start. -/
def EncRegs.start : EncRegs := ⟨Config.pxInit, Vector.replicate 64 Config.cacheInit, 0⟩

/-- What encodeImage writes (rules R126, R128, R306): header, stream and padding, or header and stream up to the byte the sink refuses. -/
theorem encodeImage_eq (channels : EncChannels) (colorspace : Byte) (buffer : PixelBuffer) (outFail : Option Nat) (s : State) :
    let header := writeHeader (buffer.descriptor channels colorspace)
    let out := encStream EncRegs.start buffer.rowMajor
    (encodeImage channels colorspace buffer outFail s = (header ++ out ++ [0, 0, 0, 0], .complete) ∧ ∀ k, outFail = some k → out.length ≤ k) ∨
    (∃ k, encodeImage channels colorspace buffer outFail s = (header ++ out.take k, .failed .stream (some ⟨.ioFailure, k⟩)) ∧
      outFail = some k ∧ k < out.length) := by
  intro header out
  have hs : Delivering (startOp .encode buffer.width buffer.height channels.byte colorspace ⟨[], none, outFail⟩ s) :=
    ⟨⟨rfl, by rw [startOp_status]; simp⟩, by show (0#14).toNat ≤ 8223; decide, rfl, Nat.le_refl 0, rfl, fun k _ => Nat.zero_le k⟩
  rcases answered_pass buffer.rowMajor hs with ⟨t, h1, h2, h3⟩ | ⟨t, k, h1, h2, h3, h4⟩
  · refine .inl ⟨?_, h3⟩
    have he : encodePass (buffer.descriptor channels colorspace) buffer.rowMajor outFail s = (t, .complete) := h1
    simp only [encodeImage, he]
    rw [h2]; rfl
  · refine .inr ⟨k, ?_, h2, h3⟩
    have he : encodePass (buffer.descriptor channels colorspace) buffer.rowMajor outFail s = (t, .failed .stream (some ⟨.ioFailure, k⟩)) := h1
    simp only [encodeImage, he]
    rw [h4]; rfl

end Sys2Proof.Machine
end

