-- ==== Sys2Proof/Tests/Slice0.lean ====
section
/-!
SUPPORT. Tests of one step each, with the expected values of 95_test_vectors.md (the vector's name stands in each docstring) or worked
out by hand from the cited rule, and one witness for each statement that has hypotheses.
-/

namespace Sys2Proof.Tests

open Sys2Proof.Machine

/-! ## Helpers -/

/-- The Start state of a decode pass of `n` pixels over `bytes`. -/
def decoding (bytes : List Byte) (n : BitVec 32) : State := startOp .decode n 1 4 0 ⟨bytes, none, none⟩ State.reset

/-- The Start state of an encode pass of 3 by 2 pixels, OBUF_BYTES 0. -/
def encoding : State := startOp .encode 3 2 4 0 ⟨[], none, none⟩ State.reset

/-- The next state of an outcome. -/
def nextOf (o : Host.Outcome State Fault Refusal) : Option State :=
  match o with
  | .next t => some t
  | _ => none

/-- What the tests look at in a state: PX, RUN, IPOS, STATUS and the results. -/
structure View where
  px : Pixel
  run : Nat
  ipos : Nat
  status : Status
  results : List Result
deriving DecidableEq, Repr

/-- The view of an outcome's next state. -/
def view (o : Host.Outcome State Fault Refusal) : Option View :=
  (nextOf o).map fun t => ⟨t.px, t.run.toNat, t.ipos, t.status, t.results⟩

/-- One cache entry of an outcome's next state. -/
def slot (o : Host.Outcome State Fault Refusal) (i : BitVec 6) : Option Pixel := (nextOf o).map fun t => t.lookup i

/-- What a Push to the state emits. -/
def emitted (s : State) (p : Pixel) : Option (List Byte) := (nextOf (push p s)).map fun t => t.out.drop s.out.length

/-- The refusal of an outcome. -/
def refusalOf (o : Host.Outcome State Fault Refusal) : Option Refusal :=
  match o with
  | .refused r => some r
  | _ => none

/-! ## Well-formedness and decoding -/

/-- R92: a COLOR with a literal too many or too few is refused by the check, and by `exec`. -/
theorem test_wf_refuses_color : (Instr.color true false true false [1]).wf = false ∧
    (Instr.color false false false false [1]).wf = false ∧
    refusalOf (exec (.color true false true false [1]) State.reset) = some .illFormedColor := by decide

/-- R82: `00iiiiii`, index 53. -/
theorem test_decode_index : (decode [0b00_110101]).toOption = some (.index 53, []) := by decide
/-- R83: `010nnnnn`, length 2; the byte after it is left. -/
theorem test_decode_run8 : (decode [0b010_00001, 0x99]).toOption = some (.run8 1, [0x99]) := by decide
/-- R84: `011nnnnn nnnnnnnn`, the high five bits in the tag. -/
theorem test_decode_run16 : (decode [0b011_00001, 0b00000000]).toOption = some (.run16 256, []) := by decide
/-- R85: `10rrggbb`. -/
theorem test_decode_diff8 : (decode [0b10_11_01_10]).toOption = some (.diff8 3 1 2, []) := by decide
/-- R86: `110rrrrr ggggbbbb`. -/
theorem test_decode_diff16 : (decode [0b110_10101, 0b1101_1110]).toOption = some (.diff16 21 13 14, []) := by decide
/-- R87: `1110rrrr rgggggbb bbbaaaaa`, the fields 17, 9, 21 and 6. -/
theorem test_decode_diff24 :
    (decode [0b1110_1000, 0b1_01001_10, 0b101_00110]).toOption = some (.diff24 17 9 21 6, []) := by decide
/-- R88: `1111RGBA`, G and A flagged, two literals. -/
theorem test_decode_color :
    (decode [0b1111_0101, 9, 7, 1]).toOption = some (.color false true false true [9, 7], [1]) := by decide
/-- R91: a missing operand byte. -/
theorem test_decode_short : decode [0xD5] = .error .missingOperandByte ∧ decode [] = .error .noTagByte := ⟨rfl, rfl⟩
/-- R93: the sizes of the seven classes. -/
theorem test_class_sizes : [Opcode.index, .run8, .run16, .diff8, .diff16, .diff24, .color].map
    (fun o => ((List.range 256).filter fun n => classify (BitVec.ofNat 8 n) = o).length) = [64, 32, 32, 64, 32, 16, 16] := by decide
/-- L2-T: the lengths of the tags at the edges of each class. -/
theorem test_lengths : [0x00, 0x3F, 0x40, 0x5F, 0x60, 0x7F, 0x80, 0xBF, 0xC0, 0xDF, 0xE0, 0xEF, 0xF0, 0xF1, 0xF5, 0xFE, 0xFF].map tagLength =
    [1, 1, 1, 1, 2, 2, 1, 1, 2, 2, 3, 3, 1, 2, 3, 4, 5] := by decide
/-- The encoder on L1-5c's and L2-D27's words. -/
theorem test_encode : encode (.diff24 17 16 16 15) = [0xE8, 0xC2, 0x0F] ∧ encode (.color true true true true [1, 2, 3, 4]) = [0xFF, 1, 2, 3, 4] := by
  decide
/-- R100: the assembly of L2-R's flush words. -/
theorem test_assembly : (AsmLine.run 34).instr.map encode = some [0x60, 0x01] ∧ (AsmLine.run 8225).instr = none := by decide

/-! ## One step per instruction, after reset -/

/-- The instruction placed by `withFetchWord` after reset is the one the first step runs: INDEX (L2-D1), RUN_8 (R83), RUN_16 (R84). -/
theorem test_fetch_run : view (step (State.reset.withFetchWord 8 0x00)) = some ⟨⟨0, 0, 0, 0⟩, 0, 1, .done, [.pixel ⟨0, 0, 0, 0⟩]⟩ ∧
    view (step (State.reset.withFetchWord 8 0x5F)) = some ⟨⟨0, 0, 0, 255⟩, 31, 1, .done, [.pixel ⟨0, 0, 0, 255⟩]⟩ ∧
    view (step (State.reset.withFetchWord 16 0xFF7F)) = some ⟨⟨0, 0, 0, 255⟩, 8223, 2, .done, [.pixel ⟨0, 0, 0, 255⟩]⟩ := by decide

/-- The same for DIFF_8 (L2-D14), DIFF_16 (L2-D20), DIFF_24 (L2-D25) and COLOR (L2-D27, its literals being zeros above the table's bits). -/
theorem test_fetch_diff : view (step (State.reset.withFetchWord 8 0xBF)) = some ⟨⟨1, 1, 1, 255⟩, 0, 1, .done, [.pixel ⟨1, 1, 1, 255⟩]⟩ ∧
    view (step (State.reset.withFetchWord 16 0xDDD5)) = some ⟨⟨5, 5, 5, 255⟩, 0, 2, .done, [.pixel ⟨5, 5, 5, 255⟩]⟩ ∧
    view (step (State.reset.withFetchWord 24 0x506BED)) = some ⟨⟨10, 10, 10, 255⟩, 0, 3, .done, [.pixel ⟨10, 10, 10, 255⟩]⟩ ∧
    view (step (State.reset.withFetchWord 8 0xFF)) = some ⟨⟨0, 0, 0, 0⟩, 0, 5, .done, [.pixel ⟨0, 0, 0, 0⟩]⟩ := by decide

/-- R347: with nothing issued the block stays, after reset too. -/
theorem test_idle : nextOf (step State.reset) = some State.reset := by decide

/-- L2-D2: slot 63 is still zero although PX is (0,0,0,255). -/
theorem test_index_unwritten : view (pull (decoding [0x3F] 1)) = some ⟨⟨0, 0, 0, 0⟩, 0, 1, .done, [.pixel ⟨0, 0, 0, 0⟩]⟩ := by decide
/-- R190's example: 0x35 with slot 53 set, the cache unchanged. -/
theorem test_index_hit : view (pull ((decoding [0x35] 2).storePixel ⟨10, 10, 10, 255⟩)) =
      some ⟨⟨10, 10, 10, 255⟩, 0, 1, .active, [.pixel ⟨10, 10, 10, 255⟩]⟩ ∧
    slot (pull ((decoding [0x35] 2).storePixel ⟨10, 10, 10, 255⟩)) 53 = some ⟨10, 10, 10, 255⟩ := by decide
/-- L2-D4: length 1. -/
theorem test_run8_one : view (pull (decoding [0x40] 1)) = some ⟨⟨0, 0, 0, 255⟩, 0, 1, .done, [.pixel ⟨0, 0, 0, 255⟩]⟩ := by decide
/-- R194's example: a continuation reads nothing. -/
theorem test_run8_continues : view (pull (decoding [0x41] 3)) = some ⟨⟨0, 0, 0, 255⟩, 1, 1, .active, [.pixel ⟨0, 0, 0, 255⟩]⟩ ∧
    view (pull ((decoding [] 3).withRun 1)) = some ⟨⟨0, 0, 0, 255⟩, 0, 0, .active, [.pixel ⟨0, 0, 0, 255⟩]⟩ := by decide
/-- L2-D9: `61 00` is 289. -/
theorem test_run16_high_bits : view (pull (decoding [0x61, 0x00] 289)) =
    some ⟨⟨0, 0, 0, 255⟩, 288, 2, .active, [.pixel ⟨0, 0, 0, 255⟩]⟩ := by decide
/-- L2-D11: the largest RUN. -/
theorem test_run16_longest : view (pull (decoding [0x7F, 0xFF] 1)) =
    some ⟨⟨0, 0, 0, 255⟩, 8223, 2, .done, [.pixel ⟨0, 0, 0, 255⟩]⟩ := by decide
/-- L2-D13: each channel wraps, and the store is at slot 1. -/
theorem test_diff8_wraps : view (pull (decoding [0x80] 1)) = some ⟨⟨254, 254, 254, 255⟩, 0, 1, .done, [.pixel ⟨254, 254, 254, 255⟩]⟩ ∧
    slot (pull (decoding [0x80] 1)) 1 = some ⟨254, 254, 254, 255⟩ := by decide
/-- L2-D12: a zero DIFF_8 stores. -/
theorem test_diff8_zero_stores : slot (pull (decoding [0xAA] 1)) 63 = some ⟨0, 0, 0, 255⟩ := by decide
/-- L2-D17: the lower bounds, R of bias 16 and G, B of bias 8. -/
theorem test_diff16_low : view (pull (decoding [0xC0, 0x00] 1)) =
      some ⟨⟨240, 248, 248, 255⟩, 0, 2, .done, [.pixel ⟨240, 248, 248, 255⟩]⟩ ∧
    slot (pull (decoding [0xC0, 0x00] 1)) 15 = some ⟨240, 248, 248, 255⟩ := by decide
/-- L2-D18: the upper bounds. -/
theorem test_diff16_high : view (pull (decoding [0xDF, 0xFF] 1)) =
    some ⟨⟨15, 7, 7, 255⟩, 0, 2, .done, [.pixel ⟨15, 7, 7, 255⟩]⟩ := by decide
/-- L2-D22: alpha wraps. -/
theorem test_diff24_alpha_wraps : view (pull (decoding [0xEF, 0xFF, 0xFF] 1)) =
      some ⟨⟨15, 15, 15, 14⟩, 0, 3, .done, [.pixel ⟨15, 15, 15, 14⟩]⟩ ∧
    slot (pull (decoding [0xEF, 0xFF, 0xFF] 1)) 1 = some ⟨15, 15, 15, 14⟩ := by decide
/-- L2-D24: alpha alone. -/
theorem test_diff24_alpha_only : view (pull (decoding [0xE8, 0x42, 0x00] 1)) =
    some ⟨⟨0, 0, 0, 239⟩, 0, 3, .done, [.pixel ⟨0, 0, 0, 239⟩]⟩ := by decide
/-- R241 with L2-D29's tag class: the literals of tag 0xF5 are G and A. -/
theorem test_color_order : view (pull (decoding [0xF5, 9, 7] 1)) = some ⟨⟨0, 9, 0, 7⟩, 0, 3, .done, [.pixel ⟨0, 9, 0, 7⟩]⟩ := by decide
/-- L2-D32: last write wins in slot 63. -/
theorem test_color_evicts : slot (pull ({ (decoding [0xF4, 0x80] 2).storePixel ⟨128, 0, 0, 255⟩ with px := ⟨128, 0, 0, 255⟩ })) 63 =
    some ⟨128, 128, 0, 255⟩ := by decide

/-! ## Operations, errors and the encoder -/

/-- L2-S1: an empty decode pass is DONE at once, and Pull returns End. -/
theorem test_empty_pass : view (pull (startOp .decode 0 5 4 0 ⟨[], none, none⟩ State.reset)) =
    some ⟨⟨0, 0, 0, 255⟩, 0, 0, .done, [.endOfPass]⟩ := by decide
/-- L2-S3 and L2-S5: a missing operand byte, and an input failure before end of stream. -/
theorem test_stream_errors :
    (nextOf (pull (decoding [0xD5] 1))).map (fun t => (t.status, t.px, t.results)) =
      some (.error, ⟨0, 0, 0, 255⟩, [.error .stream (some ⟨.endOfStream, 1⟩)]) ∧
    (nextOf (pull { decoding [] 1 with inFail := some 0 })).map (fun t => (t.err.code, t.results)) =
      some (3, [.error .stream (some ⟨.ioFailure, 0⟩)]) := by decide
/-- L2-S6: a failure at a byte never asked for is never reported. -/
theorem test_unread_failure : view (pull { decoding [0x40] 1 with inFail := some 1 }) =
    some ⟨⟨0, 0, 0, 255⟩, 0, 1, .done, [.pixel ⟨0, 0, 0, 255⟩]⟩ := by decide
/-- L2-S11, L2-S12 and L2-S15: operations without a step. -/
theorem test_refusals : refusalOf (pull encoding) = some .pullHasNoStep ∧ refusalOf (finish (decoding [] 1)) = some .finishHasNoStep ∧
    refusalOf (push ⟨0, 0, 0, 0⟩ State.reset) = some .pushHasNoStep := by decide
/-- L2-E1, L2-E5, L2-E6, L2-E7, L2-E14 and L2-E17: the forms chosen from the Start state. -/
theorem test_push_from_start : [⟨1, 0, 0, 255⟩, ⟨16, 0, 0, 255⟩, ⟨15, 0, 0, 255⟩, ⟨0, 8, 0, 255⟩, ⟨1, 255, 0, 255⟩, ⟨0, 0, 0, 0⟩].map (emitted encoding) =
    [some [0xBA], some [0xF8, 0x10], some [0xDF, 0x88], some [0xE8, 0x62, 0x10], some [0xFC, 0x01, 0xFF], some [0x00]] := by decide
/-- L2-E2, L2-E3, L2-E4 and L2-E8: the forms chosen after (5,5,5,255). -/
theorem test_push_after_pixel : [⟨3, 5, 5, 255⟩, ⟨7, 5, 5, 255⟩, ⟨6, 5, 5, 254⟩, ⟨6, 5, 5, 200⟩].map (emitted { encoding with px := ⟨5, 5, 5, 255⟩ }) =
    [some [0x8A], some [0xD2, 0x88], some [0xE8, 0xC2, 0x0F], some [0xF9, 0x06, 0xC8]] := by decide
/-- L2-E13: plain deltas do not wrap. -/
theorem test_push_plain_delta : emitted { encoding with px := ⟨255, 0, 0, 255⟩ } ⟨0, 0, 0, 255⟩ = some [0xF8, 0x00] := by decide
/-- L1-4a and L3-P2's Push 3: the flush at the cap, and the flush before a DIFF_16. -/
theorem test_push_flushes : emitted (encoding.withRun 8223) ⟨0, 0, 0, 255⟩ = some [0x7F, 0xFF] ∧
    emitted (encoding.withRun 2) ⟨5, 5, 5, 255⟩ = some [0x41, 0xD5, 0xDD] ∧ emitted (encoding.withRun 2) ⟨0, 0, 0, 255⟩ = some [] := by decide
/-- L2-R2: Finish flushes a run of 34, and the sink holds OUT. -/
theorem test_finish : (nextOf (finish (encoding.withRun 34))).map (fun t => (t.status, t.out, t.sink, t.sent)) =
    some (.done, [0x60, 0x01], [0x60, 0x01], 2) := by decide
/-- L2-S17: the state before Push 4, OUT_FAIL 3, OBUF_BYTES 0. -/
theorem test_sink_failure :
    (nextOf (push ⟨5, 5, 5, 128⟩ { encoding.storePixel ⟨5, 5, 5, 255⟩ with
        px := ⟨5, 5, 5, 255⟩, out := [0x41, 0xD5, 0xDD], opos := 3, sent := 3, sink := [0x41, 0xD5, 0xDD], count := 3, outFail := some 3 })).map
      (fun t => (t.status, t.px, t.count, t.sink, t.results)) =
    some (.error, ⟨5, 5, 5, 255⟩, 3, [0x41, 0xD5, 0xDD], [.error .stream (some ⟨.ioFailure, 3⟩)]) := by decide
/-- L1-2i, L1-2j, L1-2c and L1-2m: the header's checks. -/
theorem test_header : (readHeader [0, 0, 0, 0, 1, 2, 3, 4, 5, 6, 7, 8, 5, 0]).toOption = none ∧
    decodeHeader [] = .error .stream ∧
    decodeHeader [0x71, 0x6F, 0x69, 0x66, 0, 0, 0, 1, 0, 0, 0, 1, 0, 0] = .error .channel ∧
    (decodeHeader [0x71, 0x6F, 0x69, 0x66, 0, 0, 1, 0, 0, 0, 0, 2, 3, 0]).toOption = some (256, 2) := ⟨by decide, rfl, rfl, by decide⟩
/-- L1-7 with ENC_CHANNELS 4 and ENC_COLORSPACE 0: the whole container. -/
theorem test_container : encodeImage .four 0 ⟨2, 1, fun _ _ => ⟨10, 10, 10, 255⟩⟩ none State.reset =
    ([0x71, 0x6F, 0x69, 0x66, 0, 0, 0, 2, 0, 0, 0, 1, 4, 0, 0xED, 0x6B, 0x50, 0x40, 0, 0, 0, 0], .complete) := by decide
/-- R126, R306 and R309: the same image, its sink refusing byte 1 of the stream (at the first Push) and byte 3 (at Finish). -/
theorem test_container_failed :
    encodeImage .four 0 ⟨2, 1, fun _ _ => ⟨10, 10, 10, 255⟩⟩ (some 1) State.reset =
      ([0x71, 0x6F, 0x69, 0x66, 0, 0, 0, 2, 0, 0, 0, 1, 4, 0, 0xED], .failed .stream (some ⟨.ioFailure, 1⟩)) ∧
    encodeImage .four 0 ⟨2, 1, fun _ _ => ⟨10, 10, 10, 255⟩⟩ (some 3) State.reset =
      ([0x71, 0x6F, 0x69, 0x66, 0, 0, 0, 2, 0, 0, 0, 1, 4, 0, 0xED, 0x6B, 0x50], .failed .stream (some ⟨.ioFailure, 3⟩)) := by decide
/-- R28 and R20: the register view of a wrapper. -/
theorem test_registers : (State.reset.readReg .px, State.reset.readReg .status, encoding.readReg .mode, encoding.readReg .total) = (255, 0, 1, 6) ∧
    State.readAddress [(4, .width)] 4 encoding = some 3 ∧ State.readAddress [(4, .width)] 5 encoding = none := by decide

/-! ## Witnesses: each meets all the hypotheses of the statement it is named after, clause by clause -/

/-- A decode pass of 3 pixels whose next opcode is the tag and bytes given. -/
abbrev at3 (bytes : List Byte) : State := decoding bytes 3

theorem witness_TagAloneGivesOpcodeAndLength : (decode ([0x60, 0x01, 0x02] : List Byte)).toOption = some (.run16 1, [0x02]) := by decide
theorem witness_EveryEncodingIsLegal : tagLength 0xF5 ≤ ([0xF5, 1, 2] : List Byte).length ∧
    (at3 []).status = .active ∧ (nextOf (pull (at3 []))).map (fun t => t.status) = some .error := by decide
theorem witness_DecodeInvertsEncode : (Instr.color true false true false [1, 2]).wf = true := by decide
theorem witness_EncodeInvertsDecode : (decode ([0xF5, 1, 2, 3] : List Byte)).toOption = some (.color false true false true [1, 2], [3]) := by decide
/-- Every clause of the assembly statement at the ends of its ranges. -/
theorem witness_AssemblyEncodesByFormula :
    [AsmLine.index 0, .index 63, .run8 1, .run8 32, .run16 33, .run16 8224, .diff8 (-2) 1 0, .diff16 (-16) (-8) 7, .diff24 (-16) 15 0 (-1),
      .color none (some 1) none none, .run 1, .run 32, .run 33, .run 8224].all (fun l => l.instr.isSome) = true ∧
    [AsmLine.index 64, .run8 0, .run8 33, .run16 32, .run16 8225, .run 0, .run 8225].all (fun l => l.instr.isNone) = true := by decide
theorem witness_RangeComparatorsNest : (Delta.mk (-2) 1 0 0).fits8 = true ∧ (Delta.mk 15 (-8) 7 0).fits16 = true ∧
    (Delta.mk 15 (-16) 15 (-16)).fits24 = true ∧ (Delta.mk 16 0 0 0).fits24 = false := by decide
theorem witness_ColorReplacesFlaggedChannels :
    ([1, 2] : List Byte).length = true.toNat + false.toNat + true.toNat + false.toNat ∧
    ([] : List Byte).length = false.toNat + false.toNat + false.toNat + false.toNat ∧
    ([1, 2, 3, 4] : List Byte).length = true.toNat + true.toNat + true.toNat + true.toNat := by decide
theorem witness_IllFormedColorIsRefused : ([1] : List Byte).length ≠ true.toNat + false.toNat + true.toNat + false.toNat := by decide
theorem witness_DecoderCacheUpdatePolicy :
    (nextOf (exec (.diff8 3 3 3) (at3 []))).isSome = true ∧ (nextOf (exec (.index 1) (at3 []))).isSome = true ∧
    (nextOf (pull ((at3 []).withRun 5))).isSome = true ∧ ((at3 []).withRun 5).status = .active ∧ ((at3 []).withRun 5).run ≠ 0 := by decide

/-- A pass in which the instruction is next. -/
theorem ready_of_prefix (i : Instr) (n : BitVec 32) (rest : List Byte) (h : (decoding (encode i ++ rest) n).status = .active) :
    (decoding (encode i ++ rest) n).ReadyFor i :=
  ⟨rfl, h, rfl, ⟨rest, rfl⟩, fun _ h => by cases h⟩

theorem witness_StepRunsDecodedInstruction : (Instr.diff16 0 0 0).wf = true ∧
    (decoding (encode (.diff16 0 0 0) ++ [1]) 2).ReadyFor (.diff16 0 0 0) ∧
    ((decoding (encode (.diff16 0 0 0) ++ [1]) 2).withOps [.pull]).ops = .pull :: [] :=
  ⟨rfl, ready_of_prefix _ _ _ (by decide), rfl⟩
theorem witness_PullEndsByCountingAndReturning : (at3 []).count.toNat < (at3 []).total.toNat := by decide
theorem witness_RunContinuationRepeatsPixel : ((at3 []).withRun 8223).ActiveIn .decode ∧ 0 < ((at3 []).withRun 8223).run.toNat ∧
    ((at3 []).withRun 8223).count.toNat < ((at3 []).withRun 8223).total.toNat := ⟨⟨rfl, by decide⟩, by decide, by decide⟩
/-- Run8RepeatsPixel at its full length, and Run16RepeatsPixel cut short. -/
theorem witness_RunOpcodesRepeatPixel :
    ((decoding (encode (.run8 1) ++ []) 3).ReadyFor (.run8 1) ∧ (1 : BitVec 5).toNat + 1 = 2 ∧
      (decoding (encode (.run8 1) ++ []) 3).count.toNat + 2 ≤ (decoding (encode (.run8 1) ++ []) 3).total.toNat) ∧
    ((decoding (encode (.run16 8191) ++ []) 1).ReadyFor (.run16 8191) ∧ (8191 : BitVec 13).toNat + 33 = 8224 ∧
      (decoding (encode (.run16 8191) ++ []) 1).count.toNat + 1 ≤ (decoding (encode (.run16 8191) ++ []) 1).total.toNat) :=
  ⟨⟨ready_of_prefix _ _ _ (by decide), by decide, by decide⟩, ⟨ready_of_prefix _ _ _ (by decide), by decide, by decide⟩⟩
theorem witness_IposAdvancesByOpcodeLength :
    (decoding (encode (.color true true true true [1, 2, 3, 4]) ++ []) 3).ReadyFor (.color true true true true [1, 2, 3, 4]) ∧
    (nextOf (pull ((at3 []).withRun 1))).isSome = true ∧
    (nextOf (push ⟨1, 2, 3, 4⟩ encoding)).map (fun t => t.status) = some .active ∧
    (nextOf (finish encoding)).map (fun t => t.status) = some .done :=
  ⟨ready_of_prefix _ _ _ (by decide), by decide, by decide, by decide⟩
/-- No byte at all, an operand byte short, and an input failure at an operand byte. -/
theorem witness_ShortReadRaisesStreamError :
    (view (pull (at3 []))).map (fun v => v.results) = some [.error .stream (some ⟨.endOfStream, 0⟩)] ∧
    (view (pull (at3 [0xE8, 0x42]))).map (fun v => v.results) = some [.error .stream (some ⟨.endOfStream, 2⟩)] ∧
    (view (pull { at3 [0xE8, 0x42, 0] with inFail := some 1 })).map (fun v => v.results) = some [.error .stream (some ⟨.ioFailure, 1⟩)] ∧
    (at3 [0xE8, 0x42]).input.length ≤ (at3 [0xE8, 0x42]).ipos + 2 ∧ 2 < tagLength 0xE8 := by decide
theorem witness_ActivePullYieldsPixelOrStreamError : (at3 []).ActiveIn .decode := ⟨rfl, by decide⟩
theorem witness_PullOutsideAPass : State.reset.status = .idle ∧ encoding.mode = .encode ∧
    ((at3 []).mode = .decode ∧ ((at3 []).withStatus .error).status = .error ∧ ((at3 []).withStatus .done).status = .done) := by decide
theorem witness_PullIgnoresUnreadInput : (nextOf (pull (at3 [0x41, 9]))).map (fun t => (t.status, t.ipos)) = some (.active, 1) ∧
    (at3 [0x41, 9]).ipos ≤ (at3 [0x41, 9]).input.length ∧ ∀ k, some 1 = some k → 1 ≤ k :=
  ⟨by decide, by decide, fun _ h => by cases h; decide⟩
theorem witness_PaddingByteReturnsEntryZero : (decoding (encode (.index 0) ++ [0, 0, 0]) 3).ReadyFor (.index 0) :=
  ready_of_prefix _ _ _ (by decide)

/-- The ends of both run opcodes. -/
theorem witness_FlushRunEmitsRunOpcode : [1, 32, 33, 8224].map (fun n => ((encoding.withRun (BitVec.ofNat 14 n)).flushRun.toOption).map (fun t => t.out)) =
    [some [0x40], some [0x5F], some [0x60, 0x00], some [0x7F, 0xFF]] := by decide
theorem witness_EncodeDeltaChoosesFirstForm :
    (pixelDelta ⟨1, 0, 0, 255⟩ ⟨0, 0, 0, 255⟩).fits8 = true ∧
    (pixelDelta ⟨2, 0, 0, 255⟩ ⟨0, 0, 0, 255⟩).fits8 = false ∧ (pixelDelta ⟨2, 0, 0, 255⟩ ⟨0, 0, 0, 255⟩).fits16 = true ∧
    (pixelDelta ⟨0, 8, 0, 255⟩ ⟨0, 0, 0, 255⟩).fits16 = false ∧ (pixelDelta ⟨0, 8, 0, 255⟩ ⟨0, 0, 0, 255⟩).fits24 = true ∧
    (pixelDelta ⟨16, 0, 0, 255⟩ ⟨0, 0, 0, 255⟩).fits24 = false := by decide
theorem witness_EncodedDeltaDecodesToThePixel : encoding.px = ⟨0, 0, 0, 255⟩ := by decide
theorem witness_RunPixelExtendsRun : (encoding.withRun 8222).run.toNat < 8223 ∧ (encoding.withRun 8223).run.toNat = 8223 ∧
    (nextOf (pushWith 0 ⟨0, 0, 0, 255⟩ (encoding.withRun 8222))).map (fun t => t.run.toNat) = some 8223 := by decide
/-- A hit and a miss, with no run and with runs of each flush form. -/
theorem witness_DistinctPixelIsEncoded :
    (⟨0, 0, 0, 0⟩ : Pixel) ≠ encoding.px ∧ encoding.run.toNat ≤ 8224 ∧ encoding.lookup (Pixel.hash ⟨0, 0, 0, 0⟩) = ⟨0, 0, 0, 0⟩ ∧
    encoding.lookup (Pixel.hash ⟨1, 0, 0, 255⟩) ≠ ⟨1, 0, 0, 255⟩ ∧
    [encoding, encoding.withRun 32, encoding.withRun 33].map (fun s => emitted s ⟨0, 0, 0, 0⟩) =
      [some [0x00], some [0x5F, 0x00], some [0x60, 0x00, 0x00]] := by decide
theorem witness_PushEmitsAtMostSevenBytes :
    ((encoding.withRun 33).encodePixel ⟨1, 2, 3, 4⟩).toOption.map (fun t => t.out) = some [0x60, 0x00, 0xFF, 1, 2, 3, 4] := by decide
/-- A delivery, a failure, and a reachable target. -/
theorem witness_DeliverObeysItsBounds :
    (((encoding.streamWrite [1, 2, 3]).deliver 0).toOption).map (fun t => t.sent) = some 3 ∧
    (match ({ encoding.streamWrite [1, 2, 3] with outFail := some 1 }).deliver 0 with | .error e => some e | .ok _ => none) =
      some (⟨.ioFailure, 1⟩, [1]) ∧
    ((({ encoding.streamWrite [1, 2, 3] with obufBytes := 2 }).deliver 2).toOption).map (fun t : State => t.sent) = some 2 := by decide
theorem witness_PushCompletes : encoding.ActiveIn .encode ∧ encoding.run.toNat ≤ 8223 ∧ encoding.sent ≤ encoding.opos ∧
    ∀ k, encoding.outFail = some k → ¬(encoding.sent ≤ k ∧ k < 1) := ⟨⟨rfl, by decide⟩, by decide, by decide, fun _ h => by cases h⟩
theorem witness_FinishDeliversEverything : (encoding.withRun 33).ActiveIn .encode ∧ (encoding.withRun 33).run.toNat ≤ 8223 ∧
    (encoding.withRun 33).opos = (encoding.withRun 33).out.length ∧ (encoding.withRun 33).sent ≤ (encoding.withRun 33).opos ∧
    (encoding.withRun 33).sink = (encoding.withRun 33).out.take (encoding.withRun 33).sent ∧ (encoding.withRun 33).outFail = none :=
  ⟨⟨rfl, by decide⟩, by decide, by decide, by decide, by decide, rfl⟩
theorem witness_PushAndFinishOutsideAPass : (at3 []).mode = .decode ∧ State.reset.status = .idle ∧ (encoding.withStatus .done).status = .done ∧
    (encoding.withStatus .error).mode = .encode ∧ (encoding.withStatus .error).status = .error := by decide
theorem witness_OutputIsAppendOnly : (nextOf (runOp (.push ⟨1, 0, 0, 255⟩) encoding)).map (fun t => (t.status, t.out)) = some (.active, [0xBA]) ∧
    (nextOf (runOp .pull (at3 [0x00]))).map (fun t => t.status) = some .active := by decide
theorem witness_RaiseRollsBack : (nextOf (runOp .pull (at3 []))).map (fun t => t.status) = some .error ∧ (at3 []).status ≠ .error := by decide
/-- An encode pass whose sink refuses position 0: a Push that raises and a Finish that raises. -/
theorem witness_SinkFailureReportsItsPosition :
    ({ encoding with outFail := some 0 } : State).ActiveIn .encode ∧
    (nextOf (pushWith 0 ⟨1, 0, 0, 255⟩ { encoding with outFail := some 0 })).map (fun t => t.status) = some .error ∧
    (({ encoding.withRun 2 with outFail := some 0 } : State).flushRun.toOption).map (fun u => decide (0 < u.opos)) = some true :=
  ⟨⟨rfl, by decide⟩, by decide, by decide⟩
theorem witness_StatusMovesAlongItsEdges : (nextOf (runOp .pull (decoding [0x00] 1))).map (fun t => t.status) = some .done ∧
    (nextOf (runOp .pull (at3 [0x00]))).map (fun t => t.status) = some .active := by decide
theorem witness_DescriptorLatchesAreInert : (nextOf (runOp .pull (at3 [0x00]))).isSome = true := by decide
theorem witness_OperationsWriteOnlyTheirRegisters : (nextOf (pull (at3 [0x00]))).map (fun t => t.status) = some .active ∧
    (nextOf (push ⟨1, 0, 0, 255⟩ encoding)).map (fun t => t.status) = some .active ∧
    (nextOf (finish encoding)).map (fun t => t.status) = some .done := by decide

/-- A decode pass in the middle of a run has the invariant. -/
theorem witness_Inv : ((at3 []).withRun 7).Inv where
  errMatchesStatus := by unfold State.ErrMatchesStatus; decide
  totalIsProduct := by unfold State.TotalIsProduct; decide
  cacheHashed := by unfold State.CacheHashed; decide
  runBounded := by unfold State.RunBounded; decide
  countBounded := by unfold State.CountBounded; decide
  outputConsistent := by unfold State.OutputConsistent; decide
  inputConsistent := by unfold State.InputConsistent; decide
  finishedDelivered := by unfold State.FinishedDelivered; decide
  idleAsReset := by unfold State.IdleAsReset; decide
theorem witness_EveryStepKeepsTheInvariant : (nextOf (step ((((at3 []).withRun 7)).withOps [.pull]))).map (fun t => t.run.toNat) = some 6 := by decide
/-- One Push of one pixel from two states. -/
theorem witness_EncoderOutputDependsOnlyOnPixels :
    [State.reset, at3 [7]].map (fun s => (nextOf (Host.Core.run core 2 (s.withOps [.start .encode 3 1 4 0 ⟨[], none, none⟩, .push ⟨1, 0, 0, 255⟩]))).map
      (fun t => (t.status, t.out))) = [some (.active, [0xBA]), some (.active, [0xBA])] := by decide
/-- A finished encode pass of one pixel, for both round trips. -/
theorem witness_DecodingReturnsTheEncodedPixels :
    ([⟨1, 0, 0, 255⟩] : List Pixel).length = (1 : BitVec 32).toNat * (1 : BitVec 32).toNat ∧
    (nextOf (Host.Core.run core 3 (State.reset.withOps (encodeScript 1 1 4 0 ⟨[], none, none⟩ [⟨1, 0, 0, 255⟩])))).map (fun t => (t.status, t.out)) =
      some (.done, [0xBA]) := by decide
theorem witness_HeaderRoundTrip : (⟨1, 1, 3, 0⟩ : Descriptor).channels = 3 ∧ (⟨1, 1, 4, 0⟩ : Descriptor).channels = 4 ∧
    (⟨1, 1, 5, 0⟩ : Descriptor).channels ≠ 3 ∧ (⟨1, 1, 5, 0⟩ : Descriptor).channels ≠ 4 := by decide
theorem witness_HeaderErrorPriority : ([0x71, 0x6F] : List Byte).length < 14 ∧ 14 ≤ (List.replicate 14 (0 : Byte)).length ∧
    (List.replicate 14 (0 : Byte)).take 4 ≠ [0x71, 0x6F, 0x69, 0x66] := by decide
/-- A finished pass over a 1 by 1 image, whose stream is one byte, and positions on both sides of its end. -/
theorem witness_EncodeImageWritesUpToTheRefusedByte :
    (nextOf (Host.Core.run core (1 * 1 + 2) (State.reset.withOps (encodeScript 1 1 4 0 ⟨[], none, none⟩
      (PixelBuffer.rowMajor ⟨1, 1, fun _ _ => ⟨1, 0, 0, 255⟩⟩))))).map (fun t => (t.status, t.out)) = some (.done, [0xBA]) ∧
    (0 < ([0xBA] : List Byte).length ∧ ¬ 1 < ([0xBA] : List Byte).length) ∧ (0 : Nat) < 1 * 1 := by decide
theorem witness_ContainerRoundTrip : encodeImage .three 7 ⟨1, 1, fun _ _ => ⟨1, 0, 0, 255⟩⟩ none State.reset =
    ([0x71, 0x6F, 0x69, 0x66, 0, 0, 0, 1, 0, 0, 0, 1, 3, 7, 0xBA, 0, 0, 0, 0], .complete) := by decide

end Sys2Proof.Tests
end

section
/-!
PROOFS. The scope's pixel hash (00_scope.md, rule R16): what the six bits of `Pixel.hash` are, as a number and bit by bit.
-/

namespace Sys2Proof

/-- Rule R16, first reading: keeping the low six bits of the exclusive or is taking it modulo 64. -/
theorem Pixel.hash_toNat (p : Pixel) : p.hash.toNat = (p.r ^^^ p.g ^^^ p.b ^^^ p.a).toNat % 64 := by
  rw [Pixel.hash, BitVec.extractLsb'_toNat, Nat.shiftRight_zero]

/-- Rule R16, second reading: `[5:0]` of the exclusive or. -/
theorem Pixel.hash_getLsbD (p : Pixel) (k : Nat) :
    p.hash.getLsbD k = (decide (k < 6) && (p.r ^^^ p.g ^^^ p.b ^^^ p.a).getLsbD k) := by
  rw [Pixel.hash, BitVec.getLsbD_extractLsb', Nat.zero_add]

/-- Settles O8: the two readings of rule R16, each by its own lemma. -/
theorem hashIsXorMod64 : Obligations.HashIsXorMod64 :=
  fun p => ⟨p.hash_toNat, p.hash_getLsbD⟩

end Sys2Proof
end

section
/-!
PROOFS. STATUS and the errors (10_state.md, rule R23; 60_exceptions.md, rules R331, R335, R336): where STATUS goes in each operation of a
pass, and what an operation that raises leaves behind.
-/

namespace Sys2Proof.Machine

/-- A dispatch moves IPOS and nothing else. -/
theorem State.dispatch_ok_advance {s t : State} {i : Instr} (h : s.dispatch = .ok (i, t)) : ∃ n, t = s.advance n := by
  obtain ⟨tag, -, -, -, -, -, rfl⟩ := (State.dispatch_ok_iff s t i).mp h
  exact ⟨_, rfl⟩

/-- Rule R166: the end of a Pull makes the pass DONE exactly when COUNT has come to TOTAL. -/
theorem State.completePull_status_eq (s : State) :
    s.completePull.status = if s.completePull.count = s.completePull.total then .done else s.status := by
  simp only [State.completePull]
  split <;> simp_all

/-- An active Pull raises StreamError, or answers with the end of a Pull from a state that is still active (rule R160). -/
theorem pull_of_active_cases {s t : State} (h : pull s = .next t) (ha : s.status = .active) :
    (∃ info, t = s.raise .stream info) ∨ ∃ u : State, u.status = .active ∧ t = u.completePull := by
  obtain ⟨-, ⟨hs, -⟩ | ⟨hs, -⟩ | ⟨-, hp⟩⟩ := pull_cases h
  · simp [ha] at hs
  · simp [ha] at hs
  · obtain ⟨-, rfl⟩ | ⟨-, info, -, rfl⟩ | ⟨-, i, s1, s2, hd, hx, rfl⟩ := pullActive_cases hp
    · exact .inr ⟨s.withRun (s.run - 1), ha, rfl⟩
    · exact .inl ⟨info, rfl⟩
    · obtain ⟨n, rfl⟩ := State.dispatch_ok_advance hd
      obtain ⟨-, hst, -⟩ := exec_next_keeps hx
      exact .inr ⟨s2, hst.trans ha, rfl⟩

/-- STATUS after an active Pull that raises nothing: DONE exactly when COUNT = TOTAL (rules R23, R166). -/
theorem pull_of_active_status {s t : State} (h : pull s = .next t) (ha : s.status = .active) :
    t.status = .error ∨ t.status = if t.count = t.total then .done else .active := by
  obtain ⟨info, rfl⟩ | ⟨u, hu, rfl⟩ := pull_of_active_cases h ha
  · exact .inl rfl
  · exact .inr (hu ▸ u.completePull_status_eq)

/-- Outside an active pass a Pull keeps STATUS (rule R161). -/
theorem pull_of_not_active_status {s t : State} (h : pull s = .next t) (ha : s.status ≠ .active) : t.status = s.status := by
  obtain ⟨-, ⟨-, rfl⟩ | ⟨-, rfl⟩ | ⟨hs, -⟩⟩ := pull_cases h
  · rfl
  · rfl
  · exact absurd hs ha

/-- A Push keeps STATUS, or takes an active pass to ERROR (rule R23). -/
theorem pushWith_status {draw : Nat} {p : Pixel} {s t : State} (h : pushWith draw p s = .next t) :
    t.status = s.status ∨ (s.status = .active ∧ t.status = .error) := by
  obtain ⟨-, ⟨-, rfl⟩ | ⟨ha, s1, hp, rfl⟩⟩ := pushWith_cases h
  · exact .inl rfl
  · obtain ⟨u, hu, heq⟩ | ⟨info, received, -, heq⟩ := State.afterDelivery_cases s.drawn (s1.bumpCount.deliver draw) id
    · obtain ⟨-, rfl⟩ := (State.deliverTo_ok_iff _ _ _).mp hu
      have hs1 : s1.status = s.status := by rw [State.encodePixel_fields hp, State.drawn_status]
      exact .inl (by rw [heq]; exact (State.bumpCount_status s1).trans hs1)
    · exact .inr ⟨ha, by rw [heq]; rfl⟩

/-- A Finish keeps STATUS, or takes an active pass to DONE or to ERROR (rule R23). -/
theorem finish_status {s t : State} (h : finish s = .next t) :
    t.status = s.status ∨ (s.status = .active ∧ (t.status = .done ∨ t.status = .error)) := by
  obtain ⟨-, ⟨-, rfl⟩ | ⟨ha, s1, -, rfl⟩⟩ := finish_cases h
  · exact .inl rfl
  · refine .inr ⟨ha, ?_⟩
    obtain ⟨u, -, heq⟩ | ⟨info, received, -, heq⟩ := State.afterDelivery_cases s s1.flushOutput (State.withStatus .done)
    · exact .inl (by rw [heq]; rfl)
    · exact .inr (by rw [heq]; rfl)

/-- Rule R23: every operation moves STATUS along an edge of the table. -/
theorem runOp_statusEdge {s t : State} {op : HostOp} (h : runOp op s = .next t) : statusEdge op s.status t.status := by
  cases op with
  | reset => cases h; rfl
  | start mode w h' ch cs io =>
    cases h
    simp only [statusEdge, startOp_status, pixelTotal_eq_zero_iff]
    split <;> rfl
  | pull =>
    by_cases ha : s.status = .active
    · obtain he | hs := pull_of_active_status h ha
      · exact .inr ⟨ha, .inr he⟩
      · split at hs
        · exact .inr ⟨ha, .inl hs⟩
        · exact .inl (hs.trans ha.symm)
    · exact .inl (pull_of_not_active_status h ha)
  | push p => exact pushWith_status h
  | finish => exact finish_status h

/-- Settles O46: the edges by `runOp_statusEdge`, and the Pull that ends a pass by `pull_of_active_status`. -/
theorem statusMovesAlongItsEdges : Obligations.StatusMovesAlongItsEdges := by
  intro s t op h
  refine ⟨runOp_statusEdge h, ?_⟩
  rintro rfl ha
  obtain hs | hs := pull_of_active_status h ha
  · simp [hs]
  · rw [hs]
    split <;> simp_all

/-- A Pull that raises (rule R165). -/
theorem pull_raises {s t : State} (h : pull s = .next t) (hs : s.status ≠ .error) (he : t.status = .error) :
    s.status = .active ∧ ∃ info, t = s.raise .stream info := by
  by_cases ha : s.status = .active
  · obtain hr | ⟨u, hu, rfl⟩ := pull_of_active_cases h ha
    · exact ⟨ha, hr⟩
    · have := u.completePull_status hu
      simp [he] at this
  · exact absurd (pull_of_not_active_status h ha ▸ he) hs

/-- Rules R335 and R336, said once for all operations: one that takes a state to ERROR was issued in an active pass, and it raises
StreamError on that state, in which only the sink may have received bytes and a draw been made. -/
theorem runOp_raises {s t : State} {op : HostOp} (h : runOp op s = .next t) (hs : s.status ≠ .error) (he : t.status = .error) :
    s.status = .active ∧ ∃ received draws info,
      t = ({ s with sink := s.sink ++ received, draws := draws } : State).raise .stream info := by
  cases op with
  | reset => cases h; simp [resetOp, State.reset] at he
  | start mode w h' ch cs io =>
    cases h
    rw [startOp_status] at he
    split at he <;> cases he
  | pull =>
    obtain ⟨ha, info, rfl⟩ := pull_raises h hs he
    exact ⟨ha, [], s.draws, info, by rw [List.append_nil]⟩
  | push p =>
    obtain ⟨-, info, received, ha, -, -, -, rfl⟩ := pushWith_raises h hs he
    exact ⟨ha, received, _, info, rfl⟩
  | finish =>
    obtain ⟨-, info, received, ha, -, -, -, rfl⟩ := finish_raises h hs he
    exact ⟨ha, received, _, info, rfl⟩

/-- Settles O42: `runOp_raises` gives the state an operation raises on, and `State.raise` writes the rest. -/
theorem raiseRollsBack : Obligations.RaiseRollsBack := by
  intro s t op h hs he
  obtain ⟨ha, received, draws, info, rfl⟩ := runOp_raises h hs he
  exact ⟨rfl, ha, ⟨info, rfl⟩, ⟨received, rfl⟩, rfl⟩

end Sys2Proof.Machine
end

section
/-!
PROOFS. The descriptor latches (10_state.md, rule R21): every operation of a pass commutes with writing other values into WIDTH, HEIGHT,
CHANNELS and COLORSPACE, so none depends on them and none writes them.
-/

namespace Sys2Proof.Machine

/-- The state with a descriptor's fields in its latches. -/
def State.withLatches (d : Descriptor) (s : State) : State :=
  { s with width := d.width, height := d.height, channels := d.channels, colorspace := d.colorspace }

/-- An answer with its next state, where there is one, put through `f`. -/
def mapNext (f : State → State) : Host.Outcome State Fault Refusal → Host.Outcome State Fault Refusal
  | .next s => .next (f s)
  | .fault r => .fault r
  | .refused r => .refused r

variable (d : Descriptor) (s : State)

@[simp] theorem State.withLatches_mode : (s.withLatches d).mode = s.mode := rfl
@[simp] theorem State.withLatches_status : (s.withLatches d).status = s.status := rfl
@[simp] theorem State.withLatches_px : (s.withLatches d).px = s.px := rfl
@[simp] theorem State.withLatches_count : (s.withLatches d).count = s.count := rfl
@[simp] theorem State.withLatches_total : (s.withLatches d).total = s.total := rfl
@[simp] theorem State.withLatches_run : (s.withLatches d).run = s.run := rfl
@[simp] theorem State.withLatches_runActive : (s.withLatches d).runActive = s.runActive := rfl

/-! ### Decoding -/

/-- A read looks at IN, IN_FAIL and IPOS alone (rule R301). -/
theorem State.withLatches_streamRead :
    (s.withLatches d).streamRead = s.streamRead.map (Prod.map id (State.withLatches d)) := by
  cases h : s.streamRead with
  | error e => exact ((s.withLatches d).streamRead_error_iff e).mpr ((s.streamRead_error_iff e).mp h)
  | ok r =>
    obtain ⟨hfail, hbyte, ht⟩ := (s.streamRead_ok_iff r.2 r.1).mp h
    exact ((s.withLatches d).streamRead_ok_iff _ r.1).mpr ⟨hfail, hbyte, by rw [ht]; rfl⟩

theorem State.withLatches_readBytes (n : Nat) :
    (s.withLatches d).readBytes n = (s.readBytes n).map (Prod.map id (State.withLatches d)) := by
  induction n generalizing s with
  | zero => rfl
  | succ n ih =>
    simp only [State.readBytes, State.withLatches_streamRead]
    cases s.streamRead with
    | error e => rfl
    | ok r =>
      simp only [Except.map, Prod.map, id, ih]
      cases r.2.readBytes n <;> rfl

/-- Neither fetching an opcode nor building its instruction reads a latch (rule R163). -/
theorem State.withLatches_dispatch :
    (s.withLatches d).dispatch = s.dispatch.map (Prod.map id (State.withLatches d)) := by
  simp only [State.dispatch, State.withLatches_streamRead]
  cases s.streamRead with
  | error e => rfl
  | ok r =>
    simp only [Except.map, Prod.map, id, State.withLatches_readBytes]
    cases r.2.readBytes (operandBytes r.1) <;> rfl

/-- No instruction reads a latch: COLOR's well-formedness is the term's own (rule R92). -/
theorem exec_withLatches (i : Instr) : exec i (s.withLatches d) = mapNext (State.withLatches d) (exec i s) := by
  cases i with
  | color fR fG fB fA lits =>
    simp only [exec, execColor, apply_ite (mapNext (State.withLatches d))]
    rfl
  | _ => rfl

theorem State.withLatches_bumpCount : (s.withLatches d).bumpCount = s.bumpCount.withLatches d := by
  simp only [State.bumpCount, apply_ite (State.withLatches d)]
  rfl

/-- The end of a Pull compares COUNT with TOTAL, not with the sizes (rule R166). -/
theorem State.withLatches_completePull : (s.withLatches d).completePull = s.completePull.withLatches d := by
  simp only [State.completePull, State.withLatches_bumpCount, State.withLatches_count, State.withLatches_total]
  by_cases hc : s.bumpCount.count = s.bumpCount.total
  · simp only [hc, if_true]; rfl
  · simp only [hc, if_false]; rfl

theorem pullActive_withLatches : pullActive (s.withLatches d) = mapNext (State.withLatches d) (pullActive s) := by
  simp only [pullActive, State.withLatches_runActive, State.withLatches_dispatch]
  cases s.runActive with
  | true => exact congrArg Host.Outcome.next (State.withLatches_completePull d (s.withRun (s.run - 1)))
  | false =>
    cases s.dispatch with
    | error info => rfl
    | ok r =>
      simp only [Except.map, Prod.map, id, exec_withLatches]
      cases exec r.1 r.2 with
      | next u => exact congrArg Host.Outcome.next (State.withLatches_completePull d u)
      | fault r => rfl
      | refused r => rfl

/-- Pull does not depend on the latches. -/
theorem pull_withLatches : pull (s.withLatches d) = mapNext (State.withLatches d) (pull s) := by
  simp only [pull, State.withLatches_mode, State.withLatches_status, pullActive_withLatches]
  cases s.mode <;> cases s.status <;> rfl

/-! ### Encoding -/

theorem State.withLatches_flushRun : (s.withLatches d).flushRun = s.flushRun.map (State.withLatches d) := by
  simp only [State.flushRun, State.withLatches_run]
  cases runInstr s.run.toNat <;> rfl

theorem State.withLatches_encodeRunPixel : (s.withLatches d).encodeRunPixel = s.encodeRunPixel.map (State.withLatches d) := by
  simp only [State.encodeRunPixel, apply_ite (Except.map (State.withLatches d)), ← State.withLatches_flushRun]
  rfl

theorem State.withLatches_encodeDistinct (p : Pixel) : (s.withLatches d).encodeDistinct p = (s.encodeDistinct p).withLatches d := by
  simp only [State.encodeDistinct, apply_ite (State.withLatches d)]
  rfl

/-- The encoder works on PX, CACHE, RUN and OUT alone (rules R263 to R266). -/
theorem State.withLatches_encodePixel (p : Pixel) :
    (s.withLatches d).encodePixel p = (s.encodePixel p).map (State.withLatches d) := by
  simp only [State.encodePixel, State.withLatches_px, State.withLatches_runActive, State.withLatches_encodeRunPixel,
    State.withLatches_flushRun, State.withLatches_encodeDistinct]
  by_cases hp : p = s.px
  · simp only [hp, if_true]
  · simp only [hp, if_false]
    cases s.runActive with
    | false => rfl
    | true => cases s.flushRun <;> simp [Except.map, State.withLatches_encodeDistinct]

/-- A delivery looks at the output side alone (rule R306). -/
theorem State.withLatches_deliverTo (target : Nat) :
    (s.withLatches d).deliverTo target = (s.deliverTo target).map (State.withLatches d) := by
  cases h : s.deliverTo target with
  | error e => exact ((s.withLatches d).deliverTo_error_iff target e.1 e.2).mpr ((s.deliverTo_error_iff target e.1 e.2).mp h)
  | ok u =>
    obtain ⟨hfree, hu⟩ := (s.deliverTo_ok_iff u target).mp h
    exact ((s.withLatches d).deliverTo_ok_iff _ target).mpr ⟨hfree, by rw [hu]; rfl⟩

/-- A rollback restores the latches it was given, and a success keeps them if what follows the delivery does. -/
theorem State.withLatches_afterDelivery (result : Except (ErrInfo × List Byte) State) (ok : State → State)
    (hok : ∀ u : State, ok (u.withLatches d) = (ok u).withLatches d) :
    (s.withLatches d).afterDelivery (result.map (State.withLatches d)) ok = (s.afterDelivery result ok).withLatches d := by
  cases result with
  | error e => rfl
  | ok u => exact congrArg (State.report .ok) (hok u)

theorem pushActive_withLatches (draw : Nat) (p : Pixel) :
    pushActive draw p (s.withLatches d) = mapNext (State.withLatches d) (pushActive draw p s) := by
  simp only [pushActive, State.withLatches_encodePixel]
  cases s.encodePixel p with
  | error r => rfl
  | ok u =>
    have hd : (u.bumpCount.withLatches d).deliver draw = (u.bumpCount.deliver draw).map (State.withLatches d) :=
      State.withLatches_deliverTo d u.bumpCount _
    simp only [Except.map, State.withLatches_bumpCount]
    rw [hd]
    exact congrArg Host.Outcome.next (State.withLatches_afterDelivery d s _ id fun _ => rfl)

/-- Push does not depend on the latches, whatever its draw. -/
theorem pushWith_withLatches (draw : Nat) (p : Pixel) :
    pushWith draw p (s.withLatches d) = mapNext (State.withLatches d) (pushWith draw p s) := by
  have hdrawn : (s.withLatches d).drawn = s.drawn.withLatches d := rfl
  simp only [pushWith, State.withLatches_mode, State.withLatches_status, hdrawn, pushActive_withLatches]
  cases s.mode <;> cases s.status <;> rfl

theorem finishActive_withLatches : finishActive (s.withLatches d) = mapNext (State.withLatches d) (finishActive s) := by
  have hflush : (if s.runActive then s.flushRun.map (State.withLatches d) else .ok (s.withLatches d)) =
      (if s.runActive then s.flushRun else .ok s).map (State.withLatches d) := by
    cases s.runActive <;> rfl
  simp only [finishActive, State.withLatches_runActive, State.withLatches_flushRun, hflush]
  cases (if s.runActive then s.flushRun else .ok s) with
  | error r => rfl
  | ok u =>
    have hd : (u.withLatches d).flushOutput = u.flushOutput.map (State.withLatches d) := State.withLatches_deliverTo d u _
    simp only [Except.map, hd]
    exact congrArg Host.Outcome.next (State.withLatches_afterDelivery d s _ _ fun _ => rfl)

/-- Finish does not depend on the latches. -/
theorem finish_withLatches : finish (s.withLatches d) = mapNext (State.withLatches d) (finish s) := by
  simp only [finish, State.withLatches_mode, State.withLatches_status, finishActive_withLatches]
  cases s.mode <;> cases s.status <;> rfl

/-! ### Rule R21 -/

variable {d s}

/-- Any operation but Start and Reset commutes with writing the latches. -/
theorem runOp_withLatches {op : HostOp} (hstart : ∀ mode w h ch cs io, op ≠ .start mode w h ch cs io) (hreset : op ≠ .reset) :
    runOp op (s.withLatches d) = mapNext (State.withLatches d) (runOp op s) := by
  cases op with
  | reset => exact absurd rfl hreset
  | start => exact absurd rfl (hstart _ _ _ _ _ _)
  | pull => exact pull_withLatches d s
  | push p => exact pushWith_withLatches d s _ p
  | finish => exact finish_withLatches d s

/-- The same for an operation that answers next. -/
theorem runOp_withLatches_next {op : HostOp} {t : State} (hstart : ∀ mode w h ch cs io, op ≠ .start mode w h ch cs io)
    (hreset : op ≠ .reset) (h : runOp op s = .next t) : runOp op (s.withLatches d) = .next (t.withLatches d) := by
  rw [runOp_withLatches hstart hreset, h, mapNext]

/-- Writing the latches it has into a state changes nothing, so an operation that commutes with that write keeps them. -/
theorem runOp_keeps_latches {op : HostOp} {t : State} (hstart : ∀ mode w h ch cs io, op ≠ .start mode w h ch cs io)
    (hreset : op ≠ .reset) (h : runOp op s = .next t) :
    t.width = s.width ∧ t.height = s.height ∧ t.channels = s.channels ∧ t.colorspace = s.colorspace := by
  have hself : runOp op s = .next (t.withLatches ⟨s.width, s.height, s.channels, s.colorspace⟩) :=
    runOp_withLatches_next (d := ⟨s.width, s.height, s.channels, s.colorspace⟩) hstart hreset h
  have ht : t = t.withLatches ⟨s.width, s.height, s.channels, s.colorspace⟩ := Host.Outcome.next.inj (h.symm.trans hself)
  rw [ht]
  exact ⟨rfl, rfl, rfl, rfl⟩

/-- Settles O47: Start latches by its definition, TOTAL being `toNat_pixelTotal`; the rest is `runOp_withLatches`. -/
theorem descriptorLatchesAreInert : Obligations.DescriptorLatchesAreInert := by
  refine ⟨fun s mode w h ch cs io => ?_, fun s t op h hstart hreset => ?_, fun s t op w h ch cs hstart hreset hrun => ?_⟩
  · exact ⟨startOp mode w h ch cs io s, rfl, rfl, rfl, rfl, rfl, toNat_pixelTotal w h⟩
  · exact runOp_keeps_latches hstart hreset h
  · exact runOp_withLatches_next (d := ⟨w, h, ch, cs⟩) hstart hreset hrun

end Sys2Proof.Machine
end

section
/-!
PROOFS. The tag byte (30_encoding.md, rules R81 and R91): the leading bits of a byte as a quotient, the class of a tag by its leading
bits in any order of the tests, and the length of an opcode from its tag alone.
-/

namespace Sys2Proof

/-- The leading bits `t[7:k]` as a number: what is left of `t` without its low `k` bits. -/
theorem leadingBits_eq_iff (t : Byte) {k n : Nat} (h : k + n = 8) (v : BitVec n) :
    t.extractLsb' k n = v ↔ t.toNat / 2 ^ k = v.toNat := by
  have hlt : t.toNat / 2 ^ k < 2 ^ n := Nat.div_lt_of_lt_mul (by rw [← Nat.pow_add, h]; exact t.isLt)
  rw [← BitVec.toNat_inj, BitVec.extractLsb'_toNat, Nat.shiftRight_eq_div_pow, Nat.mod_eq_of_lt hlt]

/-- A mask of the bits 7..k clears the low `k` bits. -/
theorem and_leadingMask_eq_iff (t v : Byte) (k : Nat) :
    t &&& (BitVec.allOnes 8 <<< k) = v ↔ t.toNat / 2 ^ k * 2 ^ k = v.toNat := by
  have hlt : t.toNat / 2 ^ k * 2 ^ k < 2 ^ 8 := (Nat.div_mul_le_self _ _).trans_lt t.isLt
  rw [← BitVec.shiftLeft_ushiftRight, ← BitVec.toNat_inj, BitVec.toNat_shiftLeft, BitVec.toNat_ushiftRight,
    Nat.shiftRight_eq_div_pow, Nat.shiftLeft_eq, Nat.mod_eq_of_lt hlt]

/-- Each class is one value of the leading bits, whatever the other tests say: the patterns are disjoint (rules R81, R93). -/
theorem classify_eq_iff (t : Byte) :
    (classify t = .index ↔ t.toNat / 64 = 0b00) ∧ (classify t = .run8 ↔ t.toNat / 32 = 0b010) ∧
    (classify t = .run16 ↔ t.toNat / 32 = 0b011) ∧ (classify t = .diff8 ↔ t.toNat / 64 = 0b10) ∧
    (classify t = .diff16 ↔ t.toNat / 32 = 0b110) ∧ (classify t = .diff24 ↔ t.toNat / 16 = 0b1110) ∧
    (classify t = .color ↔ t.toNat / 16 = 0b1111) := by
  have h6 (v : BitVec 2) : t.extractLsb' 6 2 = v ↔ t.toNat / 64 = v.toNat := leadingBits_eq_iff t rfl v
  have h5 (v : BitVec 3) : t.extractLsb' 5 3 = v ↔ t.toNat / 32 = v.toNat := leadingBits_eq_iff t rfl v
  have h4 (v : BitVec 4) : t.extractLsb' 4 4 = v ↔ t.toNat / 16 = v.toNat := leadingBits_eq_iff t rfl v
  have hlt : t.toNat < 256 := t.isLt
  simp only [classify, h6, h5, h4, BitVec.toNat_ofNat]
  split_ifs <;> simp only [false_iff, true_iff] <;> omega

/-- Settles O1: a masked tag and a class are both a value of the leading bits. -/
theorem tagBytesClassifyByMask : Obligations.TagBytesClassifyByMask := by
  intro t
  have hC0 (v : Byte) : t &&& 0xC0#8 = v ↔ t.toNat / 64 * 64 = v.toNat := and_leadingMask_eq_iff t v 6
  have hE0 (v : Byte) : t &&& 0xE0#8 = v ↔ t.toNat / 32 * 32 = v.toNat := and_leadingMask_eq_iff t v 5
  have hF0 (v : Byte) : t &&& 0xF0#8 = v ↔ t.toNat / 16 * 16 = v.toNat := and_leadingMask_eq_iff t v 4
  obtain ⟨hindex, hrun8, hrun16, hdiff8, hdiff16, hdiff24, hcolor⟩ := classify_eq_iff t
  simp only [hindex, hrun8, hrun16, hdiff8, hdiff16, hdiff24, hcolor, hC0, hE0, hF0,
    BitVec.ofNat_eq_ofNat, BitVec.toNat_ofNat]
  omega

/-- Every opcode is 1 to 5 bytes long (rule R91). -/
theorem tagLength_bounds (t : Byte) : 1 ≤ tagLength t ∧ tagLength t ≤ 5 :=
  ⟨tagLength_pos t, Nat.add_le_add_left (operandBytes_le t) 1⟩

/-- A successful decode gives an instruction of the tag's class and takes the tag's length in bytes, whatever the operands are
(rule R91). -/
theorem decode_cons_ok {t : Byte} {bytes rest : List Byte} {i : Instr} (h : decode (t :: bytes) = .ok (i, rest)) :
    i.opcode = classify t ∧ (t :: bytes).length = tagLength t + rest.length := by
  obtain ⟨tag, operands, hb, hl, rfl⟩ := (decode_ok_iff _ _ _).mp h
  obtain ⟨rfl, -⟩ := List.cons.inj hb
  refine ⟨buildInstr_opcode t operands, ?_⟩
  rw [hb, List.length_append, List.length_cons, hl, tagLength, Nat.add_comm 1]

/-- Settles O2: the table by the tag's class, the bounds by `tagLength_bounds`, and the decoder by `decode_cons_ok`. -/
theorem tagAloneGivesOpcodeAndLength : Obligations.TagAloneGivesOpcodeAndLength := by
  refine ⟨fun t => ?_, tagLength_bounds, fun _ _ _ _ => decode_cons_ok⟩
  unfold tagLength operandBytes
  cases classify t <;> rfl

end Sys2Proof
end

section
/-!
PROOFS. The errors of a header (40_descriptor_interface.md, rule R122): readHeader's first two checks, in their order.
-/

namespace Sys2Proof.Machine

/-- A header that ends early is a StreamError, whatever its bytes are. -/
theorem readHeader_of_short {bytes : List Byte} (hshort : bytes.length < Config.headerBytes) :
    readHeader bytes = .error .stream := if_pos hshort

/-- A whole header with another magic is a FormatError, with no condition on its channel byte. -/
theorem readHeader_of_bad_magic {bytes : List Byte} (hlen : Config.headerBytes ≤ bytes.length) (hmagic : bytes.take 4 ≠ magic) :
    readHeader bytes = .error .format := by
  rw [readHeader, if_neg hlen.not_gt, if_pos hmagic]

/-- Settles O57: the length check comes first, then the magic check, each by its own lemma. -/
theorem headerErrorPriority : Obligations.HeaderErrorPriority :=
  ⟨fun _ hshort => readHeader_of_short hshort, fun _ hlen hmagic => readHeader_of_bad_magic hlen hmagic⟩

end Sys2Proof.Machine
end

section
/-!
PROOFS. The decoder's cache (41_color_cache.md, rule R143): which opcodes store the new PX, and that nothing else in DECODE writes CACHE.
-/

namespace Sys2Proof.Machine

/-- Rule R143's store: the slot written is that of the new PX. -/
theorem State.lookup_setAndStore_px (s : State) (p : Pixel) (j : BitVec 6) :
    (s.setAndStore p).lookup j = if j = (s.setAndStore p).px.hash then (s.setAndStore p).px else s.lookup j := by
  rw [State.lookup_setAndStore, State.setAndStore_px]

/-- COLOR answers next only with its pixel set and stored (rules R92, R240). -/
theorem execColor_next_eq {fR fG fB fA : Bool} {lits : List Byte} {s t : State}
    (h : execColor fR fG fB fA lits s = .next t) : t = s.setAndStore (colorPixel s.px fR fG fB fA lits) := by
  rw [execColor] at h
  split at h <;> cases h
  rfl

/-- The end of a Pull keeps the cache. -/
@[simp] theorem State.completePull_cache (s : State) : s.completePull.cache = s.cache := by
  simp only [State.completePull]
  split <;> simp

/-- A Pull with a pending run is a run continuation, and dispatches nothing (rule R162). -/
theorem pull_next_of_run_ne_zero {s t : State} (h : pull s = .next t) (ha : s.status = .active) (hr : s.run ≠ 0) :
    t = (s.withRun (s.run - 1)).completePull := by
  obtain ⟨hm, -⟩ := pull_cases h
  rw [pull_eq_pullActive hm ha, pullActive, if_pos ((State.runActive_iff s).mpr hr)] at h
  exact (Host.Outcome.next.inj h).symm

/-- Settles O21: INDEX and the run opcodes write PX or RUN alone, the other opcodes end in `setAndStore`, and a run continuation is
`withRun` and the end of a Pull. -/
theorem decoderCacheUpdatePolicy : Obligations.DecoderCacheUpdatePolicy := by
  refine ⟨fun i s t h => ?_, fun s t h ha hr => ?_⟩
  · cases i with
    | index idx => cases h; exact State.withPx_cache s _
    | run8 n => cases h; exact State.withRun_cache s _
    | run16 n => cases h; exact State.withRun_cache s _
    | diff8 fr fg fb => cases h; exact State.lookup_setAndStore_px s _
    | diff16 fr fg fb => cases h; exact State.lookup_setAndStore_px s _
    | diff24 fr fg fb fa => cases h; exact State.lookup_setAndStore_px s _
    | color fR fG fB fA lits => rw [execColor_next_eq h]; exact State.lookup_setAndStore_px s _
  · rw [pull_next_of_run_ne_zero h ha hr, State.completePull_cache, State.withRun_cache]

end Sys2Proof.Machine
end

section
/-!
PROOFS. Pull (42_dispatch_decode.md, rules R161, R162, R165): outside an active pass, in a run continuation, and on an opcode that IN does
not hold whole.
-/

namespace Sys2Proof.Machine

/-! ### A run continuation -/

/-- A step with a Pull oldest in the queue takes it from the queue and runs it (rule R6). -/
theorem step_of_pull {s : State} {rest : List HostOp} (h : s.ops = .pull :: rest) : step s = pull (s.withOps rest) := by
  rw [step, nextStep, h]
  rfl

/-- Settles O24: the step is a Pull, and `pull_of_run` is its answer; `toNat_run_pred` and `toNat_count_succ` read RUN and COUNT as numbers. -/
theorem runContinuationRepeatsPixel : Obligations.RunContinuationRepeatsPixel := by
  intro s rest hactive hrun hcount hops
  have hpull := (step_of_pull hops).trans (pull_of_run (s := s.withOps rest) hactive hrun hcount)
  refine ⟨_, hpull, toNat_run_pred hrun, rfl, rfl, rfl, rfl, toNat_count_succ hcount, ?_, rfl⟩
  rw [State.withOps_status, hactive.2]
  rfl

/-! ### A short read -/

namespace State.FirstFailure

variable {s : State} {e e' : ErrInfo} {k k' : Nat}

/-- The StreamError of a first failure is fixed by its position: an input failure comes before end of stream (rule R301). -/
theorem info_eq (h : s.FirstFailure e k) :
    e = ⟨if s.inFail = some (s.ipos + k) then .ioFailure else .endOfStream, s.ipos + k⟩ := by
  obtain ⟨-, ⟨hfail, rfl⟩ | ⟨hfail, -, rfl⟩⟩ := h
  · rw [if_pos hfail]
  · rw [if_neg hfail]

/-- The position of a first failure cannot be read (rule R301). -/
theorem not_readable (h : s.FirstFailure e k) : ¬(s.inFail ≠ some (s.ipos + k) ∧ s.ipos + k < s.input.length) := by
  rintro ⟨hfail, hin⟩
  obtain ⟨-, ⟨hfail', -⟩ | ⟨-, hend, -⟩⟩ := h
  · exact hfail hfail'
  · exact hend.not_gt hin

/-- Every position before a first failure can be read, so no other first failure lies there. -/
theorem position_le (h : s.FirstFailure e k) (h' : s.FirstFailure e' k') : k ≤ k' := by
  obtain ⟨hbefore, -⟩ := h
  exact not_lt.mp fun hlt => h'.not_readable (hbefore k' hlt)

/-- Two first failures of one state carry the same StreamError. -/
theorem info_unique (h : s.FirstFailure e k) (h' : s.FirstFailure e' k') : e = e' := by
  rw [h.info_eq, h'.info_eq, (h.position_le h').antisymm (h'.position_le h)]

end State.FirstFailure

/-- The first position from IPOS on that cannot be read is a first failure, with rule R301's cause. -/
theorem State.firstFailure_of_unreadable {s : State} {k : Nat}
    (hbefore : ∀ j < k, s.inFail ≠ some (s.ipos + j) ∧ s.ipos + j < s.input.length)
    (hat : s.inFail = some (s.ipos + k) ∨ s.input.length ≤ s.ipos + k) :
    s.FirstFailure ⟨if s.inFail = some (s.ipos + k) then .ioFailure else .endOfStream, s.ipos + k⟩ k := by
  refine ⟨hbefore, ?_⟩
  by_cases hfail : s.inFail = some (s.ipos + k)
  · exact .inl ⟨hfail, by rw [if_pos hfail]⟩
  · exact .inr ⟨hfail, hat.resolve_left hfail, by rw [if_neg hfail]⟩

/-- No position inside a dispatched opcode fails: its tag stands at IPOS, and every byte of its tag's length can be read (rule R163). -/
theorem State.dispatch_ok_readable {s t : State} {i : Instr} (h : s.dispatch = .ok (i, t)) :
    ∃ tag, s.input[s.ipos]? = some tag ∧
      ∀ k < tagLength tag, s.inFail ≠ some (s.ipos + k) ∧ s.ipos + k < s.input.length := by
  obtain ⟨tag, operands, hprefix, hlen, -, hfail, -⟩ := (State.dispatch_ok_iff s t i).mp h
  refine ⟨tag, ?_, fun k hk => ⟨hfail k hk, ?_⟩⟩
  · obtain ⟨rest, hrest⟩ := hprefix
    rw [← Nat.add_zero s.ipos, ← List.getElem?_drop, ← hrest]
    rfl
  · have hle := hprefix.length_le
    rw [List.length_cons, List.length_drop, hlen] at hle
    rw [tagLength] at hk
    omega

/-- A first failure at the tag or inside the opcode's length is the answer of the dispatch (rules R165, R333). -/
theorem State.dispatch_of_firstFailure {s : State} {e : ErrInfo} {k : Nat} (h : s.FirstFailure e k)
    (hk : k = 0 ∨ ∃ tag, s.input[s.ipos]? = some tag ∧ k < tagLength tag) : s.dispatch = .error e := by
  cases hd : s.dispatch with
  | error e' =>
    obtain ⟨k', h'⟩ := State.dispatch_error s e' hd
    rw [h.info_unique h']
  | ok r =>
    obtain ⟨tag, htag, hreadable⟩ := State.dispatch_ok_readable hd
    have hlt : k < tagLength tag := by
      obtain rfl | ⟨tag', htag', hlt⟩ := hk
      · exact tagLength_pos tag
      · rwa [Option.some.inj (htag.symm.trans htag')]
    exact absurd (hreadable k hlt) h.not_readable

/-- An active Pull with no run pending raises the dispatch's StreamError (rule R165). -/
theorem pull_of_dispatch_error {s : State} {e : ErrInfo} (h : s.ActiveIn .decode) (hr : s.run = 0) (hd : s.dispatch = .error e) :
    pull s = .next (s.raise .stream e) := by
  rw [pull_eq_pullActive h.1 h.2, pullActive, (State.runActive_false_iff s).mpr hr, hd]
  rfl

/-- Settles O26: the unreadable byte is the dispatch's first failure, and `raise` keeps PX, RUN, CACHE and COUNT. -/
theorem shortReadRaisesStreamError : Obligations.ShortReadRaisesStreamError := by
  intro s k hactive hrun hbefore hat hk
  have hdispatch := State.dispatch_of_firstFailure (State.firstFailure_of_unreadable hbefore hat) hk
  exact ⟨_, pull_of_dispatch_error hactive hrun hdispatch, rfl, rfl, rfl, rfl, rfl, rfl, rfl⟩

/-! ### Outside an active decode pass -/

/-- Pull has no step in ENCODE mode (rule R161). -/
theorem pull_of_encode {s : State} (h : s.mode = .encode) : pull s = .refused .pullHasNoStep := by
  rw [pull, h]

/-- Pull has no step in IDLE, whatever MODE is (rule R161). -/
theorem pull_of_idle {s : State} (h : s.status = .idle) : pull s = .refused .pullHasNoStep := by
  cases hm : s.mode with
  | decode => rw [pull, hm, h]
  | encode => exact pull_of_encode hm

/-- Settles O28: IDLE and ENCODE by their lemmas, ERROR and DONE by `pull_of_error` and `pull_of_done`. -/
theorem pullOutsideAPass : Obligations.PullOutsideAPass :=
  fun _ => ⟨fun h => h.elim pull_of_idle pull_of_encode, pull_of_error, pull_of_done⟩

end Sys2Proof.Machine
end

section
/-!
PROOFS. Decoding an encoded instruction (30_encoding.md, rules R82 to R88), whatever bytes follow it.
-/

namespace Sys2Proof.Machine

/-- The bytes of a well-formed instruction decode to it, and the bytes after them are left. -/
theorem decode_encode_append {i : Instr} (hw : i.wf = true) (rest : List Byte) : decode (encode i ++ rest) = .ok (i, rest) := by
  obtain ⟨tag, operands, henc, hlen, hbuild⟩ := encode_shape hw
  exact (decode_ok_iff _ _ _).mpr ⟨tag, operands, by rw [henc], hlen, hbuild⟩

end Sys2Proof.Machine
end

section
/-!
PROOFS. INDEX and the two run opcodes (43_index_run.md, rules R190, R194, R197). A run opcode that sets RUN to `n` is dispatched as if
IPOS stood past its bytes and `n + 1` continuations were pending, so the Pulls of one run are continuations from the first one on.
-/

namespace Sys2Proof.Machine

/-! ### INDEX -/

/-- Settles O13: the byte is INDEX's encoding, and its arm is `withPx` of the cache entry. -/
theorem indexLoadsCacheEntry : Obligations.IndexLoadsCacheEntry := by
  refine fun idx => ⟨fun rest => ?_, fun s => rfl⟩
  have h := decode_encode_append (i := .index idx) rfl rest
  rwa [encode_index] at h

/-! ### The Pulls of one run -/

/-- `t` is what `k` continuations of a run of PX leave of `s` (rule R162): PX returned `k` times, `k` taken from RUN, no byte read, and
the pass DONE exactly when COUNT has come to TOTAL (rule R166). -/
structure State.RunContinued (k : Nat) (s t : State) : Prop where
  results : t.results = s.results ++ List.replicate k (.pixel s.px)
  run : t.run.toNat = s.run.toNat - k
  ipos : t.ipos = s.ipos
  px : t.px = s.px
  cache : t.cache = s.cache
  count : t.count.toNat = s.count.toNat + k
  status : t.status = if s.count.toNat + k = s.total.toNat then .done else .active

/-- `k` queued Pulls in a run at least as long, with as many pixels still to come, are `k` continuations. -/
theorem core_run_pulls_of_run {k : Nat} {s : State} (hmode : s.mode = .decode)
    (hstatus : s.status = if s.count.toNat = s.total.toNat then .done else .active) (hrun : k ≤ s.run.toNat)
    (hcount : s.count.toNat + k ≤ s.total.toNat) (hops : s.ops = List.replicate k .pull) :
    ∃ t, Host.Core.run core k s = .next t ∧ s.RunContinued k t := by
  induction k generalizing s with
  | zero => exact ⟨s, rfl, (List.append_nil _).symm, rfl, rfl, rfl, rfl, rfl, hstatus⟩
  | succ k ih =>
    have hlt : s.count.toNat < s.total.toNat := by omega
    rw [if_neg hlt.ne] at hstatus
    obtain ⟨s1, hstep, hrun1, hresults1, hpx1, hcache1, hipos1, hcount1, hstatus1, hframe⟩ :=
      runContinuationRepeatsPixel s _ ⟨hmode, hstatus⟩ (by omega) hlt hops
    have hmode1 : s1.mode = s.mode := by rw [hframe]
    have htotal1 : s1.total = s.total := by rw [hframe]
    have hops1 : s1.ops = List.replicate k .pull := by rw [hframe]
    obtain ⟨t, ht, h⟩ := ih (hmode1.trans hmode) (by rw [hstatus1, hcount1, htotal1]) (by omega)
      (by rw [hcount1, htotal1]; omega) hops1
    refine ⟨t, (core_run_succ_next_iff k s t).mpr ⟨s1, hstep, ht⟩, ?_, ?_, h.ipos.trans hipos1, h.px.trans hpx1,
      h.cache.trans hcache1, ?_, ?_⟩
    · rw [h.results, hresults1, hpx1, List.append_assoc, List.replicate_succ, List.singleton_append]
    · rw [h.run, hrun1, Nat.sub_sub, Nat.add_comm 1]
    · rw [h.count, hcount1, Nat.add_assoc, Nat.add_comm 1]
    · rw [h.status, hcount1, htotal1, Nat.add_assoc, Nat.add_comm 1]

/-- Rule R166, as an equivalence. -/
theorem State.RunContinued.done_iff {k : Nat} {s t : State} (h : s.RunContinued k t) :
    t.status = .done ↔ s.count.toNat + k = s.total.toNat := by
  rw [h.status]
  split <;> simp [*]

/-! ### From a run opcode on -/

/-- `s` past the bytes of `i`, with a run of `length` pixels pending. -/
def State.intoRun (i : Instr) (length : Nat) (s : State) : State := (s.advance (encode i).length).withRun (BitVec.ofNat 14 length)

/-- A run length below 2^14 is held in RUN whole. -/
theorem State.intoRun_run_toNat {length : Nat} (hfits : length < 2 ^ 14) (i : Instr) (s : State) :
    (s.intoRun i length).run.toNat = length := by
  rw [State.intoRun, State.withRun_run, BitVec.toNat_ofNat, Nat.mod_eq_of_lt hfits]

section RunOpcode

/-! `i` is a run opcode of `length` pixels: its arm sets RUN to the length less 1 and writes nothing else. -/

variable {i : Instr} {n : BitVec 14} {length : Nat} (hw : i.wf = true) (hexec : ∀ u, exec i u = .next (u.withRun n))
  (hlength : n.toNat + 1 = length) (hfits : length < 2 ^ 14)
include hw hexec hlength hfits

/-- The Pull that dispatches a run opcode is a continuation of a run of its whole length that begins past its bytes. -/
theorem pull_of_readyFor_run {s : State} (h : s.ReadyFor i) : pull s = pull (s.intoRun i length) := by
  have hpred : BitVec.ofNat 14 length - 1 = n := by
    rw [← hlength, BitVec.ofNat_add, BitVec.ofNat_toNat, BitVec.setWidth_eq]
    exact BitVec.add_sub_cancel n 1
  have hactive : (s.intoRun i length).runActive = true := by
    rw [State.runActive, State.intoRun_run_toNat hfits, decide_eq_true_eq]
    omega
  have ⟨hmode, hstatus, _⟩ := h
  have hright : pull (s.intoRun i length) = pullActive (s.intoRun i length) := pull_eq_pullActive hmode hstatus
  rw [pull_of_readyFor hw h, hexec, hright, pullActive, if_pos hactive, State.intoRun, State.withRun_run, hpred]
  rfl

/-- Rules R194 and R197: `k` queued Pulls from a run opcode on, up to the pixels it yields and to TOTAL. -/
theorem core_run_pulls_of_readyFor_run {k : Nat} {s : State} (h : s.ReadyFor i) (hk : 1 ≤ k) (hle : k ≤ length)
    (hcount : s.count.toNat + k ≤ s.total.toNat) (hops : s.ops = List.replicate k .pull) :
    ∃ t, Host.Core.run core k s = .next t ∧ t.results = s.results ++ List.replicate k (.pixel s.px) ∧
      t.run.toNat = length - k ∧ t.ipos = s.ipos + (encode i).length ∧ t.px = s.px ∧ t.cache = s.cache ∧
      t.count.toNat = s.count.toNat + k ∧ (t.status = .done ↔ s.count.toNat + k = s.total.toNat) := by
  obtain ⟨j, rfl⟩ : ∃ j, k = j + 1 := ⟨k - 1, by omega⟩
  have hstep : step s = step (s.intoRun i length) :=
    calc step s = pull (s.withOps (List.replicate j .pull)) := step_of_pull hops
      _ = pull ((s.intoRun i length).withOps (List.replicate j .pull)) := pull_of_readyFor_run hw hexec hlength hfits h
      _ = step (s.intoRun i length) := (step_of_pull (s := s.intoRun i length) hops).symm
  obtain ⟨hmode, hstatus, -⟩ := h
  have hrun := State.intoRun_run_toNat hfits i s
  have hmore : s.count.toNat ≠ s.total.toNat := by omega
  obtain ⟨t, ht, hc⟩ :=
    core_run_pulls_of_run (s := s.intoRun i length) hmode (hstatus.trans (if_neg hmore).symm) (hle.trans_eq hrun.symm)
      hcount hops
  rw [core_run_succ, hstep, ← core_run_succ]
  exact ⟨t, ht, hc.results, hrun ▸ hc.run, hc.ipos, hc.px, hc.cache, hc.count, hc.done_iff⟩

end RunOpcode

/-! ### RUN_8 and RUN_16 -/

/-- RUN_8's RUN as a number: the field itself. -/
theorem toNat_run8_field (n : BitVec 5) : (n.setWidth 14).toNat = n.toNat :=
  BitVec.toNat_setWidth_of_le (by decide)

/-- RUN_16's RUN as a number: adding 32 does not carry out of its 14 bits. -/
theorem toNat_run16_field (n : BitVec 13) : (n.setWidth 14 + 32#14).toNat = n.toNat + 32 := by
  rw [BitVec.toNat_add, BitVec.toNat_setWidth_of_le (by decide), BitVec.toNat_ofNat]
  omega

/-- Settles O14: RUN_8 sets RUN to its field, so it is a run opcode of `n + 1` pixels, and `core_run_pulls_of_readyFor_run` runs it. -/
theorem run8RepeatsPixel : Obligations.Run8RepeatsPixel := by
  intro n
  have hrun := toNat_run8_field n
  refine ⟨fun rest => ?_, fun s => ⟨_, rfl, hrun, rfl⟩, fun s k => ?_⟩
  · have h := decode_encode_append (i := .run8 n) rfl rest
    rwa [encode_run8] at h
  · exact core_run_pulls_of_readyFor_run (i := .run8 n) rfl (fun _ => rfl) (congrArg (· + 1) hrun) (by omega)

/-- Settles O15: RUN_16 sets RUN to its field + 32, so it is a run opcode of `n + 33` pixels, and `core_run_pulls_of_readyFor_run`
runs it. -/
theorem run16RepeatsPixel : Obligations.Run16RepeatsPixel := by
  intro n
  have hrun := toNat_run16_field n
  refine ⟨fun rest => ?_, fun s => ⟨_, rfl, hrun, rfl⟩, fun s k => ?_⟩
  · have h := decode_encode_append (i := .run16 n) rfl rest
    rwa [encode_run16] at h
  · exact core_run_pulls_of_readyFor_run (i := .run16 n) rfl (fun _ => rfl) (congrArg (· + 1) hrun) (by omega)

end Sys2Proof.Machine
end

section
/-!
PROOFS. The delta unit (44_delta.md): the range comparators (rule R222), the adder (rule R210), and DIFF_8, DIFF_16 and DIFF_24 (rules
R212, R215, R218), each of which sets and stores the adder's pixel.
-/

namespace Sys2Proof

/-! ### The range comparators -/

namespace Delta

variable {d : Delta}

theorem fits8_iff : d.fits8 = true ↔ d.da = 0 ∧ ∀ v ∈ [d.dr, d.dg, d.db], -2 ≤ v ∧ v ≤ 1 := by
  rw [fits8, decide_eq_true_iff]
  simp [and_assoc]

theorem fits16_iff :
    d.fits16 = true ↔ d.da = 0 ∧ (-16 ≤ d.dr ∧ d.dr ≤ 15) ∧ ∀ v ∈ [d.dg, d.db], -8 ≤ v ∧ v ≤ 7 := by
  rw [fits16, decide_eq_true_iff]
  simp [and_assoc]

theorem fits24_iff : d.fits24 = true ↔ ∀ v ∈ [d.dr, d.dg, d.db, d.da], -16 ≤ v ∧ v ≤ 15 := by
  rw [fits24, decide_eq_true_iff]
  simp [and_assoc]

/-- Every channel's range in DIFF_8 lies in its range in DIFF_16. -/
theorem fits16_of_fits8 (h : d.fits8 = true) : d.fits16 = true := by
  rw [fits8, decide_eq_true_iff] at h
  rw [fits16, decide_eq_true_iff]
  omega

/-- Every channel's range in DIFF_16 lies in its range in DIFF_24. -/
theorem fits24_of_fits16 (h : d.fits16 = true) : d.fits24 = true := by
  rw [fits16, decide_eq_true_iff] at h
  rw [fits24, decide_eq_true_iff]
  omega

end Delta

/-- Settles O12: each comparator by its `iff`, and the two inclusions. -/
theorem rangeComparatorsNest : Obligations.RangeComparatorsNest :=
  fun _ => ⟨Delta.fits8_iff, Delta.fits16_iff, Delta.fits24_iff, Delta.fits16_of_fits8, Delta.fits24_of_fits16⟩

end Sys2Proof

namespace Sys2Proof.Machine

/-! ### The adder -/

/-- Settles O10: each lane of the adder is one `wrap8`. -/
theorem deltaAdderLanes : Obligations.DeltaAdderLanes :=
  fun _ _ => ⟨toNat_wrap8 _, toNat_wrap8 _, toNat_wrap8 _, toNat_wrap8 _⟩

/-- A delta of alpha 0 keeps alpha (rules R212, R215). -/
theorem addDelta_a_of_da_eq_zero {d : Delta} (h : d.da = 0) (q : Pixel) : (addDelta q d).a = q.a :=
  wrap8_eq_self _ _ (by rw [h, Int.add_zero])

/-! ### DIFF_8, DIFF_16 and DIFF_24 -/

/-- `decode_encode_append` for bytes that an encoding lemma gives. -/
theorem decode_append_of_encode_eq {i : Instr} {bytes : List Byte} (hw : i.wf = true) (henc : encode i = bytes) (rest : List Byte) :
    decode (bytes ++ rest) = .ok (i, rest) := henc ▸ decode_encode_append hw rest

/-- Setting and storing a pixel writes PX and CACHE and nothing else. -/
theorem State.setAndStore_frame (s : State) (p : Pixel) :
    s.setAndStore p = { s with px := (s.setAndStore p).px, cache := (s.setAndStore p).cache } := rfl

/-- Settles O16: the byte is DIFF_8's encoding; its arm is `setAndStore` of the adder's pixel, whose lanes are `deltaAdderLanes`, and
its alpha delta is 0. -/
theorem diff8AddsAndStores : Obligations.Diff8AddsAndStores := by
  refine fun fr fg fb => ⟨decode_append_of_encode_eq rfl (encode_diff8 fr fg fb), fun s => ?_⟩
  obtain ⟨hr, hg, hb, -⟩ := deltaAdderLanes s.px (diff8Delta fr fg fb)
  exact ⟨_, rfl, hr, hg, hb, addDelta_a_of_da_eq_zero rfl s.px, s.lookup_setAndStore_px _, s.setAndStore_frame _⟩

/-- Settles O17: the bytes are DIFF_16's encoding; its arm is `setAndStore` of the adder's pixel, whose lanes are `deltaAdderLanes`,
and its alpha delta is 0. -/
theorem diff16AddsAndStores : Obligations.Diff16AddsAndStores := by
  refine fun fr fg fb => ⟨decode_append_of_encode_eq rfl (encode_diff16 fr fg fb), fun s => ?_⟩
  obtain ⟨hr, hg, hb, -⟩ := deltaAdderLanes s.px (diff16Delta fr fg fb)
  exact ⟨_, rfl, hr, hg, hb, addDelta_a_of_da_eq_zero rfl s.px, s.lookup_setAndStore_px _, s.setAndStore_frame _⟩

/-- Settles O18: the bytes are DIFF_24's encoding by its 20-bit payload; its arm is `setAndStore` of the adder's pixel, alpha moving
as the other lanes of `deltaAdderLanes` do. -/
theorem diff24AddsAndStores : Obligations.Diff24AddsAndStores := by
  refine fun fr fg fb fa => ⟨decode_append_of_encode_eq rfl (encode_diff24 fr fg fb fa), fun s => ?_⟩
  obtain ⟨hr, hg, hb, ha⟩ := deltaAdderLanes s.px (diff24Delta fr fg fb fa)
  exact ⟨_, rfl, hr, hg, hb, ha, s.lookup_setAndStore_px _, s.setAndStore_frame _⟩

end Sys2Proof.Machine
end

section
/-!
PROOFS. COLOR (45_color.md, rules R240 and R241): the literal of each flagged channel stands at the number of set flags before it.
-/

namespace Sys2Proof

/-- A set flag uses up one literal, a clear one none. -/
theorem takeLiteral_snd (flag : Bool) (old : Byte) (lits : List Byte) : (takeLiteral flag old lits).2 = lits.drop flag.toNat := by
  cases flag with
  | false => rfl
  | true => cases lits <;> rfl

/-- With a literal left for it, a set flag takes the first one. -/
theorem some_takeLiteral_fst {flag : Bool} {lits : List Byte} (h : flag.toNat ≤ lits.length) (old : Byte) :
    some (takeLiteral flag old lits).1 = if flag then lits[0]? else some old := by
  cases flag with
  | false => rfl
  | true =>
    cases lits with
    | nil => cases h
    | cons v rest => rfl

/-- The same for a channel that comes after `n` set flags: its literal stands at place `n` (rule R241). -/
theorem some_takeLiteral_drop_fst {flag : Bool} {lits : List Byte} {n : Nat} (h : n + flag.toNat ≤ lits.length) (old : Byte) :
    some (takeLiteral flag old (lits.drop n)).1 = if flag then lits[n]? else some old := by
  have hleft : flag.toNat ≤ (lits.drop n).length := by rw [List.length_drop]; omega
  rw [some_takeLiteral_fst hleft, List.getElem?_drop, Nat.add_zero]

/-- COLOR's pixel, each channel reading past the literals of the flags before it. -/
theorem colorPixel_eq (q : Pixel) (fR fG fB fA : Bool) (lits : List Byte) :
    colorPixel q fR fG fB fA lits =
      ⟨(takeLiteral fR q.r lits).1, (takeLiteral fG q.g (lits.drop fR.toNat)).1,
       (takeLiteral fB q.b (lits.drop (fR.toNat + fG.toNat))).1,
       (takeLiteral fA q.a (lits.drop (fR.toNat + fG.toNat + fB.toNat))).1⟩ := by
  simp only [colorPixel, takeLiteral_snd, List.drop_drop]

/-- Rule R241: the channels of COLOR's pixel, each flagged one with its own literal. -/
theorem colorPixel_channels {fR fG fB fA : Bool} {lits : List Byte} (h : lits.length = flagCount fR fG fB fA) (q : Pixel) :
    some (colorPixel q fR fG fB fA lits).r = (if fR then lits[0]? else some q.r) ∧
    some (colorPixel q fR fG fB fA lits).g = (if fG then lits[fR.toNat]? else some q.g) ∧
    some (colorPixel q fR fG fB fA lits).b = (if fB then lits[fR.toNat + fG.toNat]? else some q.b) ∧
    some (colorPixel q fR fG fB fA lits).a = (if fA then lits[fR.toNat + fG.toNat + fB.toNat]? else some q.a) := by
  rw [flagCount] at h
  rw [colorPixel_eq]
  exact ⟨some_takeLiteral_fst (by omega) _, some_takeLiteral_drop_fst (by omega) _, some_takeLiteral_drop_fst (by omega) _,
    some_takeLiteral_drop_fst (by omega) _⟩

end Sys2Proof

namespace Sys2Proof.Machine

/-- A well-formed COLOR sets and stores its pixel (rule R240). -/
theorem exec_color_of_wf {fR fG fB fA : Bool} {lits : List Byte} (hw : (Instr.color fR fG fB fA lits).wf = true) (s : State) :
    exec (.color fR fG fB fA lits) s = .next (s.setAndStore (colorPixel s.px fR fG fB fA lits)) := by
  obtain ⟨t, ht⟩ := exec_next_of_wf hw s
  rw [ht, execColor_next_eq ht]

/-- Settles O19: the bytes are COLOR's encoding; its arm is `setAndStore` of COLOR's pixel, whose channels are `colorPixel_channels`. -/
theorem colorReplacesFlaggedChannels : Obligations.ColorReplacesFlaggedChannels := by
  intro fR fG fB fA lits hlen
  have hw : (Instr.color fR fG fB fA lits).wf = true := beq_iff_eq.mpr hlen
  refine ⟨decode_append_of_encode_eq hw (encode_color fR fG fB fA lits), fun s => ?_⟩
  obtain ⟨hr, hg, hb, ha⟩ := colorPixel_channels hlen s.px
  exact ⟨_, exec_color_of_wf hw s, hr, hg, hb, ha, s.lookup_setAndStore_px _, s.setAndStore_frame _⟩

end Sys2Proof.Machine
end

section
/-!
PROOFS. EncodeDelta (46_encoder.md, rules R267 to R276): the first form that fits, the bytes of each form, and that the zero DIFF_8 is
never emitted for a pixel that differs.
-/

namespace Sys2Proof

/-- Two instructions of the same bytes are one, since the bytes decode (rule R92). -/
theorem eq_of_encode_eq {i j : Instr} (hi : i.wf = true) (hj : j.wf = true) (h : encode i = encode j) : i = j := by
  have hdecode := Machine.decode_encode_append hi []
  rw [h, Machine.decode_encode_append hj []] at hdecode
  simpa using hdecode.symm

/-- Pixels that differ, differ in a channel. -/
theorem flagCount_pos_of_ne {p q : Pixel} (h : p ≠ q) : 0 < flagCount (p.r != q.r) (p.g != q.g) (p.b != q.b) (p.a != q.a) := by
  have hsame : ∀ x y : Byte, (x != y).toNat = 0 → x = y := fun x y hxy => by simpa using hxy
  refine Nat.pos_of_ne_zero fun hzero => h ?_
  rw [flagCount] at hzero
  change Pixel.mk p.r p.g p.b p.a = Pixel.mk q.r q.g q.b q.a
  congr 1 <;> exact hsame _ _ (by omega)

theorem flagCount_le (fR fG fB fA : Bool) : flagCount fR fG fB fA ≤ 4 := by
  revert fR fG fB fA; decide

theorem bne_eq_decide_ne (x y : Byte) : (x != y) = decide (x ≠ y) :=
  Bool.eq_iff_iff.mpr (bne_iff_ne.trans decide_eq_true_iff.symm)

/-- A zero DIFF_8 keeps PX (rules R85, R210). -/
theorem addDelta_zero_diff8 (q : Pixel) : addDelta q (diff8Delta 2 2 2) = q := by
  simp [addDelta, diff8Delta, unbias, wrap8]

end Sys2Proof

namespace Sys2Proof.Machine

/-! ### The bytes of the forms -/

/-- EmitDIFF8 by rule R270's formula of the plain deltas. -/
theorem encode_emitDiff8 {d : Delta} (h : d.fits8 = true) :
    encode (emitDiff8 d) = [BitVec.ofInt 8 (0x80 + (d.dr + 2) * 16 + (d.dg + 2) * 4 + (d.db + 2))] := by
  rw [Delta.fits8, decide_eq_true_iff] at h
  have hr : ((biased 2 2 d.dr).toNat : Int) = d.dr + 2 := toNat_biased 2 2 _ (by omega) (by omega)
  have hg : ((biased 2 2 d.dg).toNat : Int) = d.dg + 2 := toNat_biased 2 2 _ (by omega) (by omega)
  have hb : ((biased 2 2 d.db).toNat : Int) = d.db + 2 := toNat_biased 2 2 _ (by omega) (by omega)
  simp only [emitDiff8, encode_diff8, ← BitVec.ofInt_natCast, Nat.cast_add, Nat.cast_mul, Nat.cast_ofNat, hr, hg, hb]

/-- EmitDIFF16 by rule R272's formula. -/
theorem encode_emitDiff16 {d : Delta} (h : d.fits16 = true) :
    encode (emitDiff16 d) = [BitVec.ofInt 8 (0xC0 + (d.dr + 16)), BitVec.ofInt 8 ((d.dg + 8) * 16 + (d.db + 8))] := by
  rw [Delta.fits16, decide_eq_true_iff] at h
  have hr : ((biased 5 16 d.dr).toNat : Int) = d.dr + 16 := toNat_biased 5 16 _ (by omega) (by omega)
  have hg : ((biased 4 8 d.dg).toNat : Int) = d.dg + 8 := toNat_biased 4 8 _ (by omega) (by omega)
  have hb : ((biased 4 8 d.db).toNat : Int) = d.db + 8 := toNat_biased 4 8 _ (by omega) (by omega)
  simp only [emitDiff16, encode_diff16, ← BitVec.ofInt_natCast, Nat.cast_add, Nat.cast_mul, Nat.cast_ofNat, hr, hg, hb]

/-- EmitDIFF24 by rule R274's 20-bit payload. -/
theorem encode_emitDiff24 {d : Delta} (h : d.fits24 = true) :
    let P := (d.dr + 16) * 2 ^ 15 + (d.dg + 16) * 2 ^ 10 + (d.db + 16) * 2 ^ 5 + (d.da + 16)
    encode (emitDiff24 d) =
      [BitVec.ofInt 8 (0xE0 + P / 2 ^ 16), BitVec.ofInt 8 (P / 2 ^ 8 % 256), BitVec.ofInt 8 (P % 256)] := by
  rw [Delta.fits24, decide_eq_true_iff] at h
  have hr : ((biased 5 16 d.dr).toNat : Int) = d.dr + 16 := toNat_biased 5 16 _ (by omega) (by omega)
  have hg : ((biased 5 16 d.dg).toNat : Int) = d.dg + 16 := toNat_biased 5 16 _ (by omega) (by omega)
  have hb : ((biased 5 16 d.db).toNat : Int) = d.db + 16 := toNat_biased 5 16 _ (by omega) (by omega)
  have ha : ((biased 5 16 d.da).toNat : Int) = d.da + 16 := toNat_biased 5 16 _ (by omega) (by omega)
  simp only [emitDiff24, encode_diff24, payload24, ← BitVec.ofInt_natCast, Nat.cast_add, Nat.cast_mul, Nat.cast_ofNat,
    Nat.cast_pow, Int.natCast_ediv, Int.natCast_emod, hr, hg, hb, ha]

theorem changedLiteral_eq (old new : Byte) : changedLiteral old new = if new ≠ old then [new] else [] :=
  (ite_not _ _ _).symm

/-- EmitCOLOR: the tag's flags and the literals by which channels differ (rule R276). -/
theorem encode_emitColor (prev p : Pixel) :
    encode (emitColor prev p) =
      BitVec.ofNat 8 (0xF0 + (decide (p.r ≠ prev.r)).toNat * 8 + (decide (p.g ≠ prev.g)).toNat * 4 +
        (decide (p.b ≠ prev.b)).toNat * 2 + (decide (p.a ≠ prev.a)).toNat) ::
      ((if p.r ≠ prev.r then [p.r] else []) ++ (if p.g ≠ prev.g then [p.g] else []) ++
       (if p.b ≠ prev.b then [p.b] else []) ++ (if p.a ≠ prev.a then [p.a] else [])) := by
  simp only [emitColor, encode_color, colorTag, changedLiteral_eq, bne_eq_decide_ne]

theorem length_encode_emitColor (prev p : Pixel) :
    (encode (emitColor prev p)).length = flagCount (p.r != prev.r) (p.g != prev.g) (p.b != prev.b) (p.a != prev.a) + 1 := by
  simp only [emitColor, encode_color, List.length_cons, List.length_append, length_changedLiteral, flagCount]

/-! ### The first form that fits (rule R267) -/

section FirstForm
variable {prev p : Pixel}

theorem encodeDelta_of_fits8 (h8 : (pixelDelta p prev).fits8 = true) : encodeDelta prev p = emitDiff8 (pixelDelta p prev) :=
  if_pos h8

theorem encodeDelta_of_fits16 (h8 : (pixelDelta p prev).fits8 = false) (h16 : (pixelDelta p prev).fits16 = true) :
    encodeDelta prev p = emitDiff16 (pixelDelta p prev) := by
  simp only [encodeDelta, h8, h16, if_true, Bool.false_eq_true, if_false]

theorem encodeDelta_of_fits24 (h16 : (pixelDelta p prev).fits16 = false) (h24 : (pixelDelta p prev).fits24 = true) :
    encodeDelta prev p = emitDiff24 (pixelDelta p prev) := by
  have h8 := Bool.eq_false_iff.mpr (mt Delta.fits16_of_fits8 (Bool.eq_false_iff.mp h16))
  simp only [encodeDelta, h8, h16, h24, if_true, Bool.false_eq_true, if_false]

theorem encodeDelta_of_not_fits24 (h24 : (pixelDelta p prev).fits24 = false) : encodeDelta prev p = emitColor prev p := by
  have h16 := Bool.eq_false_iff.mpr (mt Delta.fits24_of_fits16 (Bool.eq_false_iff.mp h24))
  have h8 := Bool.eq_false_iff.mpr (mt Delta.fits16_of_fits8 (Bool.eq_false_iff.mp h16))
  simp only [encodeDelta, h8, h16, h24, Bool.false_eq_true, if_false]

/-- A pixel has a delta in every range from itself. -/
theorem ne_of_not_fits24 (h24 : (pixelDelta p prev).fits24 = false) : p ≠ prev := by
  rintro rfl
  simp [pixelDelta, Delta.fits24] at h24

/-- No zero DIFF_8 for a pixel that differs: executing it would keep PX, and executing what EncodeDelta gives reaches the pixel
(`exec_encodeDelta`). -/
theorem encode_encodeDelta_ne_zero_diff8 (h : p ≠ prev) : encode (encodeDelta prev p) ≠ [0xAA] := by
  intro hbytes
  obtain ⟨hw, hexec⟩ := exec_encodeDelta prev p (State.reset.withPx prev) rfl
  rw [eq_of_encode_eq (j := .diff8 2 2 2) hw rfl hbytes] at hexec
  have hpx := congrArg State.px (Host.Outcome.next.inj hexec)
  exact h (hpx.symm.trans (addDelta_zero_diff8 prev))

end FirstForm

/-- Settles O32: in each case the form is that of `encodeDelta_of_…` and its bytes are the form's lemma; COLOR takes 2 to 5 bytes since 1
to 4 channels differ. -/
theorem encodeDeltaChoosesFirstForm : Obligations.EncodeDeltaChoosesFirstForm := by
  intro prev p d bytes
  refine ⟨fun h8 => ?_, fun h8 h16 => ?_, fun h16 h24 => ?_, fun h24 => ?_, encode_encodeDelta_ne_zero_diff8⟩
  · exact (congrArg encode (encodeDelta_of_fits8 h8)).trans (encode_emitDiff8 h8)
  · exact (congrArg encode (encodeDelta_of_fits16 h8 h16)).trans (encode_emitDiff16 h16)
  · exact (congrArg encode (encodeDelta_of_fits24 h16 h24)).trans (encode_emitDiff24 h24)
  · have hcolor : bytes = encode (emitColor prev p) := congrArg encode (encodeDelta_of_not_fits24 h24)
    rw [hcolor, length_encode_emitColor]
    exact ⟨encode_emitColor prev p, Nat.succ_le_succ (flagCount_pos_of_ne (ne_of_not_fits24 h24)),
      Nat.succ_le_succ (flagCount_le _ _ _ _)⟩

end Sys2Proof.Machine
end

section
/-!
PROOFS. Push and Finish (46_encoder.md, rules R261, R263 to R266, R278 and R281): a pushed pixel equal to PX, one that differs, and the two
operations outside an active encode pass.
-/

namespace Sys2Proof.Machine

/-! ### A pixel equal to PX (rule R263) -/

/-- Every Push that answers next, of whatever pixel and for every draw, keeps RUN's bound (rule R30). -/
theorem pushWith_run_le {draw : Nat} {p : Pixel} {s t : State} (hr : s.run.toNat ≤ 8223) (h : pushWith draw p s = .next t) :
    t.run.toNat ≤ 8223 := by
  obtain ⟨-, ⟨-, rfl⟩ | ⟨-, s1, hp, rfl⟩⟩ := pushWith_cases h
  · exact hr
  · obtain ⟨u, hu, heq⟩ | ⟨info, received, -, heq⟩ := State.afterDelivery_cases s.drawn (s1.bumpCount.deliver draw) id
    · obtain ⟨-, rfl⟩ := (State.deliverTo_ok_iff _ _ _).mp hu
      rw [State.encodePixel_eq s.drawn p hr] at hp
      have hs1 : s1.run = encRun s.encRegs p := by cases hp; rfl
      rw [heq]
      exact (congrArg BitVec.toNat ((State.bumpCount_run s1).trans hs1)).trans_le (encRun_le _ p)
    · rw [heq]
      exact hr

/-- Settles O34: below the cap and at it by `State.encodePixel_of_eq`; the bound after a Push is `pushWith_run_le`. -/
theorem runPixelExtendsRun : Obligations.RunPixelExtendsRun := by
  intro s hr
  refine ⟨_, s.encodePixel_of_eq hr, fun hlt => ?_, fun hmax => ?_, fun _ _ _ => pushWith_run_le hr⟩
  · rw [if_pos hlt]
    exact ⟨BitVec.toNat_add_of_lt (show s.run.toNat + 1 < 2 ^ 14 by omega), rfl⟩
  · rw [if_neg (by omega)]

/-! ### A pixel that differs from PX (rules R264 to R266 and R278) -/

theorem State.encodeDistinct_of_hit {s : State} {p : Pixel} (h : s.lookup p.hash = p) :
    s.encodeDistinct p = (s.streamWrite (encode (.index p.hash))).withPx p := if_pos h

theorem State.encodeDistinct_of_miss {s : State} {p : Pixel} (h : s.lookup p.hash ≠ p) :
    s.encodeDistinct p = ((s.storePixel p).streamWrite (encode (encodeDelta s.px p))).withPx p := if_neg h

/-- With no run pending, encoding the pixel writes PX and CACHE, and moves OUT and OPOS together. -/
theorem State.encodeDistinct_frame (s : State) (p : Pixel) :
    ∃ bytes, s.encodeDistinct p =
      { s with px := p, cache := (s.encodeDistinct p).cache, out := s.out ++ bytes, opos := s.opos + bytes.length } := by
  by_cases h : s.lookup p.hash = p
  · rw [encodeDistinct_of_hit h]
    exact ⟨_, rfl⟩
  · rw [encodeDistinct_of_miss h]
    exact ⟨_, rfl⟩

/-- Settles O35: the state is `State.encodeDistinct` of the flushed one, so that a hit and a miss are its two cases and the rest is its
frame. -/
theorem distinctPixelIsEncoded : Obligations.DistinctPixelIsEncoded := by
  intro s p hp hr flushed
  obtain ⟨bytes, hframe⟩ := s.flushed.encodeDistinct_frame p
  refine ⟨_, s.encodePixel_of_ne p hp hr, congrArg State.px hframe, congrArg State.run hframe, fun hhit => ?_, fun hmiss => ?_, ?_⟩
  · rw [State.encodeDistinct_of_hit (s := s.flushed) hhit, encode_index]
    exact ⟨rfl, rfl⟩
  · rw [State.encodeDistinct_of_miss (s := s.flushed) hmiss]
    exact ⟨rfl, s.flushed.lookup_storePixel p⟩
  · have hout : (s.flushed.encodeDistinct p).out = s.out ++ (flushed ++ bytes) :=
      (congrArg State.out hframe).trans (List.append_assoc _ _ _)
    have hopos : (s.flushed.encodeDistinct p).opos = s.opos + ((s.flushed.encodeDistinct p).out.length - s.out.length) := by
      rw [hout, List.length_append, Nat.add_sub_cancel_left, List.length_append, ← Nat.add_assoc]
      exact congrArg State.opos hframe
    rw [← hopos, hframe]
    rfl

/-! ### Outside an active encode pass (rules R261, R281) -/

section OutsideAPass
variable {s : State} (h : s.mode = .decode ∨ s.status = .idle ∨ s.status = .done)
include h

/-- Where neither operation has a step: DECODE mode, or ENCODE mode in IDLE or DONE. -/
theorem decode_or_encode_without_pass : s.mode = .decode ∨ s.mode = .encode ∧ (s.status = .idle ∨ s.status = .done) := by
  cases hm : s.mode with
  | decode => exact .inl rfl
  | encode => exact .inr ⟨rfl, h.resolve_left (by simp [hm])⟩

theorem pushWith_refused (draw : Nat) (p : Pixel) : pushWith draw p s = .refused .pushHasNoStep := by
  obtain hm | ⟨hm, hs | hs⟩ := decode_or_encode_without_pass h
  · rw [pushWith, hm]
  · rw [pushWith, hm, hs]
  · rw [pushWith, hm, hs]

theorem finish_refused : finish s = .refused .finishHasNoStep := by
  obtain hm | ⟨hm, hs | hs⟩ := decode_or_encode_without_pass h
  · rw [finish, hm]
  · rw [finish, hm, hs]
  · rw [finish, hm, hs]

end OutsideAPass

/-- Settles O40: the refusals by `pushWith_refused` and `finish_refused`, the sticky error by `pushWith_of_error` and `finish_of_error`. -/
theorem pushAndFinishOutsideAPass : Obligations.PushAndFinishOutsideAPass :=
  fun _ p => ⟨fun h => ⟨pushWith_refused h _ p, finish_refused h⟩,
    fun hmode hstatus => ⟨pushWith_of_error _ p hmode hstatus, finish_of_error hmode hstatus⟩⟩

end Sys2Proof.Machine
end

section
/-!
PROOFS. Reset and Start (70_reset_and_hazards.md, rules R370 to R372): every entry of the cache both leave, and the registers of the state
each answers next with.
-/

namespace Sys2Proof.Machine

/-- Where CACHE is as Reset and Start leave it, every lookup answers the reset value of an entry. -/
theorem State.lookup_of_cache_eq_replicate {s : State} (h : s.cache = Vector.replicate 64 Config.cacheInit) (i : BitVec 6) :
    s.lookup i = Config.cacheInit := by
  simp only [State.lookup, h, Vector.getElem_replicate]

theorem lookup_resetOp (s : State) (i : BitVec 6) : (resetOp s).lookup i = Config.cacheInit :=
  State.lookup_of_cache_eq_replicate rfl i

theorem lookup_startOp (mode : Mode) (w h : BitVec 32) (ch cs : Byte) (io : PassIO) (s : State) (i : BitVec 6) :
    (startOp mode w h ch cs io s).lookup i = Config.cacheInit :=
  State.lookup_of_cache_eq_replicate rfl i

/-- Settles O44: the registers are those `resetOp` writes, and the entries of CACHE by `lookup_resetOp`. -/
theorem resetSetsEveryRegister : Obligations.ResetSetsEveryRegister := by
  intro s
  have hcache : ∀ i, (resetOp s).lookup i = ⟨0, 0, 0, 0⟩ := lookup_resetOp s
  exact ⟨resetOp s, rfl, rfl, rfl, rfl, rfl, rfl, rfl, rfl, rfl, rfl, rfl, hcache, rfl, rfl, rfl, rfl, rfl, rfl, rfl⟩

/-- Settles O45: the registers are those `startOp` writes, the entries of CACHE by `lookup_startOp`; TOTAL is the product of the two sizes
by `toNat_pixelTotal`, and so STATUS tests that product. -/
theorem startBeginsAPass : Obligations.StartBeginsAPass := by
  intro s mode w h ch cs io
  have htotal : (startOp mode w h ch cs io s).total.toNat = w.toNat * h.toNat := toNat_pixelTotal w h
  have hcache : ∀ i, (startOp mode w h ch cs io s).lookup i = ⟨0, 0, 0, 0⟩ := lookup_startOp mode w h ch cs io s
  have hstatus : (startOp mode w h ch cs io s).status = if mode = .decode ∧ w.toNat * h.toNat = 0 then .done else .active := by
    simp only [startOp_status, pixelTotal_eq_zero_iff]
  exact ⟨startOp mode w h ch cs io s, rfl, rfl, rfl, rfl, rfl, rfl, htotal, rfl, rfl, hcache, rfl, rfl, rfl, rfl, rfl, rfl, rfl, hstatus⟩

end Sys2Proof.Machine
end

section
/-!
PROOFS. Encoding and decoding as two inverse maps (30_encoding.md): every tag byte with its operand bytes is some instruction's encoding,
so that `decode_encode_append` gives both directions; the words of section 2 and the assembly of section 7.
-/

namespace Sys2Proof.Machine

/-! ### The two directions (rules R82 to R88) -/

/-- Settles O4: an encoding is a tag byte and its operands, from which the decoder builds the instruction back. -/
theorem decodeInvertsEncode : Obligations.DecodeInvertsEncode :=
  fun _ rest hw => decode_encode_append hw rest

/-- A byte is any number that has its value. -/
theorem ofNat_eq_byte {n : Nat} {b : Byte} (h : n = b.toNat) : BitVec.ofNat 8 n = b := by
  rw [h, BitVec.ofNat_toNat, BitVec.setWidth_eq]

/-- A RUN_16 tag and its operand hold one field, the tag's low five bits being its high part (rule R84). -/
theorem encode_run16_of_bytes {tag b : Byte} (h : tag.toNat / 32 = 0b011) :
    encode (.run16 (BitVec.ofNat 13 ((tag.toNat - 0x60) * 256 + b.toNat))) = [tag, b] := by
  have hlt : tag.toNat < 256 := tag.isLt
  have hb : b.toNat < 256 := b.isLt
  simp only [encode_run16, BitVec.toNat_ofNat]
  rw [ofNat_eq_byte (b := tag) (by omega), ofNat_eq_byte (b := b) (by omega)]

/-- A DIFF_16 tag holds R, and its operand G and B (rule R86). -/
theorem encode_diff16_of_bytes {tag b : Byte} (h : tag.toNat / 32 = 0b110) :
    encode (.diff16 (BitVec.ofNat 5 tag.toNat) (BitVec.ofNat 4 (b.toNat / 16)) (BitVec.ofNat 4 b.toNat)) = [tag, b] := by
  have hlt : tag.toNat < 256 := tag.isLt
  have hb : b.toNat < 256 := b.isLt
  simp only [encode_diff16, BitVec.toNat_ofNat]
  rw [ofNat_eq_byte (b := tag) (by omega), ofNat_eq_byte (b := b) (by omega)]

/-- Every number below 2^20 is the payload of some four fields (rule R87). -/
theorem exists_payload24_eq {P : Nat} (h : P < 2 ^ 20) : ∃ fr fg fb fa, payload24 fr fg fb fa = P := by
  refine ⟨BitVec.ofNat 5 (P / 2 ^ 15), BitVec.ofNat 5 (P / 2 ^ 10), BitVec.ofNat 5 (P / 2 ^ 5), BitVec.ofNat 5 P, ?_⟩
  simp only [payload24, BitVec.toNat_ofNat]
  omega

/-- A DIFF_24 tag and two operands hold a 20-bit payload. -/
theorem exists_encode_diff24 {tag b c : Byte} (h : tag.toNat / 16 = 0b1110) :
    ∃ fr fg fb fa, encode (.diff24 fr fg fb fa) = [tag, b, c] := by
  have hlt : tag.toNat < 256 := tag.isLt
  have hb : b.toNat < 256 := b.isLt
  have hc : c.toNat < 256 := c.isLt
  obtain ⟨P, hP⟩ : ∃ P, P = (tag.toNat - 0xE0) * 2 ^ 16 + b.toNat * 2 ^ 8 + c.toNat := ⟨_, rfl⟩
  obtain ⟨fr, fg, fb, fa, hpayload⟩ := exists_payload24_eq (P := P) (by omega)
  refine ⟨fr, fg, fb, fa, ?_⟩
  rw [encode_diff24, hpayload, ofNat_eq_byte (b := tag) (by omega), ofNat_eq_byte (b := b) (by omega), ofNat_eq_byte (b := c) (by omega)]

/-- Sixteen tags are COLOR's, one for each set of flags (rule R88). -/
theorem colorTag_of_classify : ∀ {tag : Byte}, classify tag = .color → colorTag tag[3] tag[2] tag[1] tag[0] = tag := by
  decide

/-- A tag byte with the operands it asks for is the encoding of a well-formed instruction: each field takes the bits its pattern leaves
it. -/
theorem exists_encode_eq {tag : Byte} {operands : List Byte} (hlen : operands.length = operandBytes tag) :
    ∃ i : Instr, i.wf = true ∧ encode i = tag :: operands := by
  obtain ⟨hindex, hrun8, hrun16, hdiff8, hdiff16, hdiff24, -⟩ := classify_eq_iff tag
  have hlt : tag.toNat < 256 := tag.isLt
  rw [operandBytes] at hlen
  cases hc : classify tag <;> rw [hc] at hlen
  case index =>
    obtain rfl := List.length_eq_zero_iff.mp hlen
    have := hindex.mp hc
    exact ⟨.index (BitVec.ofNat 6 tag.toNat), rfl, by rw [encode_index, BitVec.toNat_ofNat, ofNat_eq_byte (b := tag) (by omega)]⟩
  case run8 =>
    obtain rfl := List.length_eq_zero_iff.mp hlen
    have := hrun8.mp hc
    exact ⟨.run8 (BitVec.ofNat 5 tag.toNat), rfl, by rw [encode_run8, BitVec.toNat_ofNat, ofNat_eq_byte (b := tag) (by omega)]⟩
  case run16 =>
    obtain ⟨b, rfl⟩ := List.length_eq_one_iff.mp hlen
    exact ⟨_, rfl, encode_run16_of_bytes (hrun16.mp hc)⟩
  case diff8 =>
    obtain rfl := List.length_eq_zero_iff.mp hlen
    have := hdiff8.mp hc
    refine ⟨.diff8 (BitVec.ofNat 2 (tag.toNat / 16)) (BitVec.ofNat 2 (tag.toNat / 4)) (BitVec.ofNat 2 tag.toNat), rfl, ?_⟩
    simp only [encode_diff8, BitVec.toNat_ofNat]
    rw [ofNat_eq_byte (b := tag) (by omega)]
  case diff16 =>
    obtain ⟨b, rfl⟩ := List.length_eq_one_iff.mp hlen
    exact ⟨_, rfl, encode_diff16_of_bytes (hdiff16.mp hc)⟩
  case diff24 =>
    obtain ⟨b, c, rfl⟩ := List.length_eq_two.mp hlen
    obtain ⟨fr, fg, fb, fa, henc⟩ := exists_encode_diff24 (b := b) (c := c) (hdiff24.mp hc)
    exact ⟨_, rfl, henc⟩
  case color =>
    exact ⟨.color tag[3] tag[2] tag[1] tag[0] operands, beq_iff_eq.mpr hlen, by rw [encode_color, colorTag_of_classify hc]⟩

/-- Settles O5: what was decoded is the encoding of some well-formed instruction, which decodes to that instruction. -/
theorem encodeInvertsDecode : Obligations.EncodeInvertsDecode := by
  intro bytes rest i h
  obtain ⟨tag, operands, hbytes, hlen, -⟩ := (decode_ok_iff bytes rest i).mp h
  obtain ⟨j, hw, henc⟩ := exists_encode_eq hlen
  rw [← henc] at hbytes
  obtain rfl : j = i := by
    rw [hbytes, decode_encode_append hw] at h
    cases h; rfl
  exact ⟨hw, hbytes.symm⟩

/-- Enough bytes for a tag decode: they are the tag, its operands and a rest (rule R94). -/
theorem exists_decode_of_tagLength_le {tag : Byte} {bytes : List Byte} (hlen : tagLength tag ≤ (tag :: bytes).length) :
    ∃ i rest, decode (tag :: bytes) = .ok (i, rest) := by
  rw [List.length_cons, tagLength] at hlen
  exact ⟨_, _, (decode_ok_iff _ _ _).mpr ⟨tag, bytes.take (operandBytes tag), (congrArg (tag :: ·) (List.take_append_drop _ _)).symm,
    List.length_take_of_le (by omega), rfl⟩⟩

/-- Settles O20: `exec` refuses what the well-formedness check does, and nothing that decodes is refused by it. -/
theorem illFormedColorIsRefused : Obligations.IllFormedColorIsRefused := by
  intro fR fG fB fA lits hlen
  have hw : (Instr.color fR fG fB fA lits).wf ≠ true := fun h => hlen (beq_iff_eq.mp h)
  exact ⟨fun s => if_neg hw, fun bytes rest h => hw (encodeInvertsDecode bytes rest _ h).1⟩

/-- Settles O6: the decoder run on the seven words. -/
theorem specWordsDecode : Obligations.SpecWordsDecode := by
  unfold Obligations.SpecWordsDecode
  decide

/-! ### The assembly (rules R100, R101) -/

/-- An INDEX in range is the byte of its number. -/
theorem asm_index {i : Nat} (h : i ≤ 63) : ∃ x, (AsmLine.index i).instr = some x ∧ encode x = [BitVec.ofNat 8 i] := by
  refine ⟨_, if_pos (Nat.lt_succ_of_le h), ?_⟩
  rw [encode_index, BitVec.toNat_ofNat, Nat.mod_eq_of_lt (by omega)]

theorem asm_run8 {l : Nat} (h1 : 1 ≤ l) (h2 : l ≤ 32) :
    ∃ x, (AsmLine.run8 l).instr = some x ∧ encode x = [BitVec.ofNat 8 (0x40 + (l - 1))] := by
  refine ⟨_, if_pos ⟨h1, h2⟩, ?_⟩
  rw [encode_run8, BitVec.toNat_ofNat, Nat.mod_eq_of_lt (by omega)]

theorem asm_run16 {l : Nat} (h1 : 33 ≤ l) (h2 : l ≤ 8224) :
    ∃ x, (AsmLine.run16 l).instr = some x ∧
      encode x = [BitVec.ofNat 8 (0x60 + (l - 33) / 256), BitVec.ofNat 8 ((l - 33) % 256)] := by
  refine ⟨_, if_pos ⟨h1, h2⟩, ?_⟩
  rw [encode_run16, BitVec.toNat_ofNat, Nat.mod_eq_of_lt (show l - 33 < 2 ^ 13 by omega)]

/-- RUN L takes RUN_8 up to 32 and RUN_16 above (rule R101). -/
theorem asm_run {l : Nat} (h1 : 1 ≤ l) (h2 : l ≤ 8224) :
    (AsmLine.run l).instr = if l ≤ 32 then (AsmLine.run8 l).instr else (AsmLine.run16 l).instr := by
  have hpos : l ≠ 0 := by omega
  simp only [AsmLine.instr, runInstr, Config.run8Max, Config.run16Min, Config.runMax, hpos, h1, h2, if_false, if_true, true_and,
    and_true]
  by_cases hl : l ≤ 32
  · simp only [hl, if_true]
  · simp only [hl, if_false, show 33 ≤ l by omega, if_true]

/-- Settles O7: the bytes of each line by its own lemma, the DIFF lines' being those of the encoder's Emit forms; out of range, the test of
`AsmLine.instr` fails. -/
theorem assemblyEncodesByFormula : Obligations.AssemblyEncodesByFormula := by
  refine ⟨fun i => asm_index, fun l => asm_run8, fun l => asm_run16, ?_, ?_, ?_, fun r g b a => ⟨_, rfl, encode_color _ _ _ _ _⟩,
    fun l => asm_run, fun i h => if_neg (by unfold Config.cacheEntries; omega), fun l h => if_neg (by unfold Config.run8Max; omega),
    fun l h => if_neg (by unfold Config.run16Min Config.runMax; omega), fun l => (runInstr_eq_none_iff l).mpr⟩
  · intro dr dg db hr hr' hg hg' hb hb'
    have hfits : (Delta.mk dr dg db 0).fits8 = true := decide_eq_true ⟨rfl, hr, hr', hg, hg', hb, hb'⟩
    exact ⟨_, if_pos hfits, encode_emitDiff8 hfits⟩
  · intro dr dg db hr hr' hg hg' hb hb'
    have hfits : (Delta.mk dr dg db 0).fits16 = true := decide_eq_true ⟨rfl, hr, hr', hg, hg', hb, hb'⟩
    exact ⟨_, if_pos hfits, encode_emitDiff16 hfits⟩
  · intro dr dg db da hr hr' hg hg' hb hb' ha ha'
    have hfits : (Delta.mk dr dg db da).fits24 = true := decide_eq_true ⟨hr, hr', hg, hg', hb, hb', ha, ha'⟩
    exact ⟨_, if_pos hfits, encode_emitDiff24 hfits⟩

end Sys2Proof.Machine
end

section
/-!
PROOFS. A pixel as a word and as a delta (10_state.md, rule R28; 44_delta.md, rules R221 and R223).
-/

namespace Sys2Proof

/-- The packed word as a number, r leading (rule R28). -/
theorem Pixel.toNat_pack (p : Pixel) :
    p.pack.toNat = p.r.toNat * 2 ^ 24 + p.g.toNat * 2 ^ 16 + p.b.toNat * 2 ^ 8 + p.a.toNat := by
  rw [Pixel.pack, toNat_concat, toNat_concat, toNat_concat]
  omega

/-- Each byte of the packed word is its channel. -/
theorem Pixel.unpack_pack (p : Pixel) : Pixel.unpack p.pack = p := by
  have hchannel (k : Nat) (b : Byte) (h : p.pack.toNat / 2 ^ k % 2 ^ 8 = b.toNat) : p.pack.extractLsb' k 8 = b := by
    rw [← BitVec.toNat_inj, BitVec.extractLsb'_toNat, Nat.shiftRight_eq_div_pow, h]
  rw [Pixel.toNat_pack] at hchannel
  rw [Pixel.unpack, hchannel 24 p.r (by omega), hchannel 16 p.g (by omega), hchannel 8 p.b (by omega), hchannel 0 p.a (by omega)]

/-- Settles O9: the word as a number, and its bytes. -/
theorem pixelPacking : Obligations.PixelPacking := ⟨Pixel.toNat_pack, Pixel.unpack_pack⟩

end Sys2Proof

namespace Sys2Proof.Machine

/-- Settles O11: the deltas are differences of bytes, and `addDelta_pixelDelta` undoes them. -/
theorem deltaRoundTrip : Obligations.DeltaRoundTrip := by
  refine fun p q => ⟨rfl, ?_, addDelta_pixelDelta p q⟩
  simp only [pixelDelta, List.mem_cons, List.not_mem_nil, or_false, forall_eq_or_imp, forall_eq]
  omega

/-- Settles O33: `exec_encodeDelta`, the stored pixel being PX. -/
theorem encodedDeltaDecodesToThePixel : Obligations.EncodedDeltaDecodesToThePixel := by
  intro prev p s hpx
  obtain ⟨hw, hexec⟩ := exec_encodeDelta prev p s hpx
  exact ⟨hw, _, hexec, State.setAndStore_px s p⟩

end Sys2Proof.Machine
end

section
/-!
PROOFS. The header of a container (40_descriptor_interface.md, rules R120 and R121), written and read back.
-/

namespace Sys2Proof.Machine

theorem length_writeHeader (d : Descriptor) : (writeHeader d).length = Config.headerBytes := rfl

/-- The magic stands before the fields of a written header, and the channel byte after the two sizes (rule R120). -/
theorem readHeader_of_bad_channel {d : Descriptor} (h3 : d.channels ≠ 3) (h4 : d.channels ≠ 4) (rest : List Byte) :
    readHeader (writeHeader d ++ rest) = .error .channel := by
  have hlen : ¬(writeHeader d ++ rest).length < Config.headerBytes := by
    rw [List.length_append, length_writeHeader]
    omega
  have hmagic : (writeHeader d ++ rest).take 4 = magic := rfl
  rw [readHeader, if_neg hlen, if_neg (not_not.mpr hmagic)]
  exact if_pos ⟨h3, h4⟩

/-- Settles O56: a header is 14 bytes; a legal channel byte is `readHeader_writeHeader`, another `readHeader_of_bad_channel`. -/
theorem headerRoundTrip : Obligations.HeaderRoundTrip :=
  fun d rest => ⟨length_writeHeader d, readHeader_writeHeader d rest, fun h3 h4 => readHeader_of_bad_channel h3 h4 rest⟩

end Sys2Proof.Machine
end

section
/-!
PROOFS. The Pull of an active decode pass (42_dispatch_decode.md, rules R160 to R168): the state in which PX holds the pixel
(`State.Fetched`), the end of the Pull from there, and what of IN the Pull has looked at.
-/

namespace Sys2Proof.Machine

/-! ### A Pull in two parts -/

/-- `u` is the state of a Pull in which PX holds the pixel to return: past a run continuation, or past the execution of one opcode. -/
inductive State.Fetched (s : State) : State → Prop where
  | continuation (hrun : s.run ≠ 0) : s.Fetched (s.withRun (s.run - 1))
  | opcode {i : Instr} {s1 u : State} (hrun : s.run = 0) (hdispatch : s.dispatch = .ok (i, s1)) (hexec : exec i s1 = .next u) :
      s.Fetched u

/-- Fetching writes PX, CACHE, RUN and IPOS alone. -/
theorem State.Fetched.frame {s u : State} (h : s.Fetched u) :
    u = { s with px := u.px, cache := u.cache, run := u.run, ipos := u.ipos } := by
  cases h with
  | continuation => rfl
  | opcode _ hdispatch hexec =>
    obtain ⟨n, rfl⟩ := State.dispatch_ok_advance hdispatch
    obtain ⟨-, -, -, -, -, -, -, -, -, hipos, -⟩ := exec_next_keeps hexec
    rw [hipos]
    exact exec_next_frame hexec

/-- The end of a Pull follows fetching. -/
theorem State.Fetched.pull_eq {s u : State} (h : s.Fetched u) (hs : s.ActiveIn .decode) : pull s = .next u.completePull := by
  obtain ⟨hmode, hstatus⟩ := hs
  rw [pull_eq_pullActive hmode hstatus, pullActive]
  cases h with
  | continuation hrun => rw [if_pos ((State.runActive_iff s).mpr hrun)]
  | opcode hrun hdispatch hexec =>
    rw [(State.runActive_false_iff s).mpr hrun, hdispatch]
    simp only [Bool.false_eq_true, if_false, hexec]

/-- Rule R160: an active Pull fetches, or raises the StreamError of its dispatch. -/
theorem State.ActiveIn.fetched_or_dispatch_error {s : State} (hs : s.ActiveIn .decode) :
    (∃ u, s.Fetched u) ∨ ∃ info, s.dispatch = .error info ∧ pull s = .next (s.raise .stream info) := by
  by_cases hrun : s.run = 0
  · cases hdispatch : s.dispatch with
    | error info => exact .inr ⟨info, rfl, pull_of_dispatch_error hs hrun hdispatch⟩
    | ok r =>
      obtain ⟨u, hexec⟩ := exec_next_of_wf (State.dispatch_wf hdispatch) r.2
      exact .inl ⟨u, .opcode hrun hdispatch hexec⟩
  · exact .inl ⟨_, .continuation hrun⟩

/-- A Pull that answers next and not in ERROR was issued in DONE, where it returns End, or it fetched (rules R160, R161). -/
theorem pull_next_of_ne_error {s t : State} (h : pull s = .next t) (hne : t.status ≠ .error) :
    s.mode = .decode ∧ ((s.status = .done ∧ t = s.report .endOfPass) ∨
      (s.status = .active ∧ ∃ u, s.Fetched u ∧ t = u.completePull)) := by
  obtain ⟨hmode, ⟨hstatus, rfl⟩ | hdone | ⟨hstatus, -⟩⟩ := pull_cases h
  · exact absurd hstatus hne
  · exact ⟨hmode, .inl hdone⟩
  · refine ⟨hmode, .inr ⟨hstatus, ?_⟩⟩
    have hs : s.ActiveIn .decode := ⟨hmode, hstatus⟩
    obtain ⟨u, hu⟩ | ⟨info, -, hraise⟩ := hs.fetched_or_dispatch_error
    · exact ⟨u, hu, Host.Outcome.next.inj (h.symm.trans (hu.pull_eq hs))⟩
    · rw [h, Host.Outcome.next.injEq] at hraise
      subst hraise
      exact absurd rfl hne

/-- The end of a Pull counts, may finish the pass, and returns PX (rule R166); it writes nothing else. -/
theorem State.completePull_frame (s : State) :
    s.completePull = { s with count := s.completePull.count, status := s.completePull.status,
                              results := s.results ++ [.pixel s.px], draws := s.completePull.draws } := by
  obtain ⟨c, d, hbump⟩ := State.bumpCount_fields s
  simp only [State.completePull, hbump]
  split <;> rfl

/-- The end of a Pull returns its PX. -/
theorem State.completePull_results (s : State) : s.completePull.results = s.results ++ [.pixel s.completePull.px] := by
  rw [State.completePull_frame]

/-- Fetching and the end of the Pull raise nothing. -/
theorem State.Fetched.completePull_status_ne_error {s u : State} (h : s.Fetched u) (hactive : s.status = .active) :
    u.completePull.status ≠ .error := by
  have hu : u.status = .active := by rw [h.frame]; exact hactive
  obtain hs | hs := u.completePull_status hu <;> simp [hs]

/-! ### Steps of a decode pass -/

/-- Settles O3: what enough bytes decode to is well formed and so executes; and an active Pull that ends in ERROR has not fetched its pixel,
so its dispatch failed. -/
theorem everyEncodingIsLegal : Obligations.EveryEncodingIsLegal := by
  refine ⟨fun tag bytes hlen => ?_, fun s t hpull hactive herror => ?_⟩
  · obtain ⟨i, rest, hdecode⟩ := exists_decode_of_tagLength_le hlen
    obtain ⟨hw, -⟩ := encodeInvertsDecode _ _ _ hdecode
    exact ⟨i, rest, hdecode, exec_next_of_wf hw⟩
  · obtain ⟨hmode, -⟩ := pull_cases hpull
    have hs : s.ActiveIn .decode := ⟨hmode, hactive⟩
    obtain ⟨u, hu⟩ | ⟨info, hdispatch, hraise⟩ := hs.fetched_or_dispatch_error
    · obtain rfl : u.completePull = t := Host.Outcome.next.inj ((hu.pull_eq hs).symm.trans hpull)
      exact absurd herror (hu.completePull_status_ne_error hactive)
    · obtain rfl : s.raise .stream info = t := Host.Outcome.next.inj (hraise.symm.trans hpull)
      exact ⟨rfl, info, hdispatch⟩

/-- Settles O23: `State.completePull_eq`. -/
theorem pullEndsByCountingAndReturning : Obligations.PullEndsByCountingAndReturning :=
  fun _ => State.completePull_eq

/-- Settles O22: taking the Pull from the queue leaves the state ready, and `pull_of_readyFor` runs the instruction. -/
theorem stepRunsDecodedInstruction : Obligations.StepRunsDecodedInstruction := by
  intro i s rest hw hready hops
  have hready' : (s.withOps rest).ReadyFor i := hready
  rw [step_of_pull hops, pull_of_readyFor hw hready']
  rfl

/-- A Pull that dispatches a well-formed instruction executes it past its bytes, and then ends. -/
theorem pull_next_of_readyFor {i : Instr} {s : State} (hw : i.wf = true) (h : s.ReadyFor i) :
    ∃ u, exec i (s.advance (encode i).length) = .next u ∧ pull s = .next u.completePull := by
  obtain ⟨u, hexec⟩ := exec_next_of_wf hw (s.advance (encode i).length)
  exact ⟨u, hexec, by rw [pull_of_readyFor hw h, hexec]⟩

/-- Settles O30: the byte 00 is INDEX 0's encoding, and its Pull returns the entry. -/
theorem paddingByteReturnsEntryZero : Obligations.PaddingByteReturnsEntryZero := by
  refine ⟨decode_append_of_encode_eq (i := .index 0) rfl (encode_index 0), fun s hready => ?_⟩
  obtain ⟨u, hexec, hpull⟩ := pull_next_of_readyFor rfl hready
  cases hexec
  refine ⟨_, hpull, ?_, State.completePull_ipos _, State.completePull_cache _⟩
  rw [State.completePull_frame]
  rfl

/-- Settles O27: `State.ActiveIn.fetched_or_dispatch_error`, fetching having returned nothing yet. -/
theorem activePullYieldsPixelOrStreamError : Obligations.ActivePullYieldsPixelOrStreamError := by
  intro s hs
  obtain ⟨u, hu⟩ | ⟨info, -, hraise⟩ := hs.fetched_or_dispatch_error
  · have hresults : u.results = s.results := by rw [hu.frame]
    exact ⟨_, hu.pull_eq hs, .inl ⟨hu.completePull_status_ne_error hs.2, hresults ▸ u.completePull_results⟩⟩
  · exact ⟨_, hraise, .inr ⟨rfl, rfl, info, rfl⟩⟩

/-! ### Unread input (rules R166, R302) -/

/-- The state with another byte source. -/
def State.withSource (input : List Byte) (fail : Option Nat) (s : State) : State := { s with input := input, inFail := fail }

@[simp] theorem State.withSource_count (input : List Byte) (fail : Option Nat) (s : State) :
    (s.withSource input fail).count = s.count := rfl
@[simp] theorem State.withSource_total (input : List Byte) (fail : Option Nat) (s : State) :
    (s.withSource input fail).total = s.total := rfl

/-- No instruction reads IN: its operands are in the term. -/
theorem exec_withSource (i : Instr) (input : List Byte) (fail : Option Nat) (s : State) :
    exec i (s.withSource input fail) = mapNext (State.withSource input fail) (exec i s) := by
  cases i with
  | color fR fG fB fA lits =>
    simp only [exec, execColor, apply_ite (mapNext (State.withSource input fail))]
    rfl
  | _ => rfl

theorem State.withSource_completePull (input : List Byte) (fail : Option Nat) (s : State) :
    (s.withSource input fail).completePull = s.completePull.withSource input fail := by
  have hbump : (s.withSource input fail).bumpCount = s.bumpCount.withSource input fail := by
    simp only [State.bumpCount, apply_ite (State.withSource input fail)]
    rfl
  simp only [State.completePull, hbump, State.withSource_count, State.withSource_total]
  by_cases hc : s.bumpCount.count = s.bumpCount.total
  · simp only [hc, if_true]; rfl
  · simp only [hc, if_false]; rfl

/-- A dispatch that succeeds looks at no byte and at no failure from the IPOS it ends at on. -/
theorem State.dispatch_withSource {s s1 : State} {i : Instr} {fail : Option Nat} (h : s.dispatch = .ok (i, s1))
    (hfail : ∀ k, fail = some k → s1.ipos ≤ k) (unread : List Byte) :
    (s.withSource (s.input.take s1.ipos ++ unread) fail).dispatch =
      .ok (i, s1.withSource (s.input.take s1.ipos ++ unread) fail) := by
  obtain ⟨tag, operands, hprefix, hlen, hi, -, rfl⟩ := (State.dispatch_ok_iff s s1 i).mp h
  refine (State.dispatch_ok_iff _ _ i).mpr ⟨tag, operands, ?_, hlen, hi, fun k hk hk' => ?_, rfl⟩
  · have hopcode : (tag :: operands).length = tagLength tag := by rw [List.length_cons, hlen, tagLength, Nat.add_comm]
    have hle := hprefix.length_le
    rw [List.length_drop, hopcode] at hle
    have htake : (s.input.take (s.ipos + tagLength tag)).drop s.ipos = tag :: operands := by
      rw [List.drop_take, Nat.add_sub_cancel_left, ← hopcode]
      exact (List.prefix_iff_eq_take.mp hprefix).symm
    have hpos := tagLength_pos tag
    change tag :: operands <+: (s.input.take (s.ipos + tagLength tag) ++ unread).drop s.ipos
    rw [List.drop_append_of_le_length (by rw [List.length_take]; omega), htake]
    exact List.prefix_append _ _
  · have := hfail _ hk'
    rw [State.advance_ipos] at this
    change s.ipos + tagLength tag ≤ s.ipos + k at this
    omega

/-- Fetching looks at no byte and at no failure from the IPOS it ends at on. -/
theorem State.Fetched.withSource {s u : State} {fail : Option Nat} (h : s.Fetched u) (hfail : ∀ k, fail = some k → u.ipos ≤ k)
    (unread : List Byte) :
    (s.withSource (s.input.take u.ipos ++ unread) fail).Fetched (u.withSource (s.input.take u.ipos ++ unread) fail) := by
  cases h with
  | continuation hrun => exact .continuation (s := s.withSource _ fail) hrun
  | @opcode i s1 _ hrun hdispatch hexec =>
    obtain ⟨-, -, -, -, -, -, -, -, -, hipos, -⟩ := exec_next_keeps hexec
    rw [hipos] at hfail ⊢
    exact .opcode hrun (State.dispatch_withSource hdispatch hfail unread) (by rw [exec_withSource, hexec]; rfl)

/-- Settles O29: in DONE a Pull looks at nothing; in an active pass `State.Fetched.withSource`. -/
theorem pullIgnoresUnreadInput : Obligations.PullIgnoresUnreadInput := by
  intro s t unread fail hpull hne _ hfail
  obtain ⟨hmode, ⟨hstatus, rfl⟩ | ⟨hstatus, u, hu, rfl⟩⟩ := pull_next_of_ne_error hpull hne
  · exact pull_of_done hmode hstatus
  · change pull (s.withSource (s.input.take u.completePull.ipos ++ unread) fail) =
      .next (u.completePull.withSource (s.input.take u.completePull.ipos ++ unread) fail)
    rw [State.completePull_ipos] at hfail ⊢
    exact ((hu.withSource hfail unread).pull_eq ⟨hmode, hstatus⟩).trans
      (congrArg Host.Outcome.next (State.withSource_completePull _ fail u))

end Sys2Proof.Machine
end

section
/-!
PROOFS. What the encoder emits and what the stream adapter delivers (46_encoder.md, rules R277 and R279; 47_stream_adapter.md, rule R306),
each operation by its frame.
-/

namespace Sys2Proof.Machine

/-! ### Emission -/

/-- Settles O31: `State.flushRun_eq`. -/
theorem flushRunEmitsRunOpcode : Obligations.FlushRunEmitsRunOpcode :=
  fun s => s.flushRun_eq

/-- An instruction takes at most 5 bytes (rule R91). -/
theorem length_encode_le {i : Instr} (hw : i.wf = true) : (encode i).length ≤ 5 := by
  obtain ⟨tag, operands, henc, hlen, -⟩ := encode_shape hw
  rw [henc, List.length_cons, hlen]
  exact Nat.succ_le_succ (operandBytes_le tag)

/-- A run opcode takes at most 2 bytes. -/
theorem length_flushBytes_le (n : Nat) : (flushBytes n).length ≤ 2 := by
  unfold flushBytes
  split <;> simp

/-- FlushRun emits at most 2 bytes and clears RUN, in every state it answers in. -/
theorem State.flushRun_frame {s t : State} (h : s.flushRun = .ok t) :
    ∃ bytes : List Byte, bytes.length ≤ 2 ∧ t = { s with run := 0, out := s.out ++ bytes, opos := s.opos + bytes.length } := by
  obtain ⟨i, hi, -⟩ := (State.flushRun_ok_iff s t).mp h
  have hrange : ¬(s.run.toNat = 0 ∨ 8224 < s.run.toNat) := by
    rw [← runInstr_eq_none_iff, hi]
    simp
  rw [s.flushRun_eq (by omega) (by omega), Except.ok.injEq] at h
  exact ⟨_, length_flushBytes_le _, h.symm⟩

/-- Flushing the run, if one is pending, emits at most 2 bytes and leaves none. -/
theorem State.flushPending_frame {s t : State} (h : (if s.runActive then s.flushRun else .ok s) = .ok t) :
    ∃ bytes : List Byte, bytes.length ≤ 2 ∧ t = { s with run := 0, out := s.out ++ bytes, opos := s.opos + bytes.length } := by
  cases hactive : s.runActive with
  | true =>
    rw [hactive, if_pos rfl] at h
    exact State.flushRun_frame h
  | false =>
    have hrun : s.run = 0 := s.runActive_false_iff.mp hactive
    rw [hactive, if_neg Bool.false_ne_true, Except.ok.injEq] at h
    exact ⟨[], Nat.zero_le 2, by rw [← hrun, List.append_nil, ← h]; rfl⟩

/-- A pixel that differs emits one opcode, whose choice is INDEX or EncodeDelta (rules R265, R266). -/
theorem State.encodeDistinct_emits (s : State) (p : Pixel) :
    ∃ bytes : List Byte, bytes.length ≤ 5 ∧ s.encodeDistinct p =
      { s with px := p, cache := (s.encodeDistinct p).cache, out := s.out ++ bytes, opos := s.opos + bytes.length } := by
  by_cases h : s.lookup p.hash = p
  · rw [State.encodeDistinct_of_hit h]
    exact ⟨_, length_encode_le (i := .index p.hash) rfl, rfl⟩
  · rw [State.encodeDistinct_of_miss h]
    exact ⟨_, length_encode_le (exec_encodeDelta s.px p s rfl).1, rfl⟩

/-- Rule R279 with the frame: encoding a pixel appends at most 7 bytes to OUT, OPOS with them, and writes PX, CACHE and RUN beside. -/
theorem State.encodePixel_emits {s t : State} {p : Pixel} (h : s.encodePixel p = .ok t) :
    ∃ bytes : List Byte, bytes.length ≤ 7 ∧
      t = { s with px := p, cache := t.cache, run := t.run, out := s.out ++ bytes, opos := s.opos + bytes.length } := by
  obtain ⟨rfl, -, rfl⟩ | ⟨rfl, -, hflush⟩ | ⟨-, -, s1, hflush, rfl⟩ | ⟨-, -, rfl⟩ := State.encodePixel_cases h
  · exact ⟨[], Nat.zero_le 7, by rw [List.append_nil]; rfl⟩
  · obtain ⟨bytes, hlen, rfl⟩ := State.flushRun_frame hflush
    exact ⟨bytes, by omega, rfl⟩
  · obtain ⟨flushed, hflushed, rfl⟩ := State.flushRun_frame hflush
    obtain ⟨bytes, hlen, hframe⟩ := State.encodeDistinct_emits
      ({ s with run := 0, out := s.out ++ flushed, opos := s.opos + flushed.length } : State) p
    refine ⟨flushed ++ bytes, by rw [List.length_append]; omega, ?_⟩
    rw [hframe, List.length_append, ← List.append_assoc, ← Nat.add_assoc]
  · obtain ⟨bytes, hlen, hframe⟩ := s.encodeDistinct_emits p
    exact ⟨bytes, by omega, by rw [hframe]⟩

/-- Settles O36: `State.encodePixel_emits`. -/
theorem pushEmitsAtMostSevenBytes : Obligations.PushEmitsAtMostSevenBytes := by
  intro s t p h
  obtain ⟨bytes, hlen, ht⟩ := State.encodePixel_emits h
  exact ⟨bytes, by rw [ht], hlen⟩

/-! ### Delivery -/

/-- The state once the buffer has been delivered up to `target`. -/
def State.deliveredTo (target : Nat) (s : State) : State := (s.receive (s.outSlice s.sent target)).withSent target

/-- The sink refuses none of the bytes from SENT up to `target`. -/
def State.Accepts (s : State) (target : Nat) : Prop := ∀ k, s.outFail = some k → ¬(s.sent ≤ k ∧ k < target)

/-- Delivery succeeds exactly when the sink accepts, and then it only moves SENT and feeds the sink. -/
theorem State.deliverTo_ok_iff_accepts {s t : State} {target : Nat} :
    s.deliverTo target = .ok t ↔ s.Accepts target ∧ t = s.deliveredTo target := s.deliverTo_ok_iff t target

/-- Settles O37: the bounds of a draw's target, and `deliverTo` at that target; a target within the bounds is its own draw's. -/
theorem deliverObeysItsBounds : Obligations.DeliverObeysItsBounds := by
  intro s hsent
  refine ⟨fun draw t h => ?_, fun draw info received h => ?_, fun target hleast hmost haccepts => ?_⟩
  · obtain ⟨haccepts, rfl⟩ := State.deliverTo_ok_iff_accepts.mp h
    obtain ⟨hfrom, hdepth, hto⟩ := s.deliveryTarget_bounds draw hsent
    refine ⟨max_le hfrom hdepth, hto, ?_, haccepts, rfl⟩
    change s.opos - s.deliveryTarget draw ≤ s.obufBytes
    omega
  · obtain ⟨k, hfail, hfrom, hlt, rfl, rfl⟩ := (s.deliverTo_error_iff _ _ _).mp h
    obtain ⟨-, -, hto⟩ := s.deliveryTarget_bounds draw hsent
    exact ⟨k, hfail, hfrom, hlt.trans_le hto, rfl, rfl⟩
  · have htarget := s.deliveryTarget_surjective target (le_of_max_le_left hleast) (le_of_max_le_right hleast) hmost
    refine ⟨target, s.deliveredTo target, ?_, rfl⟩
    rw [State.deliver, htarget]
    exact State.deliverTo_ok_iff_accepts.mpr ⟨haccepts, rfl⟩

end Sys2Proof.Machine
end

section
/-!
PROOFS. Push and Finish in an active encode pass (46_encoder.md, rules R260 and R280; 47_stream_adapter.md, rules R306, R307 and R309):
the answer where the sink accepts the delivery, and the answer where it refuses a byte of it.
-/

namespace Sys2Proof.Machine

variable {s t u : State} {p : Pixel} {draw k : Nat}

/-! ### The two answers of Push -/

/-- Counting a pixel leaves the choice of a draw as it was. -/
theorem State.deliveryTarget_bumpCount (u : State) (draw : Nat) : u.bumpCount.deliveryTarget draw = u.deliveryTarget draw := by
  simp only [State.deliveryTarget, State.bumpCount_sent, State.bumpCount_opos, State.bumpCount_obufBytes]

/-- Counting a pixel leaves what the sink accepts as it was. -/
theorem State.accepts_bumpCount (u : State) {target : Nat} : u.bumpCount.Accepts target ↔ u.Accepts target := by
  simp only [State.Accepts, State.bumpCount_outFail, State.bumpCount_sent]

/-- What Push answers with, once its pixel is encoded, when the sink accepts the delivery (rule R260). -/
def State.pushed (draw : Nat) (u : State) : State := (u.bumpCount.deliveredTo (u.deliveryTarget draw)).report .ok

/-- Push in an active encode pass, once its pixel is encoded. -/
theorem pushWith_eq (hs : s.ActiveIn .encode) (henc : s.drawn.encodePixel p = .ok u) :
    pushWith draw p s = .next (s.drawn.afterDelivery (u.bumpCount.deliverTo (u.deliveryTarget draw)) id) := by
  rw [pushWith, hs.1, hs.2]
  simp only [pushActive, henc, State.deliver, State.deliveryTarget_bumpCount]

/-- A Push whose delivery the sink accepts. -/
theorem pushWith_of_accepts (hs : s.ActiveIn .encode) (henc : s.drawn.encodePixel p = .ok u)
    (haccepts : u.Accepts (u.deliveryTarget draw)) : pushWith draw p s = .next (u.pushed draw) := by
  rw [pushWith_eq hs henc, State.deliverTo_ok_iff_accepts.mpr ⟨u.accepts_bumpCount.mpr haccepts, rfl⟩]
  rfl

/-- A Push that answers next and not in ERROR was issued in an active encode pass, and its delivery was accepted. -/
theorem pushWith_next_of_ne_error (h : pushWith draw p s = .next t) (hne : t.status ≠ .error) :
    s.ActiveIn .encode ∧ ∃ u, s.drawn.encodePixel p = .ok u ∧ t = u.pushed draw := by
  obtain ⟨hmode, ⟨hstatus, rfl⟩ | ⟨hstatus, u, henc, rfl⟩⟩ := pushWith_cases h
  · exact absurd hstatus hne
  · obtain ⟨v, hv, ht⟩ := State.afterDelivery_of_ne_error rfl hne
    obtain ⟨-, rfl⟩ := State.deliverTo_ok_iff_accepts.mp hv
    refine ⟨⟨hmode, hstatus⟩, u, henc, ?_⟩
    rw [ht, State.deliveryTarget_bumpCount]
    rfl

/-- Rule R35's column of Push: an answered Push counts the pixel and delivers, and keeps every other register. -/
theorem State.pushed_frame (henc : s.drawn.encodePixel p = .ok u) (draw : Nat) :
    ∃ count draws, (s.count ≠ BitVec.allOnes 64 → count = s.count + 1) ∧ u.pushed draw =
      { s with px := p, cache := u.cache, run := u.run, count := count, out := u.out, opos := u.opos,
               sent := u.deliveryTarget draw, sink := s.sink ++ (u.out.drop s.sent).take (u.deliveryTarget draw - s.sent),
               results := s.results ++ [.ok], draws := draws } := by
  obtain ⟨bytes, -, hu⟩ := State.encodePixel_emits henc
  obtain ⟨count, draws, hbump⟩ := State.bumpCount_fields u
  refine ⟨count, draws, fun hne => ?_, ?_⟩
  · have hcount : u.count = s.count := by rw [hu]; rfl
    rw [State.bumpCount_of_ne (hcount ▸ hne), hcount] at hbump
    exact (congrArg State.count hbump).symm
  · rw [State.pushed, hbump]
    generalize u.cache = cache, u.run = run, u.deliveryTarget draw = target at hu ⊢
    subst hu
    rfl

/-- The pixel encodes before and after the draw alike. -/
theorem State.encodePixel_drawn (hrun : s.run.toNat ≤ 8223) (h : s.encodePixel p = .ok u) : s.drawn.encodePixel p = .ok u.drawn := by
  rw [State.encodePixel_eq s p hrun, Except.ok.injEq] at h
  rw [State.encodePixel_eq s.drawn p hrun, ← h]
  rfl

/-- Settles O38: the pixel encodes in closed form, and where the sink accepts, `State.pushed_frame` says what the answer holds. -/
theorem pushCompletes : Obligations.PushCompletes := by
  intro draw s p hs hrun hsent
  obtain ⟨u, hu⟩ : ∃ u, s.encodePixel p = .ok u := ⟨_, s.encodePixel_eq p hrun⟩
  refine ⟨u, hu, fun haccepts => ?_⟩
  have henc := State.encodePixel_drawn hrun hu
  obtain ⟨bytes, -, hframe⟩ := State.encodePixel_emits hu
  have hbounds := u.deliveryTarget_bounds draw
  generalize u.cache = cache, u.run = run at hframe
  subst hframe
  obtain ⟨hfrom, hdepth, hto⟩ := hbounds (hsent.trans (Nat.le_add_right _ _))
  obtain ⟨count, draws, hcount, ht⟩ := State.pushed_frame henc draw
  refine ⟨_, pushWith_of_accepts hs henc haccepts, ?_⟩
  rw [ht]
  exact ⟨rfl, rfl, rfl, rfl, rfl, rfl, hcount, rfl, hfrom, hto, tsub_le_iff_tsub_le.mp hdepth, rfl, rfl⟩

/-! ### The two answers of Finish -/

/-- What Finish answers with, once the run is flushed, when the sink accepts the delivery (rule R280). -/
def State.finished (u : State) : State := ((u.deliveredTo u.opos).withStatus .done).report .ok

/-- Finish in an active encode pass, once the run is flushed. -/
theorem finish_eq (hs : s.ActiveIn .encode) (hflush : (if s.runActive then s.flushRun else .ok s) = .ok u) :
    finish s = .next (s.afterDelivery (u.deliverTo u.opos) (State.withStatus .done)) := by
  rw [finish, hs.1, hs.2]
  simp only [finishActive, hflush, State.flushOutput]

/-- A Finish whose delivery the sink accepts. -/
theorem finish_of_accepts (hs : s.ActiveIn .encode) (hflush : (if s.runActive then s.flushRun else .ok s) = .ok u)
    (haccepts : u.Accepts u.opos) : finish s = .next u.finished := by
  rw [finish_eq hs hflush, State.deliverTo_ok_iff_accepts.mpr ⟨haccepts, rfl⟩]
  rfl

/-- A Finish that answers next and not in ERROR was issued in an active encode pass, and its delivery was accepted. -/
theorem finish_next_of_ne_error (h : finish s = .next t) (hne : t.status ≠ .error) :
    s.ActiveIn .encode ∧ ∃ u, (if s.runActive then s.flushRun else .ok s) = .ok u ∧ t = u.finished := by
  obtain ⟨hmode, ⟨hstatus, rfl⟩ | ⟨hstatus, u, hflush, rfl⟩⟩ := finish_cases h
  · exact absurd hstatus hne
  · obtain ⟨v, hv, ht⟩ := State.afterDelivery_of_ne_error rfl hne
    obtain ⟨-, rfl⟩ := State.deliverTo_ok_iff_accepts.mp hv
    exact ⟨⟨hmode, hstatus⟩, u, hflush, ht⟩

/-- Rule R35's column of Finish: an answered Finish keeps every other register. -/
theorem State.finished_frame (hflush : (if s.runActive then s.flushRun else .ok s) = .ok u) :
    u.finished =
      { s with status := .done, run := 0, out := u.out, opos := u.opos, sent := u.opos,
               sink := s.sink ++ (u.out.drop s.sent).take (u.opos - s.sent), results := s.results ++ [.ok] } := by
  obtain ⟨bytes, -, rfl⟩ := State.flushPending_frame hflush
  rfl

/-- The pending run by RUN itself, as the statements test it. -/
theorem State.flushPending_eq_ite (s : State) :
    (if s.run = 0 then Except.ok s else s.flushRun) = if s.runActive then s.flushRun else .ok s := by
  by_cases hrun : s.run = 0
  · rw [if_pos hrun, s.runActive_false_iff.mpr hrun]
    rfl
  · rw [if_neg hrun, s.runActive_iff.mpr hrun]
    rfl

/-- A Finish of a pass whose sink holds the first SENT bytes of OUT delivers OUT whole (rules R280, R307). -/
theorem State.finished_delivers (hflush : (if s.runActive then s.flushRun else .ok s) = .ok u) (hopos : s.opos = s.out.length)
    (hsent : s.sent ≤ s.opos) (hsink : s.sink = s.out.take s.sent) :
    u.opos = u.out.length ∧ u.finished =
      { s with status := .done, run := 0, out := u.out, opos := u.opos, sent := u.opos, sink := u.out,
               results := s.results ++ [.ok] } := by
  rw [State.finished_frame hflush]
  obtain ⟨bytes, -, rfl⟩ := State.flushPending_frame hflush
  have hlen : s.opos + bytes.length = (s.out ++ bytes).length := by rw [List.length_append, hopos]
  have hdelivered := sink_append_delivered hsink (hopos ▸ hsent) (List.prefix_append _ bytes)
    (hsent.trans (Nat.le_add_right _ bytes.length))
  rw [hlen, List.take_length, ← hlen] at hdelivered
  exact ⟨hlen, by rw [hdelivered]⟩

/-- Settles O39: the run flushes, and where the sink accepts, the answer is `State.finished_delivers`. -/
theorem finishDeliversEverything : Obligations.FinishDeliversEverything := by
  intro s hs hrun hopos hsent hsink
  have hflush := s.flushPending_eq (by omega)
  obtain ⟨hlen, ht⟩ := State.finished_delivers hflush hopos hsent hsink
  refine ⟨s.flushed, s.flushPending_eq_ite.trans hflush, fun haccepts => ⟨_, finish_of_accepts hs hflush haccepts, ?_⟩⟩
  rw [ht]
  exact ⟨rfl, rfl, rfl, hlen, rfl, rfl, rfl, rfl⟩

/-! ### A refused byte -/

/-- The sink of a delivery that fails at `k` ends with the output's bytes before `k` (rules R306, R309). -/
theorem State.sink_of_refused {out received : List Byte} {info : ErrInfo} {target : Nat}
    (hsink : s.sink = s.out.take s.sent) (hlen : s.sent ≤ s.out.length) (h : u.deliverTo target = .error (info, received))
    (hout : s.out <+: out) (hu : u.out = out ∧ u.sent = s.sent ∧ u.outFail = some k) :
    info = ⟨.ioFailure, k⟩ ∧ k < target ∧ s.sink ++ received = out.take k := by
  obtain ⟨rfl, husent, hufail⟩ := hu
  obtain ⟨k', hk', hfrom, hlt, rfl, rfl⟩ := (u.deliverTo_error_iff _ _ _).mp h
  obtain rfl : k' = k := Option.some.inj (hk'.symm.trans hufail)
  rw [husent] at hfrom
  rw [State.outSlice, husent]
  exact ⟨rfl, hlt, sink_append_delivered hsink hlen hout hfrom⟩

/-- Settles O43: a Push that raises and a Finish that reaches the refused byte have both failed to deliver, and
`State.sink_of_refused` reads the failure. -/
theorem sinkFailureReportsItsPosition : Obligations.SinkFailureReportsItsPosition := by
  intro s k hs hfail hrun hopos hsent hk hsink
  have hlen : s.sent ≤ s.out.length := hopos ▸ hsent
  refine ⟨fun p draw t h herror => ?_, fun u hflush hlt => ?_⟩
  · obtain ⟨v, info, received, -, -, hv, hrefused, rfl⟩ := pushWith_raises h (by rw [hs.2]; simp) herror
    obtain ⟨u, hu⟩ : ∃ u, s.encodePixel p = .ok u := ⟨_, s.encodePixel_eq p hrun⟩
    obtain rfl : u.drawn = v := by
      rw [State.encodePixel_drawn hrun hu] at hv
      exact Except.ok.inj hv
    obtain ⟨bytes, -, hframe⟩ := State.encodePixel_emits hu
    have hbounds := u.deliveryTarget_bounds draw
    generalize u.cache = cache, u.run = run at hframe
    subst hframe
    obtain ⟨rfl, hlt, hreceived⟩ := State.sink_of_refused (k := k) hsink hlen hrefused ⟨bytes, rfl⟩
      ⟨State.bumpCount_out _, State.bumpCount_sent _, (State.bumpCount_outFail _).trans hfail⟩
    rw [State.deliveryTarget_bumpCount] at hlt
    obtain ⟨-, -, hto⟩ := hbounds (hsent.trans (Nat.le_add_right _ _))
    exact ⟨rfl, _, hu, hlt.trans_le hto, hreceived⟩
  · rw [s.flushPending_eq_ite] at hflush
    obtain ⟨bytes, -, rfl⟩ := State.flushPending_frame hflush
    have hrefused := (State.deliverTo_error_iff
      ({ s with run := 0, out := s.out ++ bytes, opos := s.opos + bytes.length } : State) _ _ _).mpr ⟨k, hfail, hk, hlt, rfl, rfl⟩
    obtain ⟨-, -, hreceived⟩ := State.sink_of_refused (k := k) hsink hlen hrefused ⟨bytes, rfl⟩ ⟨rfl, rfl, hfail⟩
    exact ⟨_, by rw [finish_eq hs hflush, hrefused], rfl, rfl, hreceived, rfl⟩

/-! ### What an operation leaves unchanged -/

/-- Rule R35's column of Pull. -/
theorem pull_frame (h : pull s = .next t) (hne : t.status ≠ .error) :
    t = { s with status := t.status, count := t.count, px := t.px, cache := t.cache, run := t.run, ipos := t.ipos,
                 results := t.results, draws := t.draws } := by
  obtain ⟨-, ⟨-, rfl⟩ | ⟨-, v, hv, rfl⟩⟩ := pull_next_of_ne_error h hne
  · rfl
  · have hframe := hv.frame
    rw [State.completePull_frame]
    generalize v.completePull = w, v.px = px, v.cache = cache, v.run = run, v.ipos = ipos at hframe ⊢
    subst hframe
    rfl

/-- Settles O48: Pull by `pull_frame`, Push and Finish by `State.pushed_frame` and `State.finished_frame`. -/
theorem operationsWriteOnlyTheirRegisters : Obligations.OperationsWriteOnlyTheirRegisters := by
  refine fun s t hne => ⟨fun h => pull_frame h hne, fun p h => ?_, fun h => ?_⟩
  · obtain ⟨-, u, henc, rfl⟩ := pushWith_next_of_ne_error h hne
    obtain ⟨count, draws, -, ht⟩ := State.pushed_frame henc (Config.freeDelivery s.draws)
    rw [ht]
  · obtain ⟨-, u, hflush, rfl⟩ := finish_next_of_ne_error h hne
    rw [State.finished_frame hflush]

/-- Settles O25: a dispatched opcode advances IPOS by its encoding's length, a continuation by nothing, and IPOS is not in the column of
Push or Finish. -/
theorem iposAdvancesByOpcodeLength : Obligations.IposAdvancesByOpcodeLength := by
  refine ⟨fun i s t hw hready h => ?_, fun s t hs hrun h => ?_, fun s t p h hne => ?_, fun s t h hne => ?_⟩
  · obtain ⟨u, hexec, hpull⟩ := pull_next_of_readyFor hw hready
    obtain ⟨-, -, -, -, -, -, -, -, -, hipos, -⟩ := exec_next_keeps hexec
    rw [hpull, Host.Outcome.next.injEq] at h
    rw [← h, State.completePull_ipos, hipos, State.advance_ipos]
    cases i with
    | color fR fG fB fA lits =>
      rw [encode_color, List.length_cons, beq_iff_eq.mp hw, Nat.add_comm (flagCount fR fG fB fA)]
      rfl
    | _ => rfl
  · rw [pull_next_of_run_ne_zero h hs.2 hrun, State.completePull_ipos]
    rfl
  · rw [(operationsWriteOnlyTheirRegisters s t hne).2.1 p h]
  · rw [(operationsWriteOnlyTheirRegisters s t hne).2.2 h]

/-- Settles O41: Pull does not write OUT; Push and Finish have no step in DECODE, and append what the pixel or the pending run emits. -/
theorem outputIsAppendOnly : Obligations.OutputIsAppendOnly := by
  intro s t op h hne hstart hreset
  cases op with
  | reset => exact absurd rfl hreset
  | start mode w h' ch cs io => exact absurd rfl (hstart mode w h' ch cs io)
  | pull =>
    have hout : t.out = s.out := by rw [pull_frame h hne]
    exact ⟨hout ▸ List.prefix_rfl, fun _ => hout⟩
  | push p =>
    obtain ⟨⟨hmode, -⟩, u, henc, rfl⟩ := pushWith_next_of_ne_error h hne
    obtain ⟨bytes, -, hu⟩ := State.encodePixel_emits henc
    refine ⟨⟨bytes, ?_⟩, fun hdecode => by rw [hmode] at hdecode; cases hdecode⟩
    obtain ⟨count, draws, -, ht⟩ := State.pushed_frame henc (Config.freeDelivery s.draws)
    rw [ht, hu]
    rfl
  | finish =>
    obtain ⟨⟨hmode, -⟩, u, hflush, rfl⟩ := finish_next_of_ne_error h hne
    obtain ⟨bytes, -, hu⟩ := State.flushPending_frame hflush
    refine ⟨⟨bytes, ?_⟩, fun hdecode => by rw [hmode] at hdecode; cases hdecode⟩
    rw [State.finished_frame hflush, hu]

end Sys2Proof.Machine
end

section
/-!
PROOFS. The invariant of the block's registers (Safety.lean): Reset and Start establish it from every state, and each operation of a pass
keeps it, in its two ways of answering: raising, or answering with the frame of its operation.
-/

namespace Sys2Proof.Machine

variable {s t u : State} {p : Pixel} {draw : Nat}

/-! ### The invariant in an unfailed pass -/

/-- What the invariant says of a pass that has not failed, whatever STATUS and COUNT are. -/
structure State.InPass (s : State) : Prop where
  err : s.err = .noError
  total : s.TotalIsProduct
  cache : s.CacheHashed
  run : s.RunBounded
  opos : s.opos = s.out.length
  sent : s.sent ≤ s.opos
  depth : s.opos - s.sent ≤ s.obufBytes
  sink : s.sink = s.out.take s.sent
  ipos : s.ipos ≤ s.input.length

/-- In an active pass the invariant is this and COUNT's bound in DECODE. -/
theorem State.inv_iff_of_active (hs : s.status = .active) :
    s.Inv ↔ s.InPass ∧ (s.mode = .decode → s.count.toNat < s.total.toNat) := by
  constructor
  · intro h
    have hne : s.status ≠ .error := by simp [hs]
    have hnidle : s.status ≠ .idle := by simp [hs]
    obtain ⟨hopos, hsent, hdepth, hsink⟩ := h.outputConsistent hne
    exact ⟨⟨h.errMatchesStatus.1 hne, h.totalIsProduct, h.cacheHashed, h.runBounded, hopos, hsent, hdepth, hsink hnidle,
      h.inputConsistent hne hnidle⟩, fun hmode => (h.countBounded hmode).1 hs⟩
  · rintro ⟨h, hcount⟩
    exact {
      errMatchesStatus := ⟨fun _ => h.err, by simp [hs]⟩
      totalIsProduct := h.total
      cacheHashed := h.cache
      runBounded := h.run
      countBounded := fun hmode => ⟨fun _ => hcount hmode, by simp [hs], by simp [hs]⟩
      outputConsistent := fun _ => ⟨h.opos, h.sent, h.depth, fun _ => h.sink⟩
      inputConsistent := fun _ _ => h.ipos
      finishedDelivered := by simp [State.FinishedDelivered, hs]
      idleAsReset := by simp [State.IdleAsReset, hs] }

/-- In a finished pass it is this, COUNT at TOTAL in DECODE, and in ENCODE the run flushed and OUT delivered. -/
theorem State.InPass.inv_of_done (h : s.InPass) (hs : s.status = .done) (hcount : s.mode = .decode → s.count = s.total)
    (hdelivered : s.mode = .encode → s.run = 0 ∧ s.sink = s.out) : s.Inv where
  errMatchesStatus := ⟨fun _ => h.err, by simp [hs]⟩
  totalIsProduct := h.total
  cacheHashed := h.cache
  runBounded := h.run
  countBounded := fun hmode => ⟨by simp [hs], fun _ => hcount hmode, by simp [hs]⟩
  outputConsistent := fun _ => ⟨h.opos, h.sent, h.depth, fun _ => h.sink⟩
  inputConsistent := fun _ _ => h.ipos
  finishedDelivered := fun hmode _ => hdelivered hmode
  idleAsReset := by simp [State.IdleAsReset, hs]

/-! ### Reset and Start -/

/-- Reset leads from every state to one with the invariant. -/
theorem resetOp_inv (s : State) : (resetOp s).Inv where
  errMatchesStatus := ⟨fun _ => rfl, by simp [resetOp, State.reset]⟩
  totalIsProduct := rfl
  cacheHashed := fun i => .inl (lookup_resetOp s i)
  runBounded := Nat.zero_le _
  countBounded := fun _ => by simp [resetOp, State.reset]
  outputConsistent := fun _ => ⟨rfl, Nat.le_refl 0, Nat.zero_le _, fun hidle => absurd rfl hidle⟩
  inputConsistent := fun _ hidle => absurd rfl hidle
  finishedDelivered := fun hmode => by cases hmode
  idleAsReset := fun _ => rfl

/-- Settles O49: the reset state is what Reset makes of itself. -/
theorem resetHasTheInvariant : Obligations.ResetHasTheInvariant := resetOp_inv State.reset

/-- Settles O50: the registers Start writes begin an unfailed pass, DONE exactly where a decode pass has no pixel. -/
theorem startEstablishesTheInvariant : Obligations.StartEstablishesTheInvariant := by
  intro s mode w h ch cs io
  have hpass : (startOp mode w h ch cs io s).InPass :=
    ⟨rfl, toNat_pixelTotal w h, fun i => .inl (lookup_startOp mode w h ch cs io s i), Nat.zero_le _, rfl, Nat.le_refl 0,
      Nat.zero_le _, rfl, Nat.zero_le _⟩
  have hstatus := startOp_status s mode w h ch cs io
  by_cases hempty : mode = .decode ∧ pixelTotal w h = 0
  · rw [if_pos hempty] at hstatus
    obtain ⟨rfl, htotal⟩ := hempty
    exact hpass.inv_of_done hstatus (fun _ => htotal.symm) (fun hmode => by cases hmode)
  · rw [if_neg hempty] at hstatus
    refine (State.inv_iff_of_active hstatus).mpr ⟨hpass, fun hmode => ?_⟩
    exact Nat.pos_of_ne_zero fun hzero => hempty ⟨hmode, BitVec.eq_of_toNat_eq hzero⟩

/-! ### The clauses on the cache, RUN and IPOS -/

/-- A store of a pixel at its own hash keeps the clause on the cache. -/
theorem State.CacheHashed.of_store (h : s.CacheHashed) (ht : ∀ j, t.lookup j = if j = p.hash then p else s.lookup j) :
    t.CacheHashed := by
  intro i
  rw [ht i]
  split
  case isTrue hi => exact .inr hi.symm
  case isFalse => exact h i

theorem State.CacheHashed.of_cache_eq (h : s.CacheHashed) (ht : t.cache = s.cache) : t.CacheHashed := fun i => by
  rw [State.lookup_congr ht]
  exact h i

/-- Executing an instruction keeps the clause on the cache, by rule R143's policy. -/
theorem exec_cacheHashed {i : Instr} (hexec : exec i s = .next t) (h : s.CacheHashed) : t.CacheHashed := by
  have hpolicy := decoderCacheUpdatePolicy.1 i s t hexec
  generalize i.opcode = opcode at hpolicy
  cases opcode with
  | index | run8 | run16 => exact h.of_cache_eq hpolicy
  | diff8 | diff16 | diff24 | color => exact h.of_store hpolicy

/-- The longest run leaves 8223 in RUN (rule R197). -/
theorem exec_runBounded {i : Instr} (hexec : exec i s = .next t) (h : s.RunBounded) : t.RunBounded := by
  cases i with
  | run8 n =>
    cases hexec
    exact (toNat_run8_field n).trans_le (by omega)
  | run16 n =>
    cases hexec
    exact (toNat_run16_field n).trans_le (by omega)
  | color fR fG fB fA lits => rw [execColor_next_eq hexec]; exact h
  | _ => cases hexec; exact h

/-- A dispatch ends within IN. -/
theorem State.dispatch_ipos_le {i : Instr} (h : s.dispatch = .ok (i, t)) : t.ipos ≤ t.input.length := by
  obtain ⟨tag, operands, hprefix, hlen, -, -, rfl⟩ := (State.dispatch_ok_iff s t i).mp h
  have hle := hprefix.length_le
  rw [List.length_cons, hlen, List.length_drop] at hle
  rw [State.advance_ipos, State.advance_input, tagLength]
  omega

/-- Fetching the pixel of a Pull keeps the three clauses. -/
theorem State.Fetched.clauses (h : s.Fetched u) (hcache : s.CacheHashed) (hrun : s.RunBounded) (hipos : s.ipos ≤ s.input.length) :
    u.CacheHashed ∧ u.RunBounded ∧ u.ipos ≤ u.input.length := by
  cases h with
  | continuation hne =>
    have hpos : 0 < s.run.toNat := of_decide_eq_true (s.runActive_iff.mpr hne)
    refine ⟨hcache, ?_, hipos⟩
    rw [State.RunBounded] at hrun ⊢
    rw [State.withRun_run, toNat_run_pred hpos]
    omega
  | opcode _ hdispatch hexec =>
    have hipos1 := State.dispatch_ipos_le hdispatch
    obtain ⟨n, rfl⟩ := State.dispatch_ok_advance hdispatch
    refine ⟨exec_cacheHashed hexec hcache, exec_runBounded hexec hrun, ?_⟩
    rw [exec_next_frame hexec]
    exact hipos1

/-- Encoding a pixel keeps the clause on the cache: a miss stores it at its hash, and nothing else writes CACHE (rules R263 to R266). -/
theorem State.encodePixel_cacheHashed (hrun : s.RunBounded) (h : s.encodePixel p = .ok u) (hcache : s.CacheHashed) :
    u.CacheHashed := by
  by_cases hp : p = s.px
  · subst hp
    rw [s.encodePixel_of_eq hrun, Except.ok.injEq] at h
    subst h
    split <;> exact hcache
  · obtain ⟨u', hu', -, -, hhit, hmiss, -⟩ := distinctPixelIsEncoded s p hp (hrun.trans (by decide))
    obtain rfl : u' = u := Except.ok.inj (hu'.symm.trans h)
    by_cases hlookup : s.lookup p.hash = p
    · exact hcache.of_cache_eq (hhit hlookup).2
    · exact hcache.of_store (hmiss hlookup).2

/-! ### The operations of a pass -/

namespace State.Inv

/-- Taking an operation from the queue changes no register. -/
theorem withOps (h : s.Inv) (ops : List HostOp) : (s.withOps ops).Inv :=
  { h with idleAsReset := fun hidle => congrArg (State.withOps ops) (h.idleAsReset hidle) }

/-- Handing over a result changes no register. -/
theorem report (h : s.Inv) (r : Result) : (s.report r).Inv :=
  { h with idleAsReset := fun hidle => congrArg (State.report r) (h.idleAsReset hidle) }

/-- Raising StreamError in an active pass keeps the invariant, whatever IPOS, OUT, OPOS, SENT and the sink become (rule R336). -/
theorem raise (h : s.Inv) (hactive : s.status = .active) (received : List Byte) (draws : Nat) (info : ErrInfo) :
    (({ s with sink := s.sink ++ received, draws := draws } : State).raise .stream info).Inv where
  errMatchesStatus := ⟨fun hne => absurd rfl hne, fun _ => rfl⟩
  totalIsProduct := h.totalIsProduct
  cacheHashed := h.cacheHashed
  runBounded := h.runBounded
  countBounded := fun hmode => ⟨by simp, by simp, fun _ => (h.countBounded hmode).1 hactive⟩
  outputConsistent := fun hne => absurd rfl hne
  inputConsistent := fun hne => absurd rfl hne
  finishedDelivered := fun _ hdone => by cases hdone
  idleAsReset := fun hidle => by cases hidle

/-- An active Pull that raises nothing: the fetched state is still an unfailed pass, and the end of the Pull makes it DONE exactly when
COUNT comes to TOTAL. -/
theorem completePull (h : s.Inv) (hmode : s.mode = .decode) (hactive : s.status = .active) (hu : s.Fetched u) :
    u.completePull.Inv := by
  obtain ⟨hpass, hcount⟩ := (State.inv_iff_of_active hactive).mp h
  obtain ⟨hcache, hrun, hipos⟩ := hu.clauses hpass.cache hpass.run hpass.ipos
  have hframe := hu.frame
  have hupass : u.InPass := by
    generalize u.px = px, u.cache = cache, u.run = run, u.ipos = ipos at hframe
    subst hframe
    exact { hpass with cache := hcache, run := hrun, ipos := hipos }
  have hlt : u.count.toNat < u.total.toNat := by rw [hframe]; exact hcount hmode
  have humode : u.mode = .decode := by rw [hframe]; exact hmode
  have hustatus : u.status = .active := by rw [hframe]; exact hactive
  have hnext := toNat_count_succ hlt
  rw [State.completePull_eq hlt, hustatus]
  by_cases hdone : u.count.toNat + 1 = u.total.toNat
  · rw [if_pos hdone]
    refine State.InPass.inv_of_done { hupass with } rfl (fun _ => BitVec.eq_of_toNat_eq (hnext.trans hdone)) fun hencode => ?_
    cases humode.symm.trans hencode
  · rw [if_neg hdone]
    refine (State.inv_iff_of_active rfl).mpr ⟨{ hupass with }, fun _ => hnext.trans_lt ?_⟩
    change u.count.toNat + 1 < u.total.toNat
    omega

/-- An active Push that raises nothing. -/
theorem pushed (h : s.Inv) (hs : s.ActiveIn .encode) (henc : s.drawn.encodePixel p = .ok u) : (u.pushed draw).Inv := by
  obtain ⟨hmode, hactive⟩ := hs
  obtain ⟨hpass, -⟩ := (State.inv_iff_of_active hactive).mp h
  have hcache : u.CacheHashed := State.encodePixel_cacheHashed (s := s.drawn) hpass.run henc hpass.cache
  have hrun : u.RunBounded := by
    rw [State.encodePixel_eq s.drawn p hpass.run, Except.ok.injEq] at henc
    rw [← henc]
    exact encRun_le _ p
  obtain ⟨count, draws, -, ht⟩ := State.pushed_frame henc draw
  obtain ⟨bytes, -, hframe⟩ := State.encodePixel_emits henc
  have hbounds := u.deliveryTarget_bounds draw
  rw [ht]
  generalize u.cache = cache, u.run = run at hframe
  subst hframe
  have hle : s.opos ≤ s.opos + bytes.length := Nat.le_add_right _ _
  obtain ⟨hfrom, hdepth, hto⟩ := hbounds (hpass.sent.trans hle)
  refine (State.inv_iff_of_active ?active).mpr ⟨{ hpass with
    cache := hcache, run := hrun, sent := hto, depth := tsub_le_iff_tsub_le.mp hdepth, opos := ?_, sink := ?_ }, fun hdecode => ?_⟩
  case active => exact hactive
  · exact (congrArg (· + bytes.length) hpass.opos).trans List.length_append.symm
  · exact sink_append_delivered hpass.sink (hpass.opos ▸ hpass.sent) (List.prefix_append _ bytes) hfrom
  · cases hmode.symm.trans hdecode

/-- An active Finish that raises nothing. -/
theorem finished (h : s.Inv) (hs : s.ActiveIn .encode) (hflush : (if s.runActive then s.flushRun else .ok s) = .ok u) :
    u.finished.Inv := by
  obtain ⟨hmode, hactive⟩ := hs
  obtain ⟨hpass, -⟩ := (State.inv_iff_of_active hactive).mp h
  obtain ⟨hopos, ht⟩ := State.finished_delivers hflush hpass.opos hpass.sent hpass.sink
  rw [ht]
  refine State.InPass.inv_of_done { hpass with
    run := Nat.zero_le _, opos := hopos, sent := Nat.le_refl _, depth := ?_, sink := ?_ } rfl (fun hdecode => ?_) fun _ => ⟨rfl, rfl⟩
  · exact (Nat.sub_self _).trans_le (Nat.zero_le _)
  · rw [hopos, List.take_length]
  · cases hmode.symm.trans hdecode

end State.Inv

/-- An operation that leaves ERROR as it is, is answered with the sticky error (rule R337). -/
theorem runOp_of_error {op : HostOp} (hs : s.status = .error) (ht : t.status = .error) (h : runOp op s = .next t) :
    t = s.stickyError := by
  have hnactive : s.status ≠ .active := by simp [hs]
  cases op with
  | reset => cases h; cases ht
  | start mode w h' ch cs io =>
    cases h
    rw [startOp_status] at ht
    split at ht <;> cases ht
  | pull =>
    obtain ⟨-, ⟨-, rfl⟩ | ⟨hdone, -⟩ | ⟨hactive, -⟩⟩ := pull_cases h
    · rfl
    · cases hs.symm.trans hdone
    · exact absurd hactive hnactive
  | push p =>
    obtain ⟨-, ⟨-, rfl⟩ | ⟨hactive, -⟩⟩ := pushWith_cases h
    · rfl
    · exact absurd hactive hnactive
  | finish =>
    obtain ⟨-, ⟨-, rfl⟩ | ⟨hactive, -⟩⟩ := finish_cases h
    · rfl
    · exact absurd hactive hnactive

/-- An operation that ends in ERROR keeps the invariant: it handed over the sticky error, or it raised. -/
theorem State.Inv.of_runOp_error {op : HostOp} (hinv : s.Inv) (h : runOp op s = .next t) (herror : t.status = .error) : t.Inv := by
  by_cases hs : s.status = .error
  · rw [runOp_of_error hs herror h]
    exact hinv.report _
  · obtain ⟨hactive, received, draws, info, rfl⟩ := runOp_raises h hs herror
    exact hinv.raise hactive received draws info

/-- Every operation keeps the invariant. -/
theorem runOp_inv {op : HostOp} (hinv : s.Inv) (h : runOp op s = .next t) : t.Inv := by
  by_cases herror : t.status = .error
  · exact hinv.of_runOp_error h herror
  · cases op with
    | reset => cases h; exact resetOp_inv s
    | start mode w h' ch cs io => cases h; exact startEstablishesTheInvariant s mode w h' ch cs io
    | pull =>
      obtain ⟨hmode, ⟨-, rfl⟩ | ⟨hactive, u, hu, rfl⟩⟩ := pull_next_of_ne_error h herror
      · exact hinv.report _
      · exact hinv.completePull hmode hactive hu
    | push p =>
      obtain ⟨hs, u, henc, rfl⟩ := pushWith_next_of_ne_error h herror
      exact hinv.pushed hs henc
    | finish =>
      obtain ⟨hs, u, hflush, rfl⟩ := finish_next_of_ne_error h herror
      exact hinv.finished hs hflush

/-- Settles O51: a step with nothing queued stays, and another runs one operation with the rest of the queue left (`runOp_inv`). -/
theorem everyStepKeepsTheInvariant : Obligations.EveryStepKeepsTheInvariant := by
  intro s t hinv h
  obtain ⟨-, rfl⟩ | ⟨op, rest, -, hop⟩ := step_cases h
  · exact hinv
  · exact runOp_inv (hinv.withOps rest) hop

/-! ### What a step can answer -/

/-- Pull answers next, or has no step (rules R160, R161). -/
theorem pull_answers (s : State) : (∃ t, pull s = .next t) ∨ pull s = .refused .pullHasNoStep := by
  cases hmode : s.mode with
  | encode => exact .inr (pull_of_encode hmode)
  | decode =>
    cases hstatus : s.status with
    | idle => exact .inr (pull_of_idle hstatus)
    | error => exact .inl ⟨_, pull_of_error hmode hstatus⟩
    | done => exact .inl ⟨_, pull_of_done hmode hstatus⟩
    | active =>
      obtain ⟨u, hu⟩ | ⟨info, -, hraise⟩ := State.ActiveIn.fetched_or_dispatch_error ⟨hmode, hstatus⟩
      · exact .inl ⟨_, hu.pull_eq ⟨hmode, hstatus⟩⟩
      · exact .inl ⟨_, hraise⟩

/-- With RUN in its bound Push answers next, or has no step (rules R260, R261). -/
theorem pushWith_answers (hrun : s.RunBounded) (draw : Nat) (p : Pixel) :
    (∃ t, pushWith draw p s = .next t) ∨ pushWith draw p s = .refused .pushHasNoStep := by
  cases hmode : s.mode with
  | decode => exact .inr (pushWith_refused (.inl hmode) draw p)
  | encode =>
    cases hstatus : s.status with
    | idle => exact .inr (pushWith_refused (.inr (.inl hstatus)) draw p)
    | done => exact .inr (pushWith_refused (.inr (.inr hstatus)) draw p)
    | error => exact .inl ⟨_, pushWith_of_error draw p hmode hstatus⟩
    | active => exact .inl ⟨_, pushWith_eq ⟨hmode, hstatus⟩ (s.drawn.encodePixel_eq p hrun)⟩

/-- With RUN in its bound Finish answers next, or has no step (rules R280, R281). -/
theorem finish_answers (hrun : s.RunBounded) : (∃ t, finish s = .next t) ∨ finish s = .refused .finishHasNoStep := by
  cases hmode : s.mode with
  | decode => exact .inr (finish_refused (.inl hmode))
  | encode =>
    cases hstatus : s.status with
    | idle => exact .inr (finish_refused (.inr (.inl hstatus)))
    | done => exact .inr (finish_refused (.inr (.inr hstatus)))
    | error => exact .inl ⟨_, finish_of_error hmode hstatus⟩
    | active => exact .inl ⟨_, finish_eq ⟨hmode, hstatus⟩ (s.flushPending_eq (hrun.trans (by decide)))⟩

/-- With RUN in its bound an operation answers next, or has no step. -/
theorem runOp_answers (hrun : s.RunBounded) (op : HostOp) :
    (∃ t, runOp op s = .next t) ∨
      ∃ r, runOp op s = .refused r ∧ (r = .pullHasNoStep ∨ r = .pushHasNoStep ∨ r = .finishHasNoStep) := by
  cases op with
  | reset => exact .inl ⟨_, rfl⟩
  | start => exact .inl ⟨_, rfl⟩
  | pull => exact (pull_answers s).imp_right fun h => ⟨_, h, .inl rfl⟩
  | push p => exact (pushWith_answers hrun _ p).imp_right fun h => ⟨_, h, .inr (.inl rfl)⟩
  | finish => exact (finish_answers hrun).imp_right fun h => ⟨_, h, .inr (.inr rfl)⟩

/-- Settles O52: of the invariant only RUN's bound is needed, by which every run has an opcode (`runOp_answers`). -/
theorem invariantStatesNeverFault : Obligations.InvariantStatesNeverFault := by
  intro s hinv
  rw [step, nextStep]
  cases s.ops with
  | nil => simp
  | cons op rest =>
    obtain ⟨t, ht⟩ | ⟨r, hr, hname⟩ := runOp_answers (hinv.withOps rest).runBounded op
    · simp [ht]
    · refine ⟨by simp [hr], fun r' hr' => ?_⟩
      obtain rfl : r = r' := Host.Outcome.refused.inj (hr.symm.trans hr')
      exact hname

end Sys2Proof.Machine
end

section
/-!
PROOFS. Whole passes: what a run of queued Pushes and a Finish leaves (46_encoder.md, rules R39 and R282), the decoder on their output
(41_color_cache.md, rule R145; rule R283), and the container (40_descriptor_interface.md, rules R125 and R126).
-/

namespace Sys2Proof.Machine

variable {s t done : State} {ops rest : List HostOp} {pixels : List Pixel}

/-! ### Runs of queued operations -/

/-- A step runs the oldest queued operation. -/
theorem step_of_ops {op : HostOp} (h : s.ops = op :: rest) : step s = runOp op (s.withOps rest) := by
  rw [step, nextStep, h]

/-- A run that begins with a queued Start is a run from the state it leaves. -/
theorem core_run_start (n : Nat) (mode : Mode) (w h : BitVec 32) (ch cs : Byte) (io : PassIO) (s : State) (ops : List HostOp) :
    Host.Core.run core (n + 1) { s with ops := .start mode w h ch cs io :: ops } =
      Host.Core.run core n (startOp mode w h ch cs io (s.withOps ops)) := by
  rw [core_run_succ, step_of_ops rfl]
  rfl

/-- A Push or a Finish issued in ERROR leaves it in ERROR (rules R261, R281, R337). -/
theorem runOp_status_of_error {op : HostOp} (hs : s.status = .error) (hop : op = .finish ∨ ∃ p, op = .push p)
    (h : runOp op s = .next t) : t.status = .error := by
  have hnactive : s.status ≠ .active := by simp [hs]
  obtain rfl | ⟨p, rfl⟩ := hop <;>
    exact ((runOp_statusEdge h).resolve_right fun ⟨hactive, _⟩ => hnactive hactive).trans hs

/-- So does a run of them. -/
theorem core_run_of_error {n : Nat} (hs : s.status = .error) (hops : ∀ op ∈ s.ops.take n, op = .finish ∨ ∃ p, op = .push p)
    (h : Host.Core.run core n s = .next t) : t.status = .error ∧ t.ops = s.ops.drop n := by
  induction n generalizing s with
  | zero => cases h; exact ⟨hs, rfl⟩
  | succ n ih =>
    obtain ⟨s1, hstep, hrun⟩ := (core_run_succ_next_iff n s t).mp h
    obtain ⟨hempty, rfl⟩ | ⟨op, rest, hcons, hop⟩ := step_cases hstep
    · simpa [hempty] using ih hs (by simp [hempty]) hrun
    · rw [hcons, List.take_succ_cons] at hops
      rw [hcons, List.drop_succ_cons]
      have hs1 := runOp_status_of_error (s := s.withOps rest) hs (hops op List.mem_cons_self) hop
      have hops1 : s1.ops = rest := by rw [runOp_of_error (s := s.withOps rest) hs hs1 hop]; rfl
      rw [← hops1] at hops ⊢
      exact ih hs1 (fun op' hmem => hops op' (List.mem_cons_of_mem _ hmem)) hrun

/-! ### An encode pass -/

/-- `t` is what Pushes of `pixels`, none of which raised, leave of `s` in an active encode pass. -/
structure State.Encoded (s : State) (pixels : List Pixel) (t : State) : Prop where
  active : t.ActiveIn .encode
  run_le : t.run.toNat ≤ 8223
  regs : t.encRegs = encAll s.encRegs pixels
  out : t.out = s.out ++ encAllBytes s.encRegs pixels
  count : s.count.toNat + pixels.length < 2 ^ 64 → t.count.toNat = s.count.toNat + pixels.length

/-- One Push before the others. -/
theorem State.Encoded.cons {p : Pixel} {s1 : State} (h1 : s.Encoded [p] s1) (h : s1.Encoded pixels t) : s.Encoded (p :: pixels) t where
  active := h.active
  run_le := h.run_le
  regs := by rw [h.regs, h1.regs]; rfl
  out := by rw [h.out, h1.out, h1.regs]; simp [encAllBytes, encAll]
  count := fun hlt => by
    rw [List.length_cons] at hlt ⊢
    have hcount1 := h1.count (by rw [List.length_singleton]; omega)
    rw [List.length_singleton] at hcount1
    rw [h.count (by omega)]
    omega

/-- A Push in an active encode pass, as one step. -/
theorem step_push {p : Pixel} (hs : s.ActiveIn .encode) (hrun : s.run.toNat ≤ 8223) (hops : s.ops = .push p :: rest)
    (h : step s = .next t) : t.ops = rest ∧ (t.status = .error ∨ s.Encoded [p] t) := by
  rw [step_of_ops hops] at h
  have hrun1 := pushWith_run_le (s := s.withOps rest) hrun h
  obtain ⟨-, herror, hops1, -⟩ | ⟨hactive, hregs, hout, hops1, -, hcount⟩ := pushWith_of_active (s := s.withOps rest) hs hrun h
  · exact ⟨hops1, .inl herror⟩
  · refine ⟨hops1, .inr ⟨hactive, hrun1, hregs, ?_, fun hlt => ?_⟩⟩
    · rw [hout, encAllBytes, encAllBytes, List.append_nil]
      rfl
    rw [List.length_singleton] at hlt ⊢
    have hne : s.count ≠ BitVec.allOnes 64 := fun heq => by rw [heq] at hlt; simp at hlt
    rw [hcount hne]
    exact BitVec.toNat_add_of_lt hlt

/-- A run of queued Pushes ends in ERROR or has encoded the pixels. -/
theorem core_run_pushes (hs : s.ActiveIn .encode) (hrun : s.run.toNat ≤ 8223) (hops : s.ops = pixels.map .push ++ rest)
    (h : Host.Core.run core pixels.length s = .next t) : t.ops = rest ∧ (t.status = .error ∨ s.Encoded pixels t) := by
  induction pixels generalizing s with
  | nil =>
    cases h
    exact ⟨hops, .inr ⟨hs, hrun, rfl, (List.append_nil _).symm, fun _ => rfl⟩⟩
  | cons p pixels ih =>
    obtain ⟨s1, hstep, hlater⟩ := (core_run_succ_next_iff _ _ _).mp h
    obtain ⟨hops1, herror | hpushed⟩ := step_push hs hrun hops hstep
    · obtain ⟨hstatus, hdrop⟩ := core_run_of_error herror (by simp [hops1]) hlater
      exact ⟨by simpa [hops1] using hdrop, .inl hstatus⟩
    · obtain ⟨hops', herror | hencoded⟩ := ih hpushed.active hpushed.run_le hops1 hlater
      · exact ⟨hops', .inl herror⟩
      · exact ⟨hops', .inr (hpushed.cons hencoded)⟩

/-- After Start and Pushes of `pixels`, an encode pass is in ERROR or stands at the encoder's registers and output for them. -/
theorem core_run_start_pushes {w h : BitVec 32} {ch cs : Byte} {io : PassIO}
    (hrun : Host.Core.run core (pixels.length + 1) { s with ops := .start .encode w h ch cs io :: (pixels.map .push ++ rest) } =
      .next t) :
    t.ops = rest ∧ (t.status = .error ∨
      t.ActiveIn .encode ∧ t.run.toNat ≤ 8223 ∧ t.encRegs = encAll EncRegs.start pixels ∧
        t.out = encAllBytes EncRegs.start pixels ∧ (pixels.length < 2 ^ 64 → t.count.toNat = pixels.length)) := by
  rw [core_run_start] at hrun
  have hactive : (startOp .encode w h ch cs io (s.withOps (pixels.map .push ++ rest))).ActiveIn .encode :=
    ⟨rfl, by rw [startOp_status]; simp⟩
  obtain ⟨hops, herror | hencoded⟩ := core_run_pushes hactive (Nat.zero_le _) rfl hrun
  · exact ⟨hops, .inl herror⟩
  · have hcount := hencoded.count
    rw [show (startOp .encode w h ch cs io (s.withOps (pixels.map .push ++ rest))).count.toNat = 0 from rfl, Nat.zero_add] at hcount
    exact ⟨hops, .inr ⟨hencoded.active, hencoded.run_le, hencoded.regs, hencoded.out, hcount⟩⟩

/-- Settles O53: both runs stand where `core_run_start_pushes` says, which names the pixels alone. -/
theorem encoderOutputDependsOnlyOnPixels : Obligations.EncoderOutputDependsOnlyOnPixels := by
  intro pixels s1 s2 t1 t2 w1 h1 w2 h2 ch1 cs1 ch2 cs2 io1 io2 rest1 rest2 hrun1 hrun2 hactive1 hactive2 hlen
  obtain ⟨-, herror | ⟨-, -, hregs1, hout1, hcount1⟩⟩ := core_run_start_pushes hrun1
  · cases hactive1.symm.trans herror
  obtain ⟨-, herror | ⟨-, -, hregs2, hout2, hcount2⟩⟩ := core_run_start_pushes hrun2
  · cases hactive2.symm.trans herror
  have hregs := hregs1.trans hregs2.symm
  exact ⟨hout1.trans hout2.symm, congrArg EncRegs.px hregs, congrArg EncRegs.run hregs, congrArg EncRegs.cache hregs,
    BitVec.eq_of_toNat_eq ((hcount1 hlen).trans (hcount2 hlen).symm)⟩

section FinishedPass

/-! The run of an encode pass that ends DONE. -/

variable {w h : BitVec 32} {ch cs : Byte} {io : PassIO}
  (hrun : Host.Core.run core (pixels.length + 2) { s with ops := encodeScript w h ch cs io pixels } = .next done)
  (hdone : done.status = .done)
include hrun hdone

/-- Stopped after `k` of its Pushes, it stands at the encoder's registers for the first `k` pixels, with the rest of the script queued. -/
theorem core_run_encodeScript {k : Nat} (hk : k ≤ pixels.length) :
    ∃ e, Host.Core.run core (k + 1) { s with ops := encodeScript w h ch cs io pixels } = .next e ∧
      Host.Core.run core (pixels.length - k + 1) e = .next done ∧ e.ActiveIn .encode ∧ e.run.toNat ≤ 8223 ∧
      e.ops = (pixels.drop k).map .push ++ [.finish] ∧ e.encRegs = encAll EncRegs.start (pixels.take k) ∧
      e.out = encAllBytes EncRegs.start (pixels.take k) := by
  rw [show pixels.length + 2 = (k + 1) + (pixels.length - k + 1) by omega, core_run_add_iff] at hrun
  obtain ⟨e, hfirst, hlater⟩ := hrun
  have hscript : encodeScript w h ch cs io pixels =
      .start .encode w h ch cs io :: ((pixels.take k).map .push ++ ((pixels.drop k).map .push ++ [.finish])) := by
    rw [encodeScript, ← List.append_assoc, ← List.map_append, List.take_append_drop]
  have hlen : (pixels.take k).length = k := by rw [List.length_take, Nat.min_eq_left hk]
  have hpushes := core_run_start_pushes (s := s) (t := e) (pixels := pixels.take k) (by rw [hlen, ← hscript]; exact hfirst)
  obtain ⟨hops, herror | ⟨hactive, hle, hregs, hout, -⟩⟩ := hpushes
  · have hlast : ∀ op ∈ e.ops.take (pixels.length - k + 1), op = .finish ∨ ∃ p, op = .push p := fun op hmem => by
      replace hmem := List.mem_of_mem_take hmem
      rw [hops, List.mem_append, List.mem_map, List.mem_singleton] at hmem
      obtain ⟨p, -, rfl⟩ | rfl := hmem
      · exact .inr ⟨p, rfl⟩
      · exact .inl rfl
    obtain ⟨hstatus, -⟩ := core_run_of_error herror hlast hlater
    cases hstatus.symm.trans hdone
  · exact ⟨e, hfirst, hlater, hactive, hle, hops, hregs, hout⟩

/-- Its OUT is what the Pushes emit and the flush of the last run (rule R280). -/
theorem out_encodeScript : done.out = encStream EncRegs.start pixels := by
  obtain ⟨e, -, hlast, hactive, hle, hops, hregs, hout⟩ := core_run_encodeScript hrun hdone (Nat.le_refl _)
  rw [List.take_length] at hregs hout
  rw [List.drop_length] at hops
  rw [Nat.sub_self] at hlast
  obtain ⟨t, hstep, ht⟩ := (core_run_succ_next_iff _ _ _).mp hlast
  cases ht
  rw [step_of_ops hops] at hstep
  obtain ⟨-, u, hflush, ht⟩ := finish_next_of_ne_error hstep (by simp [hdone])
  rw [(e.withOps []).flushPending_eq (hle.trans (by decide)), Except.ok.injEq] at hflush
  rw [ht, ← hflush]
  calc (State.finished (State.flushed (e.withOps []))).out = e.out ++ pendingBytes e.encRegs.run := rfl
    _ = encStream EncRegs.start pixels := by rw [hregs, hout, encStream]

end FinishedPass

/-! ### The decode pass of its output -/

/-- An unfailed decode pass with `pixels` still to return, following an encoder that has still to push them (`Follows`). -/
structure Tracks (unread : List Byte) (e : EncRegs) (pixels : List Pixel) (d : State) : Prop where
  follows : Follows unread e pixels d
  count : d.count.toNat + pixels.length = d.total.toNat
  status : d.status = if d.count.toNat = d.total.toNat then .done else .active

/-- One Pull returns the encoder's next pixel. -/
theorem Tracks.pull {unread : List Byte} {e : EncRegs} {p : Pixel} {d : State} (h : Tracks unread e (p :: pixels) d) :
    ∃ d', pull d = .next d' ∧ Tracks unread (encNext e p) pixels d' ∧ d'.results = d.results ++ [.pixel p] ∧ d'.ops = d.ops := by
  have hcount := h.count
  rw [List.length_cons] at hcount
  have hactive : d.status = .active := by rw [h.status, if_neg (by omega)]
  obtain ⟨d', hpull, hfollows, hresults, hcount', htotal, hops, hstatus⟩ := pull_follows h.follows hactive (by omega)
  refine ⟨d', hpull, ⟨hfollows, ?_, by rw [hstatus, hcount', htotal]⟩, hresults, hops⟩
  rw [hcount', htotal]
  omega

/-- The Start of a decode pass over an encoder's output, with the encoder's number of pixels. -/
theorem tracks_startOp {unread : List Byte} {w h : BitVec 32} {ch cs : Byte} {outFail : Option Nat}
    (hlen : pixels.length = w.toNat * h.toNat) (s : State) :
    Tracks unread EncRegs.start pixels
      (startOp .decode w h ch cs ⟨encStream EncRegs.start pixels ++ unread, none, outFail⟩ s) where
  follows := ⟨rfl, rfl, rfl, rfl, Nat.zero_le _, .inl ⟨rfl, rfl, rfl⟩⟩
  count := by
    rw [show (startOp .decode w h ch cs ⟨encStream EncRegs.start pixels ++ unread, none, outFail⟩ s).count.toNat = 0 from rfl,
      Nat.zero_add, hlen]
    exact (toNat_pixelTotal w h).symm
  status := by
    simp only [startOp_status, true_and]
    exact if_congr (eq_comm.trans BitVec.toNat_inj.symm) rfl rfl

/-- Queued Pulls return the encoder's pixels one by one. -/
theorem Tracks.core_run {unread : List Byte} {e : EncRegs} {d : State} {k : Nat} (h : Tracks unread e pixels d)
    (hops : d.ops = List.replicate pixels.length .pull) (hk : k ≤ pixels.length) :
    ∃ d', Host.Core.run core k d = .next d' ∧ Tracks unread (encAll e (pixels.take k)) (pixels.drop k) d' ∧
      d'.results = d.results ++ (pixels.take k).map .pixel := by
  induction k generalizing e d pixels with
  | zero => exact ⟨d, rfl, h, (List.append_nil _).symm⟩
  | succ k ih =>
    cases pixels with
    | nil => cases hk
    | cons p pixels =>
      have h' : Tracks unread e (p :: pixels) (d.withOps (List.replicate pixels.length .pull)) :=
        ⟨{ h.follows with }, h.count, h.status⟩
      obtain ⟨d1, hpull, htracks, hresults, hops1⟩ := h'.pull
      obtain ⟨d', hrun, htracks', hresults'⟩ := ih htracks hops1 (Nat.le_of_succ_le_succ hk)
      refine ⟨d', (core_run_succ_next_iff k d d').mpr ⟨d1, (step_of_pull hops).trans hpull, hrun⟩, htracks', ?_⟩
      rw [hresults', hresults]
      simp

/-- The Pulls of decodeImage give the encoder's pixels (rule R125). -/
theorem Tracks.pullPixels {unread : List Byte} {e : EncRegs} {d : State} (h : Tracks unread e pixels d) :
    pullPixels pixels.length d = (pixels, .complete) := by
  induction pixels generalizing e d with
  | nil => rfl
  | cons p pixels ih =>
    obtain ⟨d', hpull, htracks, hresults, -⟩ := h.pull
    simp only [List.length_cons, Machine.pullPixels, hpull, hresults, List.getLast?_concat, ih htracks]

/-- The decode pass over a finished encode pass's output, stopped after `k` Pulls. -/
theorem core_run_decodeScript {w h : BitVec 32} {ch cs : Byte} {io : PassIO} (hlen : pixels.length = w.toNat * h.toNat)
    (hrun : Host.Core.run core (pixels.length + 2) { s with ops := encodeScript w h ch cs io pixels } = .next done)
    (hdone : done.status = .done) {k : Nat} (hk : k ≤ pixels.length) (s' : State) (ch' cs' : Byte) (unread : List Byte)
    (outFail : Option Nat) :
    ∃ d, Host.Core.run core (k + 1) { s' with ops := decodeScript w h ch' cs' ⟨done.out ++ unread, none, outFail⟩ } = .next d ∧
      Tracks unread (encAll EncRegs.start (pixels.take k)) (pixels.drop k) d ∧
      d.results = s'.results ++ (pixels.take k).map .pixel := by
  rw [out_encodeScript hrun hdone, decodeScript, core_run_start, ← hlen]
  exact (tracks_startOp hlen _).core_run rfl hk

/-- Settles O54: the encoder after `k` Pushes is `core_run_encodeScript`, the decoder after `k` Pulls `core_run_decodeScript`, and both
stand at the encoder's registers for the first `k` pixels. -/
theorem decoderTracksEncoder : Obligations.DecoderTracksEncoder := by
  intro pixels w h ch cs ch' cs' io s s' done unread outFail k hlen hk hrun hdone
  obtain ⟨e, he, -, -, -, -, hregs, -⟩ := core_run_encodeScript hrun hdone hk
  obtain ⟨d, hd, htracks, -⟩ := core_run_decodeScript hlen hrun hdone hk s' ch' cs' unread outFail
  exact ⟨e, d, he, hd, htracks.follows.px.trans (congrArg EncRegs.px hregs).symm,
    htracks.follows.cache.trans (congrArg EncRegs.cache hregs).symm⟩

/-- Settles O55: `core_run_decodeScript` with all Pulls made, so that no pixel is left and COUNT is TOTAL. -/
theorem decodingReturnsTheEncodedPixels : Obligations.DecodingReturnsTheEncodedPixels := by
  intro pixels w h ch cs ch' cs' io s s' done unread outFail hlen hrun hdone
  obtain ⟨d, hd, htracks, hresults⟩ := core_run_decodeScript hlen hrun hdone (Nat.le_refl _) s' ch' cs' unread outFail
  have hcount := htracks.count
  rw [List.drop_length, List.length_nil, Nat.add_zero] at hcount
  rw [List.take_length] at hresults
  exact ⟨d, hd, htracks.status.trans (if_pos hcount), hresults⟩

/-! ### The container -/

/-- decodeImage of a header and an encoder's output, with any bytes after it. -/
theorem decodeImage_encStream {d : Descriptor} (hchannels : d.channels = 3 ∨ d.channels = 4)
    (hlen : pixels.length = d.width.toNat * d.height.toNat) (unread : List Byte) (s : State) :
    decodeImage (writeHeader d ++ (encStream EncRegs.start pixels ++ unread)) none s = (pixels, .complete) := by
  have htotal : (startOp .decode d.width d.height d.channels d.colorspace
      ⟨encStream EncRegs.start pixels ++ unread, none, none⟩ s).total.toNat = pixels.length :=
    (toNat_pixelTotal d.width d.height).trans hlen.symm
  simp only [decodeImage, readHeader_writeHeader d _ hchannels, htotal]
  exact (tracks_startOp hlen s).pullPixels

/-- Settles O58: what encodeImage wrote without error is `encodeImage_eq`, and decoding it `decodeImage_encStream`, the padding being the
bytes after. -/
theorem containerRoundTrip : Obligations.ContainerRoundTrip := by
  intro channels colorspace buffer outFail s s' bytes h
  refine ⟨buffer.rowMajor, ?_, buffer.length_rowMajor, fun k hk => buffer.getElem?_rowMajor k (buffer.length_rowMajor ▸ hk)⟩
  obtain ⟨hwritten, -⟩ | ⟨k, hfailed, -⟩ := encodeImage_eq channels colorspace buffer outFail s
  · obtain ⟨rfl, -⟩ := Prod.mk.inj (h.symm.trans hwritten)
    rw [List.append_assoc]
    exact decodeImage_encStream channels.byte_legal buffer.length_rowMajor _ s'
  · cases h.symm.trans hfailed

/-- Settles O59: the stream is `encStream` of the row-major pixels, which is every finished pass's OUT (`out_encodeScript`) and what
encodeImage writes (`encodeImage_eq`). -/
theorem encodeImageWritesUpToTheRefusedByte : Obligations.EncodeImageWritesUpToTheRefusedByte := by
  intro channels colorspace buffer s count header
  refine ⟨buffer.length_rowMajor, buffer.getElem?_rowMajor, encStream EncRegs.start buffer.rowMajor, ?_, ?_, fun k => ?_⟩
  · intro s' done ch cs io hrun hdone
    rw [← show buffer.rowMajor.length = count from buffer.length_rowMajor] at hrun
    exact out_encodeScript hrun hdone
  · obtain ⟨hwritten, -⟩ | ⟨k, -, hfail, -⟩ := encodeImage_eq channels colorspace buffer none s
    · exact hwritten
    · cases hfail
  · obtain ⟨hwritten, hle⟩ | ⟨k', hfailed, hfail, hlt⟩ := encodeImage_eq channels colorspace buffer (some k) s
    · rw [if_neg (hle k rfl).not_gt]
      exact hwritten
    · obtain rfl : k = k' := Option.some.inj hfail
      rw [if_pos hlt]
      exact hfailed

end Sys2Proof.Machine
end
